-- ==== Sys2Proof/Word.lean ====
section
/-! DEFINITION. The word of the command port and of the output buffer: 32 bits (spec 00 R8, R9, R10). A binary32
value and its pattern are interchangeable (R10), so a word stands for either. -/

namespace Sys2Proof

/-- A 32-bit word: a command word, an operand word, or the pattern of a binary32 value (00 R9, R10). -/
abbrev Word := BitVec 32

/-- A byte of the host's memory (20 R72). -/
abbrev Byte := BitVec 8

end Sys2Proof
end

