-- ==== Sys2Proof/Syntax.lean ====
section
/-! DEFINITION. The ten host commands, one constructor per row of spec/opcode_table.json, each with its operand words
in the order of 30 R102. An operand is the whole 32-bit word (30 R104): a binary32 operand is its pattern, a u32 operand
its unsigned value. -/

namespace Sys2Proof

/-- The commands of 30 R102, in the order of their opcodes. -/
inductive Instr where
  /-- `create sample_rate` (opcode 0x01, format FF1, 46 R230). -/
  | create (sampleRate : Word)
  /-- `render frame_count` (opcode 0x02, format FU1, 46 R231). -/
  | render (frameCount : Word)
  /-- `set_gain value` (opcode 0x03, format FF1, 46 R232). -/
  | setGain (value : Word)
  /-- `set_frequency value` (opcode 0x04, format FF1, 46 R233). -/
  | setFrequency (value : Word)
  /-- `note_on` (opcode 0x05, format F0, 46 R234). -/
  | noteOn
  /-- `note_off` (opcode 0x06, format F0, 46 R235). -/
  | noteOff
  /-- `set_adsr attack, decay, sustain, release` (opcode 0x07, format FF4, 46 R236). -/
  | setAdsr (attack decay sustain release : Word)
  /-- `set_waveform id` (opcode 0x08, format FU1, 46 R237). -/
  | setWaveform (id : Word)
  /-- `set_lfo_rate freq` (opcode 0x09, format FF1, 46 R238). -/
  | setLfoRate (freq : Word)
  /-- `destroy` (opcode 0x0A, format F0, 46 R239). -/
  | destroy
  deriving DecidableEq, Repr

end Sys2Proof
end

