-- ==== Sys2Proof/WellFormed.lean ====
section
/-! DEFINITION. Which commands and which word sequences are well formed. Every operand pattern is a legal encoding
(30 R110), so every term of Instr is well formed. A sequence of words begins with a well-formed command when its opcode
is in the map (30 R106), its reserved bits are zero (30 R107) and its operand words are all there (30 R108). -/

namespace Sys2Proof

/-- Every operand pattern is a legal encoding; what an operand's value means is the command's own rule (30 R110). -/
def Instr.wellFormed : Instr → Bool
  | .create _ => true
  | .render _ => true
  | .setGain _ => true
  | .setFrequency _ => true
  | .noteOn => true
  | .noteOff => true
  | .setAdsr _ _ _ _ => true
  | .setWaveform _ => true
  | .setLfoRate _ => true
  | .destroy => true

/-- 30 R106: an opcode is assigned when it is one of 0x01 to 0x0A. -/
def opcodeAssigned (w : Word) : Bool := 0x01 ≤ w.toNat % 256 && w.toNat % 256 ≤ 0x0A

/-- 30 R107: the field RSV, bits 31:8, is zero. -/
def reservedBitsZero (w : Word) : Bool := w.toNat / 256 == 0

/-- 30 R105: how many words a command takes, command word included, found from its opcode alone
(F0 one, FF1 and FU1 two, FF4 five). -/
def wordCount (w : Word) : Nat :=
  let opc := w.toNat % 256
  if opc = 0x05 ∨ opc = 0x06 ∨ opc = 0x0A then 1 else if opc = 0x07 then 5 else 2

/-- A word sequence that begins with a complete, legal command (30 R106, R107, R108). -/
def wordsWellFormed : List Word → Bool
  | [] => false
  | w :: ws => opcodeAssigned w && reservedBitsZero w && decide (wordCount w ≤ (w :: ws).length)

end Sys2Proof
end

