-- ==== Sys2Proof/Decode.lean ====
section
/-! DEFINITION. The decoder of 30 R111, total on any word sequence, and the encoder of 30 R101 to R104. -/

namespace Sys2Proof

/-- The refusals of the decoder (30 R106, R107, R108). -/
inductive DecodeError where
  | reservedOpcode
  | reservedBits
  | truncated
  deriving DecidableEq, Repr

/-- What the decoder answers (30 R111). -/
inductive Decoded where
  /-- No word is left at a command boundary. -/
  | done
  /-- The words begin with no command. -/
  | refuse (e : DecodeError)
  /-- A command, and the words after its last operand word. -/
  | command (i : Instr) (rest : List Word)
  deriving DecidableEq, Repr

/-- `OPC = w[7:0]` (30 R101). -/
def opcField (w : Word) : Nat := w.toNat % 256

/-- `RSV = w[31:8]` (30 R101). -/
def rsvField (w : Word) : Nat := w.toNat / 256

/-- 30 R111: the number of operand words of each assigned opcode, none for a reserved one (30 R102, R106). -/
def operandCount : Nat → Option Nat
  | 0x01 => some 1
  | 0x02 => some 1
  | 0x03 => some 1
  | 0x04 => some 1
  | 0x05 => some 0
  | 0x06 => some 0
  | 0x07 => some 4
  | 0x08 => some 1
  | 0x09 => some 1
  | 0x0A => some 0
  | _ => none

/-- A command without operand words (format F0). -/
def noOperand (i : Instr) : List Word → Option Instr
  | [] => some i
  | _ :: _ => none

/-- A command with one operand word (formats FF1 and FU1). -/
def oneOperand (f : Word → Instr) : List Word → Option Instr
  | [x] => some (f x)
  | _ => none

/-- A command with four operand words (format FF4). -/
def fourOperands (f : Word → Word → Word → Word → Instr) : List Word → Option Instr
  | [x, y, z, t] => some (f x y z t)
  | _ => none

/-- The opcode map of 30 R102: the command of an opcode and exactly its operand words. -/
def instrOf : Nat → List Word → Option Instr
  | 0x01, ops => oneOperand .create ops
  | 0x02, ops => oneOperand .render ops
  | 0x03, ops => oneOperand .setGain ops
  | 0x04, ops => oneOperand .setFrequency ops
  | 0x05, ops => noOperand .noteOn ops
  | 0x06, ops => noOperand .noteOff ops
  | 0x07, ops => fourOperands .setAdsr ops
  | 0x08, ops => oneOperand .setWaveform ops
  | 0x09, ops => oneOperand .setLfoRate ops
  | 0x0A, ops => noOperand .destroy ops
  | _, _ => none

/-- The decoder of 30 R111: the opcode is checked first, then the reserved bits, then the length (60 R264). -/
def decode : List Word → Decoded
  | [] => .done
  | w :: ws =>
    match operandCount (opcField w) with
    | none => .refuse .reservedOpcode
    | some k =>
      if rsvField w ≠ 0 then .refuse .reservedBits
      else
        match if k ≤ ws.length then instrOf (opcField w) (ws.take k) else none with
        | none => .refuse .truncated
        | some i => .command i (ws.drop k)

/-- The commands of a whole stream, one after another (30 R100), when it parses; at most `n` of them. -/
def decodeAll : Nat → List Word → Option (List Instr)
  | 0, ws =>
    match decode ws with
    | .done => some []
    | .command _ _ => none
    | .refuse _ => none
  | n + 1, ws =>
    match decode ws with
    | .done => some []
    | .command i rest => (decodeAll n rest).map (i :: ·)
    | .refuse _ => none

/-- The command word of each command: `RSV = 0` and the opcode of 30 R102. -/
def commandWord : Instr → Word
  | .create _ => 0x00000001
  | .render _ => 0x00000002
  | .setGain _ => 0x00000003
  | .setFrequency _ => 0x00000004
  | .noteOn => 0x00000005
  | .noteOff => 0x00000006
  | .setAdsr _ _ _ _ => 0x00000007
  | .setWaveform _ => 0x00000008
  | .setLfoRate _ => 0x00000009
  | .destroy => 0x0000000A

/-- The operand words of each command, in the order of 30 R102. -/
def operandWords : Instr → List Word
  | .create sr => [sr]
  | .render n => [n]
  | .setGain v => [v]
  | .setFrequency v => [v]
  | .noteOn => []
  | .noteOff => []
  | .setAdsr a d s r => [a, d, s, r]
  | .setWaveform n => [n]
  | .setLfoRate f => [f]
  | .destroy => []

/-- The words of a command: the command word, then its operand words (30 R100, R103). -/
def encode (i : Instr) : List Word := commandWord i :: operandWords i

/-- The words of a command stream: one command after another, no padding and no gaps (30 R100). -/
def encodeAll : List Instr → List Word
  | [] => []
  | i :: is => encode i ++ encodeAll is

/-- The `count` 32-bit words of a number, least significant word first. -/
def wordsOfNat : Nat → Nat → List Word
  | 0, _ => []
  | count + 1, w => BitVec.ofNat 32 w :: wordsOfNat count (w / 2 ^ 32)

/-- The words of an instruction given as `nbits` bits numbered as the opcode table numbers them, with zero bits above,
up to the longest command (five words, 30 R105). -/
def tableWords (nbits w : Nat) : List Word := wordsOfNat 5 (w % 2 ^ nbits)

/-- The instruction the decoder reads from those words. -/
def decodeTableWord (nbits w : Nat) : Option Instr :=
  match decode (tableWords nbits w) with
  | .command i _ => some i
  | .done => none
  | .refuse _ => none

end Sys2Proof
end

