-- ==== Sys2Proof/Config.lean ====
section
/-! DEFINITION. What the spec leaves open (00 R8): the OPEN parameters, the sine function, the wrap mode and the patterns
of NaN results. Each is an opaque constant with no body, so a claim about the model holds for every value of it. The
constants here are raw; the definitions that confine each to its admissible range stand where it is used
(Machine/Float.lean, Machine/Envelope.lean). -/

namespace Sys2Proof

/-- The two wrap modes of 42 R177. -/
inductive WrapMode where
  /-- `p - floor(p)`, the spec's choice (92 D8). -/
  | reduce
  /-- One subtraction of 1.0 when the sum is at or above 1.0. -/
  | subtractOnce
  deriving DecidableEq, Repr, Inhabited

/-- The rounded operations, to name the free pattern of a NaN result. A subtraction is the addition it is defined by
(log 6). -/
inductive FloatOp where
  | add
  | mul
  | div
  deriving DecidableEq, Repr, Inhabited

/-- `WRAP_MODE` (00 R8, 42 R177): free between the two modes (log 10). -/
opaque Config.wrapMode : WrapMode

/-- The raw sine (00 R16, 92 D7), free: `Machine.sin32` gives it properties P1, P2 and P3 (log 8). -/
opaque Config.sinBits : Word → Word

/-- `SIN_ULP` (00 R8, R16 P4): the accuracy bound of the sine in units in the last place, free. DESIGN CHOICE: any rational,
of either sign; a negative one makes the premise `SinAccurate` unmeetable (log 8). -/
opaque Config.sinUlp : Rat

/-- `ADSR_MIN_TIME` as its place among the positive finite binary32 patterns 0x00000001 to 0x7F7FFFFF (00 R8, log 9). -/
opaque Config.adsrMinTimeIndex : Fin 0x7F7FFFFF

/-- `ATTACK_RESET` before it is confined to times at or above the floor (00 R8, log 9). -/
opaque Config.attackResetBits : Word

/-- `DECAY_RESET` before it is confined to times at or above the floor (00 R8, log 9). -/
opaque Config.decayResetBits : Word

/-- `RELEASE_RESET` before it is confined to times at or above the floor (00 R8, log 9). -/
opaque Config.releaseResetBits : Word

/-- `SUSTAIN_RESET` before it is confined to [0, 1] (00 R8, log 9). -/
opaque Config.sustainResetBits : Word

/-- `LFO_RATE_RESET`: any binary32 (00 R8, log 9). -/
opaque Config.lfoRateReset : Word

/-- The raw pattern of a NaN result of an operation on these operands: IEEE 754 leaves payload and sign open
(log 6). `Machine.nanResult` makes it a NaN. -/
opaque Config.nanBits : FloatOp → Word → Word → Word

/-- The raw pattern drawn for the n-th NaN sample written to a buffer (92 D24, log 7). -/
opaque Config.nanDraw : Nat → Word

end Sys2Proof
end

