-- ==== Sys2Proof/Machine/Float.lean ====
section
/-! DEFINITION. Binary32 values and arithmetic (spec 00 R10, R11, R13, R14, R16): patterns, exact values, one rounding to
nearest even per operation, subnormals kept, no flag. A finite binary32 is a whole number of units of 2^-149, so exact
values are integers and rounding works on a quotient of naturals. -/

namespace Sys2Proof.Machine

/-- The sign bit, bit 31 (R10). -/
def signBit (x : Word) : Bool := decide (2 ^ 31 ≤ x.toNat)

/-- The exponent and fraction bits 30:0 as a number. In this order of numbers the magnitudes of binary32 ascend. -/
def magBits (x : Word) : Nat := x.toNat % 2 ^ 31

/-- The magnitude bits of an infinity: exponent field all ones, fraction zero. Larger magnitude bits are NaNs. -/
def infMag : Nat := 0x7F800000

/-- NaN: exponent field all ones, fraction not zero (R10). -/
def isNaN (x : Word) : Bool := decide (infMag < magBits x)

/-- Either infinity. -/
def isInf (x : Word) : Bool := decide (magBits x = infMag)

/-- Neither NaN nor infinite. -/
def isFinite (x : Word) : Bool := decide (magBits x < infMag)

/-- `+0` or `-0`. -/
def isZero (x : Word) : Bool := decide (magBits x = 0)

/-- The pattern of a sign and magnitude bits. -/
def pack (negative : Bool) (mag : Nat) : Word := BitVec.ofNat 32 (mag + if negative then 2 ^ 31 else 0)

/-- The value of finite magnitude bits in units of 2^-149: the fraction with its hidden bit, scaled by the exponent;
subnormals (exponent field 0) have no hidden bit (R10). -/
def magUnits (m : Nat) : Nat :=
  if m < 2 ^ 23 then m else (2 ^ 23 + m % 2 ^ 23) * 2 ^ (m / 2 ^ 23 - 1)

/-- The exact value of a finite binary32 in units of 2^-149. -/
def units (x : Word) : Int :=
  if signBit x then -(magUnits (magBits x) : Int) else (magUnits (magBits x) : Int)

/-- The spacing, in units of 2^-149, of the binary32 values whose magnitude is about `q` units: 2^s with `s` from here.
It is 0 below 2^24 units, where every whole number of units is a binary32. -/
def spacingExp (q : Nat) : Nat := q.log2 - 23

/-- Round half to even: `num / den` to a whole number. -/
def roundHalfEven (num den : Nat) : Nat :=
  let q := num / den
  let r := num % den
  if den < 2 * r ∨ (2 * r = den ∧ q % 2 = 1) then q + 1 else q

/-- The magnitude bits of the binary32 nearest to the magnitude `num / den` (in units of 2^-149), ties to even;
past the largest finite value it is infinity (R11). -/
def roundMag (num den : Nat) : Nat :=
  let s := spacingExp (num / den)
  min (s * 2 ^ 23 + roundHalfEven num (den * 2 ^ s)) infMag

/-- A NaN made of any raw pattern: itself when it is a NaN, else a NaN with its sign and low payload bits.
Every NaN pattern is its own image. -/
def asNaN (w : Word) : Word := if isNaN w then w else pack (signBit w) (0x7FC00000 + magBits w % 2 ^ 22)

/-- The NaN an operation answers. Its sign and payload are free (R11 gives "NaN" only; log 6). -/
def nanResult (op : FloatOp) (a b : Word) : Word := asNaN (Config.nanBits op a b)

/-- The NaN written to the buffer at the n-th draw (92 D24, log 7). -/
def drawNaN (n : Nat) : Word := asNaN (Config.nanDraw n)

/-- An exact whole number of units rounded to binary32 (R11). `zeroNegative` is the sign of an exact zero. -/
def roundInt (z : Int) (zeroNegative : Bool) : Word :=
  pack (if z = 0 then zeroNegative else decide (z < 0)) (roundMag z.natAbs 1)

/-- `-x` flips the sign bit (R13). -/
def fneg (x : Word) : Word := pack (!signBit x) (magBits x)

/-- `abs(x)` clears the sign bit; a NaN stays a NaN (R13). -/
def fabs (x : Word) : Word := pack false (magBits x)

/-- `a + b` (R11): one rounding; `inf - inf` is NaN; an exact zero sum is `+0` unless both operands are negative. -/
def fadd (a b : Word) : Word :=
  if isNaN a || isNaN b then nanResult .add a b
  else if isInf a then
    if isInf b && signBit a != signBit b then nanResult .add a b else a
  else if isInf b then b
  else roundInt (units a + units b) (signBit a && signBit b)

/-- `a - b` is `a + (-b)` (R11, R13). DESIGN CHOICE: so the open pattern of a NaN difference is that of the sum with the
negated operand; R11 says only NaN (log 6). -/
def fsub (a b : Word) : Word := fadd a (fneg b)

/-- `a * b` (R11): one rounding; `0 * inf` is NaN; the sign is the exclusive or of the signs. -/
def fmul (a b : Word) : Word :=
  let negative := signBit a != signBit b
  if isNaN a || isNaN b then nanResult .mul a b
  else if isInf a || isInf b then
    if isZero a || isZero b then nanResult .mul a b else pack negative infMag
  else pack negative (roundMag (magUnits (magBits a) * magUnits (magBits b)) (2 ^ 149))

/-- `a / b` (R11): one rounding; `0 / 0` and `inf / inf` are NaN; a nonzero value over zero is a signed infinity. -/
def fdiv (a b : Word) : Word :=
  let negative := signBit a != signBit b
  if isNaN a || isNaN b then nanResult .div a b
  else if isInf a then
    if isInf b then nanResult .div a b else pack negative infMag
  else if isInf b then pack negative 0
  else if isZero b then
    if isZero a then nanResult .div a b else pack negative infMag
  else pack negative (roundMag (magUnits (magBits a) * 2 ^ 149) (magUnits (magBits b)))

/-- `floor(x)`: the largest integral binary32 not above `x`, exact; infinities and NaN are kept (R13). A zero keeps its
sign (log 15). -/
def ffloor (x : Word) : Word :=
  if isFinite x then roundInt (units x / 2 ^ 149 * 2 ^ 149) (signBit x) else x

/-- The binary32 nearest to the decimal `digits * 10^-scale`, ties to even (R14). -/
def decimal (negative : Bool) (digits scale : Nat) : Word :=
  pack negative (roundMag (digits * 2 ^ 149) (10 ^ scale))

/-- `sin32(x)` (R16): a free function with P1 (a zero gives itself), P2 (a finite value gives a value in [-1, 1]) and
P3 (an infinity or NaN gives NaN). P4 is a premise for claims (Safety.lean, `SinAccurate`); log 8. -/
def sin32 (x : Word) : Word :=
  if isZero x then x
  else if isFinite x then
    if magBits (Config.sinBits x) ≤ 0x3F800000 then Config.sinBits x else 0x00000000
  else asNaN (Config.sinBits x)

end Sys2Proof.Machine
end

