-- ==== Sys2Proof/Machine/Flags.lean ====
section
/-! DEFINITION. The block has no flags or condition codes (spec 10 R51). What its rules branch on are the comparisons of
00 R12 and the clamp of 00 R15, which are here. -/

namespace Sys2Proof.Machine

/-- The place of a binary32 that is not a NaN in the order of values; `+0` and `-0` share theirs (R12). -/
def orderKey (x : Word) : Int := if signBit x then -(magBits x : Int) else (magBits x : Int)

/-- `a < b` (R12): false when either is a NaN. -/
def flt (a b : Word) : Bool := !isNaN a && !isNaN b && decide (orderKey a < orderKey b)

/-- `a <= b` (R12). -/
def fle (a b : Word) : Bool := !isNaN a && !isNaN b && decide (orderKey a ≤ orderKey b)

/-- `a > b` (R12). -/
def fgt (a b : Word) : Bool := flt b a

/-- `a >= b` (R12). -/
def fge (a b : Word) : Bool := fle b a

/-- `a == b` (R12): `+0 == -0`. -/
def feq (a b : Word) : Bool := !isNaN a && !isNaN b && decide (orderKey a = orderKey b)

/-- `clamp(x, lo, hi)` (R15): no answer for a NaN, which the caller refuses; a zero equal to a bound keeps its sign. -/
def clamp (x lo hi : Word) : Option Word :=
  if isNaN x then none else some (if flt x lo then lo else if fgt x hi then hi else x)

end Sys2Proof.Machine
end

