-- ==== Sys2Proof/Machine/Constants.lean ====
section
/-! DEFINITION. The binary32 constants the block is built with (spec 10 R49), by pattern. -/

namespace Sys2Proof.Machine

/-- `+0`. -/
def plusZero : Word := 0x00000000

/-- `-0`. -/
def minusZero : Word := 0x80000000

/-- `+inf`. -/
def plusInf : Word := 0x7F800000

/-- `0.5`. -/
def half : Word := 0x3F000000

/-- `1.0`. -/
def one : Word := 0x3F800000

/-- `2.0`. -/
def two : Word := 0x40000000

/-- `4.0`. -/
def four : Word := 0x40800000

/-- `K_SMOOTH`: 0.001. -/
def kSmooth : Word := 0x3A83126F

/-- `TAU32`: the binary32 nearest 2π. -/
def tau32 : Word := 0x40C90FDB

/-- `K_SINE`: 1.0. -/
def kSine : Word := 0x3F800000

/-- `K_SQ_HI`: 1.0 * 0.7071. -/
def kSqHi : Word := 0x3F350481

/-- `K_SQ_LO`: -0.1 * 0.7071. -/
def kSqLo : Word := 0xBD90D067

/-- `K_TRI`: 1.2247. -/
def kTri : Word := 0x3F9CC2F8

/-- `K_SAW`: 1.2247. -/
def kSaw : Word := 0x3F9CC2F8

/-- `SQ_THRESHOLD`: 0.5. -/
def sqThreshold : Word := 0x3F000000

/-- `F_MIN`: 20 Hz. -/
def fMin : Word := 0x41A00000

/-- `F_MAX`: 20000 Hz. -/
def fMax : Word := 0x469C4000

/-- `G_MIN`: 0. -/
def gMin : Word := 0x00000000

/-- `G_MAX`: 1. -/
def gMax : Word := 0x3F800000

/-- `F_RESET`: 440 Hz. -/
def fReset : Word := 0x43DC0000

/-- The depth of both routes: 1.0. -/
def routeDepth : Word := 0x3F800000

end Sys2Proof.Machine
end

