-- ==== Sys2Proof/Machine/State.lean ====
section
/-! DEFINITION. The state: the fields S1 to S19 of spec 10 R30, what the host hands to the block (command words, output
buffers, the memory that holds them), and the bookkeeping of 10 R54; the outcomes of a step (60 R260, R261). -/

namespace Sys2Proof.Machine

/-- EnvelopeStage (10 R37), coded 0 to 4 in this order (10 R50). -/
inductive Stage where
  | idle
  | attack
  | decay
  | sustain
  | release
  deriving DecidableEq, Repr

/-- Waveform (10 R44), coded 0 to 3 in this order (10 R50). -/
inductive Waveform where
  | sine
  | square
  | triangle
  | saw
  deriving DecidableEq, Repr

/-- ModulationSource (10 R50). -/
inductive ModSource where
  | lfo1
  | env1
  deriving DecidableEq, Repr

/-- ParameterId (10 R34, R50). -/
inductive ParamId where
  | frequency
  | gain
  deriving DecidableEq, Repr

/-- A modulation route (10 R47). -/
structure Route where
  source : ModSource
  destination : ParamId
  depth : Word
  deriving DecidableEq, Repr

/-- A SmoothedParameter (10 R33): S3 to S5 for Frequency, S6 to S8 for Gain. -/
structure Smoothed where
  current : Word
  target : Word
  modulation : Word
  deriving DecidableEq, Repr

/-- The envelope generator, S9 to S14 (10 R37 to R42). -/
structure Envelope where
  stage : Stage
  value : Word
  attack : Word
  decay : Word
  sustain : Word
  release : Word
  deriving DecidableEq, Repr

/-- The audio oscillator, S15 and S16 (10 R43, R44). -/
structure Oscillator where
  phase : Word
  waveform : Waveform
  deriving DecidableEq, Repr

/-- The low-frequency oscillator, S17 and S18 (10 R45, R46). -/
structure Lfo where
  phase : Word
  freq : Word
  deriving DecidableEq, Repr

/-- The fields S2 to S19 that a Live block holds (10 R31). -/
structure Voice where
  sampleRate : Word
  freq : Smoothed
  gain : Smoothed
  env : Envelope
  osc : Oscillator
  lfo : Lfo
  routes : List Route
  deriving DecidableEq, Repr

/-- Lifecycle, S1 (10 R31, R50). Unconstructed, the block holds no other field's value, and a model must not give it one
(10 R31, R55); Live, it holds them all. -/
inductive Lifecycle where
  | unconstructed
  | live (v : Voice)
  deriving DecidableEq, Repr

/-- The output buffer the host hands over for one render: its byte base and its number of valid slots (20 R71, R76). -/
structure Buffer where
  base : Nat
  len : Nat
  deriving DecidableEq, Repr

/-- One write of the output history: render, slot, binary32 pattern (10 R54, 70 R306). -/
structure OutWrite where
  render : Nat
  slot : Nat
  pattern : Word
  deriving DecidableEq, Repr

/-- Where a NaN met a clamp or floor (60 R261). -/
inductive Site where
  | freqClamp
  | gainClamp
  | attack
  | decay
  | sustain
  | release
  deriving DecidableEq, Repr

/-- The refusal reasons (60 R262), a closed list with the codes 1 to 7 in this order. -/
inductive Reason where
  | reservedOpcode
  | reservedBits
  | truncated
  | notLive
  | badSampleRate
  | bufferShort
  | nanAtClamp
  deriving DecidableEq, Repr

/-- What a refusal records (60 R261): the reason, the index of the command in the stream, the frame index for a refusal
inside a render, and the site for a NaN. -/
structure RefusalRecord where
  reason : Reason
  command : Nat
  frame : Option Nat
  site : Option Site
  deriving DecidableEq, Repr

/-- The host's memory as the output buffers see it: bytes by address, addresses strictly rising. An address that is not
listed holds a byte the model does not know (log 5). -/
abbrev Memory := List Host.Cell

/-- The canonical form of a memory: addresses strictly rising. No entry can equal what an unlisted address reads as,
since that is no value at all. -/
def Memory.wf : Memory → Bool
  | [] => true
  | [_] => true
  | c :: d :: m => decide (c.1 < d.1) && Memory.wf (d :: m)

/-- The machine's state. -/
structure State where
  /-- S1, and with it S2 to S19 while Live. -/
  lc : Lifecycle
  /-- The command port (20 R70, 30 R100): the words still to come, the next one first. -/
  port : List Word
  /-- The buffers the host offers to the next renders, in order (20 R71). -/
  buffers : List Buffer
  /-- The memory that holds the buffers (20 R72). -/
  mem : Memory
  /-- The index in the stream of the next command, 0 first (60 R261). -/
  commandIndex : Nat
  /-- The index of the next render, 0 first (70 R306). -/
  renderIndex : Nat
  /-- The output history, oldest write first (10 R54). -/
  history : List OutWrite
  /-- The sticky refused mark with its record (10 R54, 60 R261). -/
  refusal : Option RefusalRecord
  /-- The model's own: how many NaN samples were drawn (92 D24, log 7). -/
  nanDraws : Nat
  deriving DecidableEq, Repr

/-- There is no fault outcome: nothing the block does is a trap (60 R260). -/
inductive Fault where
  deriving DecidableEq, Repr

/-- The refusals as the step answers them: one constructor for each reason of the closed list of 60 R262, which is the type
`Reason`, and notModelled. DESIGN CHOICE: R262 says exactly the seven; the eighth is asked by the host's fixed interface, not by
the spec, and no step answers it (log 20). Each of the seven carries the state as it stood when the run ended, its `refusal` mark
set (60 R261). All are safe: they remove a run the hardware might have and add none. -/
inductive Refusal where
  /-- The host's, for an arm of exec with no meaning; raised by none here (log 20). Safe. -/
  | notModelled (mnemonic : String)
  /-- Raised by the decoder: the opcode is 0x00 or 0x0B to 0xFF (30 R106). Safe. -/
  | reservedOpcode (final : State)
  /-- Raised by the decoder: an assigned opcode with RSV not zero (30 R107). Safe. -/
  | reservedBits (final : State)
  /-- Raised by the decoder: the stream ends inside a command's operand words (30 R108). Safe. -/
  | truncated (final : State)
  /-- Raised by every command but create while Unconstructed (46 R240, 60 R263). Safe. -/
  | notLive (final : State)
  /-- Raised by create: the operand is no positive finite binary32 (46 R230). Safe. -/
  | badSampleRate (final : State)
  /-- Raised by render: fewer than frame_count valid slots, or a misaligned base (46 R231, 20 R74, R76). Safe. -/
  | bufferShort (final : State)
  /-- Raised by render at the frequency or gain clamp and by set_adsr: the value is a NaN (00 R15, 41 R150). Safe. -/
  | nanAtClamp (final : State)
  deriving DecidableEq, Repr

/-- Power-on (10 R55, 70 R290, R306): Unconstructed, no field holding a value, no refusal recorded, nothing written;
the host has sent no word and offered no buffer (log 2, log 3, log 4). -/
def State.reset : State where
  lc := .unconstructed
  port := []
  buffers := []
  mem := []
  commandIndex := 0
  renderIndex := 0
  history := []
  refusal := none
  nanDraws := 0

end Sys2Proof.Machine
end

