-- ==== Sys2Proof/Machine/Operands.lean ====
section
/-! DEFINITION. The operand forms (spec 30 R104): a binary32 operand is its word taken as written, a u32 operand its
unsigned number; the waveform ids (46 R237), the enumeration codes (10 R50), and the check of set_adsr's operands
(46 R236). -/

namespace Sys2Proof.Machine

/-- A binary32 operand: `v = float(word)`, with no conversion, rounding or check (30 R104). -/
def floatOperand (w : Word) : Word := w

/-- A u32 operand: `n = word[31:0]` (30 R104). -/
def u32Operand (w : Word) : Nat := w.toNat

/-- 46 R237: ids 0 to 3 in the codes of 10 R50; every other id selects Sine. -/
def waveformOfId (n : Nat) : Waveform :=
  if n = 0 then .sine
  else if n = 1 then .square
  else if n = 2 then .triangle
  else if n = 3 then .saw
  else .sine

/-- The codes of Waveform (10 R50). -/
def Waveform.code : Waveform → Nat
  | .sine => 0
  | .square => 1
  | .triangle => 2
  | .saw => 3

/-- The codes of EnvelopeStage (10 R50). -/
def Stage.code : Stage → Nat
  | .idle => 0
  | .attack => 1
  | .decay => 2
  | .sustain => 3
  | .release => 4

/-- The codes of ModulationSource (10 R50). -/
def ModSource.code : ModSource → Nat
  | .lfo1 => 0
  | .env1 => 1

/-- The codes of ParameterId (10 R50). -/
def ParamId.code : ParamId → Nat
  | .frequency => 0
  | .gain => 1

/-- The codes of Lifecycle (10 R50). -/
def Lifecycle.code : Lifecycle → Nat
  | .unconstructed => 0
  | .live _ => 1

/-- The codes of the refusal reasons (60 R262). -/
def Reason.code : Reason → Nat
  | .reservedOpcode => 1
  | .reservedBits => 2
  | .truncated => 3
  | .notLive => 4
  | .badSampleRate => 5
  | .bufferShort => 6
  | .nanAtClamp => 7

/-- 46 R230: create accepts a positive finite sample rate, and refuses NaN, both zeros, negatives and infinities. -/
def validSampleRate (sr : Word) : Bool := fgt sr plusZero && !feq sr plusInf

/-- The first NaN among set_adsr's operands, in the order attack, decay, sustain, release (46 R236, 60 R264). -/
def firstNaN (a d s r : Word) : Option Site :=
  if isNaN a then some .attack
  else if isNaN d then some .decay
  else if isNaN s then some .sustain
  else if isNaN r then some .release
  else none

end Sys2Proof.Machine
end

