-- ==== Sys2Proof/Machine/Ops.lean ====
section
/-! DEFINITION. The named operations over the state: the host's memory, the output write, the buffers, the refusal (the
block has no exception to take: spec 60 R260, R268; the refusal of 60 R261 is its one stop), the lifecycle check of
46 R240, and the end of a command. -/

namespace Sys2Proof.Machine

/-! ## Memory (20 R72, R75) -/

/-- The byte at an address, if it is known (log 5). -/
def readByte : Memory → Nat → Option Byte
  | [], _ => none
  | c :: m, a => if c.1 = a then some c.2 else readByte m a

/-- Stores a byte, keeping the addresses strictly rising. -/
def writeByte : Memory → Nat → Byte → Memory
  | [], a, b => [(a, b)]
  | c :: m, a, b =>
    if a < c.1 then (a, b) :: c :: m
    else if a = c.1 then (a, b) :: m
    else c :: writeByte m a b

/-- Byte `k` of a word, byte 0 holding bits 7:0 (20 R72). -/
def wordByte (w : Word) (k : Nat) : Byte := BitVec.ofNat 8 (w.toNat / 2 ^ (8 * k))

/-- Stores a word at a byte address, low byte first (20 R72, 92 D21). -/
def writeWord (m : Memory) (a : Nat) (w : Word) : Memory :=
  writeByte (writeByte (writeByte (writeByte m a (wordByte w 0)) (a + 1) (wordByte w 1)) (a + 2) (wordByte w 2))
    (a + 3) (wordByte w 3)

/-- The word a byte-level host reads back at an address: its four bytes, low byte first, when all are known. -/
def readWord (m : Memory) (a : Nat) : Option Word :=
  match readByte m a, readByte m (a + 1), readByte m (a + 2), readByte m (a + 3) with
  | some b0, some b1, some b2, some b3 =>
    some (BitVec.ofNat 32 (b0.toNat + 2 ^ 8 * b1.toNat + 2 ^ 16 * b2.toNat + 2 ^ 24 * b3.toNat))
  | _, _, _, _ => none

/-- The byte address of slot `i` of a buffer (20 R72). -/
def slotAddress (base i : Nat) : Nat := base + 4 * i

/-! ## The refusal (60 R261) -/

/-- The refusal of a reason, with the state as it stood. -/
def refusalOf (r : Reason) (final : State) : Refusal :=
  match r with
  | .reservedOpcode => .reservedOpcode final
  | .reservedBits => .reservedBits final
  | .truncated => .truncated final
  | .notLive => .notLive final
  | .badSampleRate => .badSampleRate final
  | .bufferShort => .bufferShort final
  | .nanAtClamp => .nanAtClamp final

/-- The state with the sticky mark set and the refusal recorded (60 R261). -/
def State.marked (s : State) (r : Reason) (frame : Option Nat) (site : Option Site) : State :=
  { s with refusal := some { reason := r, command := s.commandIndex, frame := frame, site := site } }

/-- `refuse <reason>` (60 R261): the run ends; the fields keep the values they had. -/
def State.refuse (s : State) (r : Reason) (frame : Option Nat) (site : Option Site) :
    Host.Outcome State Fault Refusal :=
  .refused (refusalOf r (s.marked r frame site))

/-- The reason of a decoder's refusal (30 R106, R107, R108). -/
def reasonOf : DecodeError → Reason
  | .reservedOpcode => .reservedOpcode
  | .reservedBits => .reservedBits
  | .truncated => .truncated

/-! ## Commands (46 R240) -/

/-- The fields of a Live block, or the refusal `not_live` (46 R240, 60 R263). -/
def State.whenLive (s : State) (f : Voice → Host.Outcome State Fault Refusal) : Host.Outcome State Fault Refusal :=
  match s.lc with
  | .live v => f v
  | .unconstructed => s.refuse .notLive none none

/-- The state with the Live fields replaced. -/
def State.withVoice (s : State) (v : Voice) : State := { s with lc := .live v }

/-- A command that only writes fields of a Live block. -/
def State.update (s : State) (f : Voice → Voice) : Host.Outcome State Fault Refusal :=
  s.whenLive fun v => .next (s.withVoice (f v))

/-- The end of a command: its words are consumed and the next command has the next index (30 R100, 60 R261). -/
def State.retire (s : State) (rest : List Word) : State :=
  { s with port := rest, commandIndex := s.commandIndex + 1 }

/-- What the decoder reads at the command port (30 R111). -/
def State.fetch (s : State) : Decoded := decode s.port

/-- The state with the words of one table row at the front of the command port, and nothing else changed. -/
def State.withCommandBits (s : State) (nbits w : Nat) : State :=
  { s with port := tableWords nbits w ++ s.port }

/-! ## The output buffer (20 R71 to R76) -/

/-- The buffer of the next render. Where the host offers none there is no valid slot (log 4). -/
def State.buffer (s : State) : Buffer := s.buffers.headD { base := 0, len := 0 }

/-- 46 R231, 20 R74, R76: the buffer has enough valid slots for `n` frames and an aligned base. -/
def bufferFits (b : Buffer) (n : Nat) : Bool := decide (n ≤ b.len) && b.base % 4 == 0

/-- `OutWrite(i, v)` (00 R17): the sample goes to slot `i` and into the history. A NaN sample is written with a drawn
NaN pattern (92 D24, log 7). -/
def State.outWrite (s : State) (base i : Nat) (y : Word) : State :=
  let pattern := if isNaN y then drawNaN s.nanDraws else y
  { s with
    mem := writeWord s.mem (slotAddress base i) pattern
    history := s.history ++ [{ render := s.renderIndex, slot := i, pattern := pattern }]
    nanDraws := if isNaN y then s.nanDraws + 1 else s.nanDraws }

/-- The end of a render: the block keeps no buffer (20 R71) and the next render has the next index. -/
def State.endRender (s : State) : State :=
  { s with buffers := s.buffers.tail, renderIndex := s.renderIndex + 1 }

end Sys2Proof.Machine
end

