-- ==== Sys2Proof/Machine/Envelope.lean ====
section
/-! DEFINITION. The ADSR envelope (spec 41), its stored shape and its OPEN values (00 R8, 10 R56). -/

namespace Sys2Proof.Machine

/-- `ADSR_MIN_TIME`: any positive finite binary32 (00 R8, log 9). -/
def adsrMinTime : Word := BitVec.ofNat 32 (Config.adsrMinTimeIndex.val + 1)

/-- `floor_time(x)` (41 R150): no answer for a NaN, which the caller refuses. -/
def floorTime (x : Word) : Option Word :=
  if isNaN x then none else if fgt x adsrMinTime then some x else some adsrMinTime

/-- Sustain storage (41 R151). -/
def clampSustain (x : Word) : Option Word := clamp x plusZero one

/-- An OPEN reset time: any binary32 at or above `ADSR_MIN_TIME` (00 R8, 10 R56). -/
def openTime (raw : Word) : Word := (floorTime raw).getD adsrMinTime

/-- `ATTACK_RESET`. -/
def attackReset : Word := openTime Config.attackResetBits

/-- `DECAY_RESET`. -/
def decayReset : Word := openTime Config.decayResetBits

/-- `RELEASE_RESET`. -/
def releaseReset : Word := openTime Config.releaseResetBits

/-- `SUSTAIN_RESET`: any binary32 in [0, 1]. -/
def sustainReset : Word := (clampSustain Config.sustainResetBits).getD plusZero

/-- Idle (41 R141). -/
def advanceIdle (e : Envelope) : Envelope := { e with value := plusZero }

/-- Attack (41 R142). -/
def advanceAttack (sr : Word) (e : Envelope) : Envelope :=
  let inc := fdiv one (fmul e.attack sr)
  let value := fadd e.value inc
  if fge value one then { e with value := one, stage := .decay } else { e with value := value }

/-- Decay (41 R143). -/
def advanceDecay (sr : Word) (e : Envelope) : Envelope :=
  let dec := fdiv (fsub one e.sustain) (fmul e.decay sr)
  let value := fsub e.value dec
  if fle value e.sustain then { e with value := e.sustain, stage := .sustain } else { e with value := value }

/-- Sustain (41 R144). -/
def advanceSustain (e : Envelope) : Envelope := { e with value := e.sustain }

/-- Release (41 R145). -/
def advanceRelease (sr : Word) (e : Envelope) : Envelope :=
  let dec := fdiv e.sustain (fmul e.release sr)
  let value := fsub e.value dec
  if fle value plusZero then { e with value := plusZero, stage := .idle } else { e with value := value }

/-- `env_advance()` (41 R140): exactly one stage rule runs. It returns the value after the update, which is
`(envAdvance sr e).value`. -/
def envAdvance (sr : Word) (e : Envelope) : Envelope :=
  match e.stage with
  | .idle => advanceIdle e
  | .attack => advanceAttack sr e
  | .decay => advanceDecay sr e
  | .sustain => advanceSustain e
  | .release => advanceRelease sr e

/-- The `note_on()` event (41 R148): the value is kept. -/
def noteOnEvent (e : Envelope) : Envelope := { e with stage := .attack }

/-- The `note_off()` event (41 R149): the value is kept. -/
def noteOffEvent (e : Envelope) : Envelope := { e with stage := .release }

/-- The envelope with a new shape, floored and clamped (46 R236); no answer when an operand is a NaN. -/
def storeShape (e : Envelope) (a d s r : Word) : Option Envelope :=
  match floorTime a, floorTime d, clampSustain s, floorTime r with
  | some attack, some decay, some sustain, some release =>
    some { e with attack := attack, decay := decay, sustain := sustain, release := release }
  | _, _, _, _ => none

end Sys2Proof.Machine
end

