-- ==== Sys2Proof/Machine/Oscillator.lean ====
section
/-! DEFINITION. The phase-accumulator oscillator (spec 42): the four waveforms, the wrap in its two modes, the advance. -/

namespace Sys2Proof.Machine

/-- Sine of a phase in cycles (42 R171, 43 R190). DEDUCED: where `phase * TAU32` overflows (a finite phase of about 5.4e37
or more) this is a NaN by R190's pseudocode, 00 R11 and P3, although 43 R191 says [-1, 1] for every finite phase (log 19). -/
def sineWave (phase : Word) : Word := fmul (sin32 (fmul phase tau32)) kSine

/-- Square (42 R172): half duty, asymmetric levels; a NaN phase gives the low level. -/
def squareWave (phase : Word) : Word := if flt phase sqThreshold then kSqHi else kSqLo

/-- Triangle (42 R173): `(1.0 - 4.0 * abs(phase - 0.5)) * K_TRI`. -/
def triangleWave (phase : Word) : Word := fmul (fsub one (fmul four (fabs (fsub phase half)))) kTri

/-- Saw (42 R174): `(2.0 * phase - 1.0) * K_SAW`. -/
def sawWave (phase : Word) : Word := fmul (fsub (fmul two phase) one) kSaw

/-- `osc_sample()` (42 R170). -/
def oscSample (o : Oscillator) : Word :=
  match o.waveform with
  | .sine => sineWave o.phase
  | .square => squareWave o.phase
  | .triangle => triangleWave o.phase
  | .saw => sawWave o.phase

/-- `wrap(p)` with `WRAP_MODE = reduce` (42 R177). -/
def wrapReduce (p : Word) : Word :=
  if fge p one || flt p plusZero then
    let r := fsub p (ffloor p)
    if fge r one then plusZero else r
  else p

/-- `wrap(p)` with `WRAP_MODE = subtract_once` (42 R177). -/
def wrapOnce (p : Word) : Word := if fge p one then fsub p one else p

/-- `wrap(p)` in a mode (42 R177). -/
def wrapIn (mode : WrapMode) (p : Word) : Word :=
  match mode with
  | .reduce => wrapReduce p
  | .subtractOnce => wrapOnce p

/-- A sum on which the two modes agree (42 R177 (a), (b), (e)): in [0, 2), or NaN. -/
def modeFree (p : Word) : Bool := !(flt p plusZero) && !(fge p two)

/-- `wrap(p)` in the configured mode (42 R177). The mode is read only where it matters; `wrap_eq_wrapIn` (Laws) shows
that this is `wrapIn Config.wrapMode p` for every `p`. -/
def wrap (p : Word) : Word := if modeFree p then wrapOnce p else wrapIn Config.wrapMode p

/-- A phase moved by `freq / sample_rate` and wrapped: division first, then addition (42 R176). -/
def advancePhase (phase freq sr : Word) : Word := wrap (fadd phase (fdiv freq sr))

/-- `osc_advance(freq)` (42 R176): the sample at the phase before the increment, and the oscillator after it. -/
def oscAdvance (sr : Word) (o : Oscillator) (freq : Word) : Word × Oscillator :=
  (oscSample o, { o with phase := advancePhase o.phase freq sr })

end Sys2Proof.Machine
end

