-- ==== Sys2Proof/Machine/LowFrequency.lean ====
section
/-! DEFINITION. The low-frequency oscillator (spec 43). -/

namespace Sys2Proof.Machine

/-- `lfo_advance()` (43 R190): the value at the phase before the increment, and the LFO after it. -/
def lfoAdvance (sr : Word) (l : Lfo) : Word × Lfo :=
  (sineWave l.phase, { l with phase := advancePhase l.phase l.freq sr })

end Sys2Proof.Machine
end

