-- ==== Sys2Proof/Machine/Router.lean ====
section
/-! DEFINITION. The modulation router (spec 44) and its fixed table (10 R47). -/

namespace Sys2Proof.Machine

/-- The route table (10 R47): LFO1 to Frequency, Env1 to Gain, both with depth 1.0. -/
def routeTable : List Route :=
  [{ source := .lfo1, destination := .frequency, depth := routeDepth },
   { source := .env1, destination := .gain, depth := routeDepth }]

/-- A source's value scaled by a route's depth and summed into a modulation accumulator (44 R200). -/
def modulate (p : Smoothed) (source depth : Word) : Smoothed :=
  { p with modulation := fadd p.modulation (fmul source depth) }

/-- One route (44 R200). -/
def applyRoute (lfoValue envValue : Word) (v : Voice) (r : Route) : Voice :=
  let source := match r.source with
    | .lfo1 => lfoValue
    | .env1 => envValue
  match r.destination with
  | .frequency => { v with freq := modulate v.freq source r.depth }
  | .gain => { v with gain := modulate v.gain source r.depth }

/-- `route(lfo_value, env_value)` (44 R200): every route once, in table order. -/
def route (lfoValue envValue : Word) (v : Voice) : Voice :=
  v.routes.foldl (applyRoute lfoValue envValue) v

end Sys2Proof.Machine
end

