-- ==== Sys2Proof/Machine/Smoother.lean ====
section
/-! DEFINITION. The parameter smoother (spec 40). -/

namespace Sys2Proof.Machine

/-- `smooth(p, c)` (40 R130). -/
def smooth (p : Smoothed) (c : Word) : Smoothed :=
  let d := fsub p.target p.current
  { p with current := fadd p.current (fmul d c), modulation := plusZero }

/-- `set_target(p, v)` (40 R131). No command invokes it. -/
def setTarget (p : Smoothed) (v : Word) : Smoothed := { p with target := v }

/-- `set_absolute(p, v)` (40 R132): the modulation is not written. -/
def setAbsolute (p : Smoothed) (v : Word) : Smoothed := { p with current := v, target := v }

end Sys2Proof.Machine
end

