-- ==== Sys2Proof/Machine/Render.lean ====
section
/-! DEFINITION. The render pipeline (spec 45): the sample step and the render loop. -/

namespace Sys2Proof.Machine

/-- Step 1 of the sample step (45 R210): both parameters are smoothed, frequency then gain. -/
def smoothAll (v : Voice) : Voice := { v with freq := smooth v.freq kSmooth, gain := smooth v.gain kSmooth }

/-- Steps 1 to 3 of the sample step (45 R210): smooth, advance the LFO and the envelope, route. -/
def controlSteps (v : Voice) : Voice :=
  let v1 := smoothAll v
  let lfo := lfoAdvance v1.sampleRate v1.lfo
  let env := envAdvance v1.sampleRate v1.env
  route lfo.1 env.value { v1 with lfo := lfo.2, env := env }

/-- Step 4 (45 R211): the effective frequency; no answer when the sum is a NaN. -/
def effectiveFrequency (v : Voice) : Option Word := clamp (fadd v.freq.current v.freq.modulation) fMin fMax

/-- Step 5 (45 R212): the effective gain; no answer when the product is a NaN. -/
def effectiveGain (v : Voice) : Option Word := clamp (fmul v.gain.current v.gain.modulation) gMin gMax

/-- What a sample step gives: the fields after it and the output sample, or the clamp that met a NaN and the fields
after steps 1 to 3. -/
inductive SampleResult where
  | sample (v : Voice) (y : Word)
  | nanAt (site : Site) (v : Voice)
  deriving DecidableEq, Repr

/-- `sample_step` (45 R210) up to its slot write: steps 4 and 5 may refuse, the frequency clamp first (60 R264); step 6
advances the oscillator and multiplies its sample by the effective gain (45 R213). -/
def sampleStep (v : Voice) : SampleResult :=
  let v3 := controlSteps v
  match effectiveFrequency v3 with
  | none => .nanAt .freqClamp v3
  | some fEff =>
    match effectiveGain v3 with
    | none => .nanAt .gainClamp v3
    | some gEff =>
      let osc := oscAdvance v3.sampleRate v3.osc fEff
      .sample { v3 with osc := osc.2 } (fmul osc.1 gEff)

/-- `render_loop` (45 R214) from frame `i` on: `n` frames are left, `v` holds the Live fields, and `s` takes the slot
writes. A NaN at a clamp ends the loop and the command. -/
def renderLoop (base : Nat) : Nat → Nat → Voice → State → Host.Outcome State Fault Refusal
  | 0, _, v, s => .next (s.withVoice v)
  | n + 1, i, v, s =>
    match sampleStep v with
    | .sample v' y => renderLoop base n (i + 1) v' (s.outWrite base i y)
    | .nanAt site v' => (s.withVoice v').refuse .nanAtClamp (some i) (some site)

end Sys2Proof.Machine
end

