-- ==== Sys2Proof/Machine/Commands.lean ====
section
/-! DEFINITION. The meanings of the ten host commands (spec 46), one definition each. The end of a command (its words
consumed, the command index advanced) is the step's (Machine/Step.lean). -/

namespace Sys2Proof.Machine

/-- The Live fields after create with a sample rate (46 R230, 10 R56). -/
def initialVoice (sr : Word) : Voice where
  sampleRate := sr
  freq := { current := fReset, target := fReset, modulation := plusZero }
  gain := { current := plusZero, target := plusZero, modulation := plusZero }
  env := { stage := .idle, value := plusZero, attack := attackReset, decay := decayReset,
           sustain := sustainReset, release := releaseReset }
  osc := { phase := plusZero, waveform := .sine }
  lfo := { phase := plusZero, freq := Config.lfoRateReset }
  routes := routeTable

/-- `create sample_rate` (46 R230): accepted in both lifecycle states; the refused mark is not cleared. -/
def execCreate (sampleRate : Word) (s : State) : Host.Outcome State Fault Refusal :=
  let sr := floatOperand sampleRate
  if validSampleRate sr then .next { s with lc := .live (initialVoice sr) }
  else s.refuse .badSampleRate none none

/-- `render frame_count` (46 R231): the buffer is checked before any sample step; each render continues from the fields
the last one left. -/
def execRender (frameCount : Word) (s : State) : Host.Outcome State Fault Refusal :=
  s.whenLive fun v =>
    let n := u32Operand frameCount
    if bufferFits s.buffer n then
      match renderLoop s.buffer.base n 0 v s with
      | .next t => .next t.endRender
      | .fault f => .fault f
      | .refused r => .refused r
    else s.refuse .bufferShort none none

/-- `set_gain value` (46 R232): absolute, not clamped, not smoothed. -/
def execSetGain (value : Word) (s : State) : Host.Outcome State Fault Refusal :=
  s.update fun v => { v with gain := setAbsolute v.gain (floatOperand value) }

/-- `set_frequency value` (46 R233): absolute, not clamped, not smoothed. -/
def execSetFrequency (value : Word) (s : State) : Host.Outcome State Fault Refusal :=
  s.update fun v => { v with freq := setAbsolute v.freq (floatOperand value) }

/-- `note_on` (46 R234). -/
def execNoteOn (s : State) : Host.Outcome State Fault Refusal :=
  s.update fun v => { v with env := noteOnEvent v.env }

/-- `note_off` (46 R235). -/
def execNoteOff (s : State) : Host.Outcome State Fault Refusal :=
  s.update fun v => { v with env := noteOffEvent v.env }

/-- `set_adsr attack, decay, sustain, release` (46 R236): a NaN operand refuses before any write. -/
def execSetAdsr (attack decay sustain release : Word) (s : State) : Host.Outcome State Fault Refusal :=
  s.whenLive fun v =>
    match storeShape v.env (floatOperand attack) (floatOperand decay) (floatOperand sustain) (floatOperand release) with
    | some env => .next (s.withVoice { v with env := env })
    | none => s.refuse .nanAtClamp none (firstNaN attack decay sustain release)

/-- `set_waveform id` (46 R237): an unrecognised id selects Sine. -/
def execSetWaveform (id : Word) (s : State) : Host.Outcome State Fault Refusal :=
  s.update fun v => { v with osc := { v.osc with waveform := waveformOfId (u32Operand id) } }

/-- `set_lfo_rate freq` (46 R238): not checked, floored or clamped. -/
def execSetLfoRate (freq : Word) (s : State) : Host.Outcome State Fault Refusal :=
  s.update fun v => { v with lfo := { v.lfo with freq := floatOperand freq } }

/-- `destroy` (46 R239): every field loses its value. -/
def execDestroy (s : State) : Host.Outcome State Fault Refusal :=
  s.whenLive fun _ => .next { s with lc := .unconstructed }

end Sys2Proof.Machine
end

