-- ==== Sys2Proof/Machine/Dispatch.lean ====
section
/-! DEFINITION. exec: one arm per command of 30 R102, each one direct call of its meaning (Machine/Commands.lean). -/

namespace Sys2Proof.Machine

def exec (i : Instr) (s : State) : Host.Outcome State Fault Refusal :=
  match i with
  | .create sampleRate => Sys2Proof.Machine.execCreate sampleRate s
  | .render frameCount => Sys2Proof.Machine.execRender frameCount s
  | .setGain value => Sys2Proof.Machine.execSetGain value s
  | .setFrequency value => Sys2Proof.Machine.execSetFrequency value s
  | .noteOn => Sys2Proof.Machine.execNoteOn s
  | .noteOff => Sys2Proof.Machine.execNoteOff s
  | .setAdsr attack decay sustain release => Sys2Proof.Machine.execSetAdsr attack decay sustain release s
  | .setWaveform id => Sys2Proof.Machine.execSetWaveform id s
  | .setLfoRate freq => Sys2Proof.Machine.execSetLfoRate freq s
  | .destroy => Sys2Proof.Machine.execDestroy s

end Sys2Proof.Machine
end

