-- ==== Sys2Proof/Machine/Step.lean ====
section
/-! DEFINITION. One step: one host command, decoded at the port and executed to its end (spec 46 R240). -/

namespace Sys2Proof.Machine

/-- 46 R240. After a refusal no command is decoded or executed, and the run stays refused (60 R261). With no word left
at the command boundary the run has ended and the block is idle: nothing changes (70 R306, log 3). A command that
answers a next state is complete: its words are consumed and the command index advances. -/
def step (s : State) : Host.Outcome State Fault Refusal :=
  match s.refusal with
  | some r => .refused (refusalOf r.reason s)
  | none =>
    match s.fetch with
    | .done => .next s
    | .refuse e => s.refuse (reasonOf e) none none
    | .command i rest =>
      match exec i s with
      | .next t => .next (t.retire rest)
      | .fault f => .fault f
      | .refused r => .refused r

/-- The state with the words of one table row where the step fetches its next command: at the front of the command
port (log 2). -/
def State.withFetchWord (s : State) (nbits w : Nat) : State := s.withCommandBits nbits w

end Sys2Proof.Machine
end

