-- ==== Sys2Proof/Safety.lean ====
section
/-! DEFINITION. The terms claims are stated in: runs from power-on (spec 70 R306), the invariants of spec 10 R32 to R47, the
premises a claim may name (00 R16 P4, 42 R178), and the bounds of 42 R175. -/

namespace Sys2Proof.Machine

/-! ## Ranges -/

/-- A value in [0, 1]. -/
def inUnit (x : Word) : Bool := fle plusZero x && fle x one

/-- A phase in [0, 1). -/
def inCycle (x : Word) : Bool := fle plusZero x && flt x one

/-- A smoothed parameter whose current value and target agree whenever both are finite (10 R35). -/
def settled (p : Smoothed) : Bool := !(isFinite p.current && isFinite p.target) || feq p.current p.target

/-- The normalization constant of a waveform (42 R175, 45 R215). -/
def waveformBound : Waveform → Word
  | .sine => kSine
  | .square => kSqHi
  | .triangle => kTri
  | .saw => kSaw

/-- Entries the history gained, in order. -/
def historyOf (render : Nat) (samples : List Word) : List OutWrite :=
  samples.mapIdx fun i y => { render := render, slot := i, pattern := y }

/-! ## Invariants -/

/-- What holds of the fields of every Live block a run reaches: the ranges of 10 R32, R38 to R42, the settled parameters
of R35, the Idle value of 41 R141 and the route table of R47. -/
structure VoiceInv (v : Voice) : Prop where
  sampleRate : validSampleRate v.sampleRate = true
  attack : fle adsrMinTime v.env.attack = true
  decay : fle adsrMinTime v.env.decay = true
  release : fle adsrMinTime v.env.release = true
  sustain : inUnit v.env.sustain = true
  value : inUnit v.env.value = true
  idle : v.env.stage = .idle → v.env.value = plusZero
  freq : settled v.freq = true
  gain : settled v.gain = true
  routes : v.routes = routeTable

/-- What holds of every state a run reaches before a refusal: `VoiceInv` while Live, a memory in canonical form (the model's,
log 5), and a history of renders that have ended, in the order of its writes: by render number (the model's, log 13) and,
within a render, by slot (20 R73). -/
structure StateInv (s : State) : Prop where
  voice : ∀ v, s.lc = .live v → VoiceInv v
  memory : s.mem.wf = true
  history : ∀ w ∈ s.history, w.render < s.renderIndex
  ordered : s.history.Pairwise fun w w' => w.render < w'.render ∨ (w.render = w'.render ∧ w.slot < w'.slot)

/-- A phase is in [0, 1) or, after an infinite sum, a NaN (10 R43, R45, 42 R177 (d), R181). -/
def phaseOk (p : Word) : Bool := inCycle p || isNaN p

/-- 10 R43, R45: with `WRAP_MODE = reduce`, both phases of a Live block are as `phaseOk` says. -/
def PhaseInv (s : State) : Prop :=
  Config.wrapMode = .reduce → ∀ v, s.lc = .live v → phaseOk v.osc.phase = true ∧ phaseOk v.lfo.phase = true

/-! ## Premises -/

/-- The increment `f / sr` is in the normal phase domain when `0 <= f < sr` (42 R178). -/
def normalRate (f sr : Word) : Bool := fle plusZero f && flt f sr

/-- A Live block whose next samples cannot refuse: settled finite parameters, the LFO in the normal domain, and decay and
release products that do not underflow to zero (41 R147, 45 R211, R212). -/
structure Renderable (v : Voice) : Prop where
  inv : VoiceInv v
  freqCurrent : isFinite v.freq.current = true
  freqTarget : isFinite v.freq.target = true
  gainCurrent : isFinite v.gain.current = true
  gainTarget : isFinite v.gain.target = true
  lfoPhase : inCycle v.lfo.phase = true
  lfoRate : normalRate v.lfo.freq v.sampleRate = true
  decayProduct : isZero (fmul v.env.decay v.sampleRate) = false
  releaseProduct : isZero (fmul v.env.release v.sampleRate) = false

/-- The real value of a finite binary32. -/
noncomputable def realValue (x : Word) : ℝ := (units x : ℝ) / 2 ^ 149

/-- One unit in the last place of a finite binary32, as a real: the spacing of the binary32 values of its magnitude, 2^-149
for a zero or a subnormal. -/
noncomputable def ulp (x : Word) : ℝ := 2 ^ spacingExp (magUnits (magBits x)) / 2 ^ 149

/-- P4 of 00 R16: `sin32` is within `SIN_ULP` units in the last place of the real sine. DESIGN CHOICE: R16 does not say of
which value the unit is; here it is that of the result `sin32 x`, so 2^-149 where the result is a zero. A claim that needs
P4 names it as a premise (log 8). -/
def SinAccurate : Prop :=
  ∀ x, isFinite x = true → |realValue (sin32 x) - Real.sin (realValue x)| ≤ (Config.sinUlp : ℝ) * ulp (sin32 x)

/-- The premise (S) of spec 95: `sin32` gives the binary32 nearest to the real sine. -/
def SinCorrectlyRounded : Prop :=
  ∀ x w, isFinite x = true → isFinite w = true →
    |realValue (sin32 x) - Real.sin (realValue x)| ≤ |realValue w - Real.sin (realValue x)|

/-! ## Runs (70 R306) -/

/-- Power-on with the words the host sends in the run and the buffers it offers to its renders. -/
def State.powerOn (words : List Word) (buffers : List Buffer) : State :=
  { State.reset with port := words, buffers := buffers }

/-- The run of a command stream completes in state `t`: no word is left and nothing was refused. -/
def Completes (words : List Word) (buffers : List Buffer) (t : State) : Prop :=
  t.port = [] ∧ t.refusal = none ∧ ∃ n, Host.Core.run Sys2Proof.core n (State.powerOn words buffers) = .next t

end Sys2Proof.Machine
end

