-- ==== Sys2Proof/Certificates/Slice0/Obligations.lean ====
section
/-! DEFINITION. The statements for the provers. Each docstring names the rules of spec/ it rests on. -/

open Sys2Proof Sys2Proof.Machine

/-! ## Encoding and decoding (spec 30) -/

/-- 30 R100 to R105, R111: the words of a command, followed by any words, decode to that command and leave those words;
a stream of encoded commands parses back to those commands, and a stream that parses is exactly the words of the
commands it parses to. -/
def Obligations.CommandStreamsParseUniquely : Prop :=
  (∀ (i : Instr) (rest : List Word), decode (encode i ++ rest) = .command i rest) ∧
    (∀ is : List Instr, decodeAll is.length (encodeAll is) = some is) ∧
    ∀ (n : Nat) (ws : List Word) (is : List Instr), decodeAll n ws = some is → ws = encodeAll is

/-- 30 R105 to R108, R111: the decoder reads a command exactly from the words that begin with an assigned opcode, zero
reserved bits and all operand words; the words it leaves are those after the command's own. -/
def Obligations.DecoderAcceptsExactlyWellFormedWords : Prop :=
  ∀ (w : Word) (ws : List Word),
    (wordsWellFormed (w :: ws) = true ↔ ∃ i rest, decode (w :: ws) = .command i rest) ∧
      ∀ i rest, decode (w :: ws) = .command i rest → rest = (w :: ws).drop (wordCount w)

/-- 30 R114: encoding examples of the spec, one for each format and each command. -/
def Obligations.SpecExampleWordsDecode : Prop :=
  decode [0x00000001, 0x473B8000] = .command (.create 0x473B8000) [] ∧
  decode [0x00000002, 0x0000BB80] = .command (.render 48000) [] ∧
  decode [0x00000003, 0x3F800000] = .command (.setGain 0x3F800000) [] ∧
  decode [0x00000004, 0x43DC0000] = .command (.setFrequency 0x43DC0000) [] ∧
  decode [0x00000005] = .command .noteOn [] ∧
  decode [0x00000006] = .command .noteOff [] ∧
  decode [0x00000007, 0x3D800000, 0x3D800000, 0x3F000000, 0x3D800000] =
    .command (.setAdsr 0x3D800000 0x3D800000 0x3F000000 0x3D800000) [] ∧
  decode [0x00000008, 0x00000001] = .command (.setWaveform 1) [] ∧
  decode [0x00000009, 0x00000000] = .command (.setLfoRate 0) [] ∧
  decode [0x0000000A] = .command .destroy [] ∧
  decode [0x0000000B] = .refuse .reservedOpcode ∧
  decode [0x00000105] = .refuse .reservedBits

/-- 30 R106: a command word with an unassigned opcode is refused, whatever its RSV bits, and the state is left as it was
but for the mark. -/
def Obligations.ReservedOpcodeIsRefused : Prop :=
  ∀ (s : State) (w : Word) (ws : List Word), s.refusal = none → s.port = w :: ws →
    (w.extractLsb' 0 8 = 0 ∨ 0x0B ≤ w.extractLsb' 0 8) →
    step s = .refused (.reservedOpcode (s.marked .reservedOpcode none none))

/-- 30 R107: an assigned opcode with nonzero RSV bits is refused for them; an unassigned one with nonzero RSV bits is
refused as reserved. -/
def Obligations.ReservedBitsAreRefused : Prop :=
  ∀ (s : State) (w : Word) (ws : List Word), s.refusal = none → s.port = w :: ws → w.extractLsb' 8 24 ≠ 0 →
    (0x01 ≤ w.extractLsb' 0 8 ∧ w.extractLsb' 0 8 ≤ 0x0A →
      step s = .refused (.reservedBits (s.marked .reservedBits none none))) ∧
    (w.extractLsb' 0 8 = 0 ∨ 0x0B ≤ w.extractLsb' 0 8 →
      step s = .refused (.reservedOpcode (s.marked .reservedOpcode none none)))

/-- 30 R108: a command whose operand words do not all arrive is refused; 60 R264: before any check of the lifecycle. -/
def Obligations.TruncatedCommandIsRefused : Prop :=
  ∀ (s : State) (i : Instr) (k : Nat), s.refusal = none → 0 < k → k < (encode i).length →
    s.port = (encode i).take k →
    step s = .refused (.truncated (s.marked .truncated none none))

/-! ## The step (spec 46 R240, 60, 70) -/

/-- 46 R240, 30 R100: where the words at the port decode to a command, the step is exec of it; a next state then has
those words consumed and the command index advanced, and a refusal is exec's. -/
def Obligations.StepRunsDecodedCommand : Prop :=
  ∀ (s : State) (i : Instr) (rest : List Word), s.refusal = none → decode s.port = .command i rest →
    (∀ t, exec i s = .next t → step s = .next { t with port := rest, commandIndex := t.commandIndex + 1 }) ∧
    (∀ r, exec i s = .refused r → step s = .refused r)

/-- 70 R306 and log 3 (the model's choice that the idle block stutters): with no word left at the command boundary a step
changes nothing; 60 R261: a state that carries the refused mark takes no step. -/
def Obligations.EndedRunsTakeNoStep : Prop :=
  (∀ s : State, s.refusal = none → s.port = [] → step s = .next s) ∧
    ∀ (s t : State), s.refusal ≠ none → step s ≠ .next t

/-- 60 R261, R262: the mark is set by a refusal and by nothing else; no command that answers a next state sets or clears it,
and each completed command advances the command index by one. Every refusal a step answers is one of the seven reasons of
R262, never the host's eighth constructor, and carries a state marked with that reason and the command's index; a state that
was marked before is reported as it stands (log 11). -/
def Obligations.OnlyRefusalsSetTheMark : Prop :=
  (∀ (i : Instr) (s t : State), exec i s = .next t → t.refusal = s.refusal ∧ t.commandIndex = s.commandIndex) ∧
    (∀ (s t : State), step s = .next t → t.refusal = none ∧
      (t.commandIndex = s.commandIndex + 1 ∨ (s.port = [] ∧ t = s))) ∧
    ∀ (s : State) (r : Refusal), step s = .refused r →
      ∃ (f : State) (record : RefusalRecord), r = refusalOf record.reason f ∧ f.refusal = some record ∧
        (s.refusal = none → record.command = s.commandIndex) ∧ (s.refusal ≠ none → f = s)

/-- 60 R263, 46 R240: while Unconstructed, a step whose words decode to any command but create is refused not_live. -/
def Obligations.NotLiveCommandsAreRefused : Prop :=
  ∀ (s : State) (i : Instr) (rest : List Word), s.refusal = none → s.lc = .unconstructed →
    decode s.port = .command i rest → (∀ sr, i ≠ .create sr) →
    step s = .refused (.notLive (s.marked .notLive none none))

/-- 10 R31: a command that answers a next state leaves the block Unconstructed exactly when it is destroy. -/
def Obligations.OnlyDestroyUnconstructs : Prop :=
  ∀ (i : Instr) (s t : State), exec i s = .next t → (t.lc = .unconstructed ↔ i = .destroy)

/-! ## create and destroy (spec 46 R230, R239, 10 R56, 70 R291) -/

/-- 46 R230, 10 R56: create with a positive finite rate, in either lifecycle state, gives every field its value; the OPEN
reset values lie in their admissible ranges, ADSR_MIN_TIME among the positive finite values. The phases, the envelope's value
and the accumulators at +0 are the spec's decision 92 D15 (log 14). -/
def Obligations.CreateGivesEveryFieldItsResetValue : Prop :=
  (∀ (s : State) (sr : Word), 0x00000001 ≤ sr → sr ≤ 0x7F7FFFFF →
    exec (.create sr) s = .next { s with
      lc := .live {
        sampleRate := sr
        freq := { current := 0x43DC0000, target := 0x43DC0000, modulation := 0 }
        gain := { current := 0, target := 0, modulation := 0 }
        env := { stage := .idle, value := 0, attack := attackReset, decay := decayReset,
                 sustain := sustainReset, release := releaseReset }
        osc := { phase := 0, waveform := .sine }
        lfo := { phase := 0, freq := Config.lfoRateReset }
        routes := [{ source := .lfo1, destination := .frequency, depth := 0x3F800000 },
                   { source := .env1, destination := .gain, depth := 0x3F800000 }] } }) ∧
  1 ≤ adsrMinTime ∧ adsrMinTime ≤ 0x7F7FFFFF ∧
  fle adsrMinTime attackReset = true ∧ fle adsrMinTime decayReset = true ∧ fle adsrMinTime releaseReset = true ∧
  inUnit sustainReset = true

/-- 46 R230, 60 R262: create is refused bad_sample_rate, the fields unchanged, exactly for NaN, both zeros, negatives and
infinities; the positive finite patterns, subnormals included, are 0x00000001 to 0x7F7FFFFF. -/
def Obligations.CreateRefusesBadSampleRates : Prop :=
  ∀ (s : State) (sr : Word), sr = 0 ∨ 0x7F7FFFFF < sr →
    exec (.create sr) s = .refused (.badSampleRate (s.marked .badSampleRate none none))

/-- 46 R239: destroy, while Live, leaves the block Unconstructed and touches nothing else. -/
def Obligations.DestroyUnconstructs : Prop :=
  ∀ (s : State) (v : Voice), s.lc = .live v → exec .destroy s = .next { s with lc := .unconstructed }

/-! ## Setters (spec 46 R232 to R238) -/

/-- 46 R232, R233, 40 R132: set_gain and set_frequency store the operand, any pattern, in current and target, and write
nothing else, the modulation included. -/
def Obligations.GainAndFrequencyAreSetAbsolutely : Prop :=
  ∀ (s : State) (v : Voice) (x : Word), s.lc = .live v →
    exec (.setGain x) s =
      .next { s with lc := .live { v with gain := { current := x, target := x, modulation := v.gain.modulation } } } ∧
    exec (.setFrequency x) s =
      .next { s with lc := .live { v with freq := { current := x, target := x, modulation := v.freq.modulation } } }

/-- 46 R234, R235, 41 R148, R149: note_on enters Attack and note_off enters Release from every stage; the value and
everything else, the phases among them (the spec's decision 92 D25, log 14), are kept. -/
def Obligations.NoteEventsWriteOnlyTheStage : Prop :=
  ∀ (s : State) (v : Voice), s.lc = .live v →
    exec .noteOn s = .next { s with lc := .live { v with env := { v.env with stage := .attack } } } ∧
    exec .noteOff s = .next { s with lc := .live { v with env := { v.env with stage := .release } } }

/-- 46 R236, 41 R150, R151: with no NaN operand set_adsr stores each time, raised to ADSR_MIN_TIME where it is at or below
it, and the sustain clamped to [0, 1] with a zero in range kept as it is; nothing else is written. -/
def Obligations.SetAdsrFloorsAndClamps : Prop :=
  ∀ (s : State) (v : Voice) (a d su r : Word), s.lc = .live v →
    isNaN a = false → isNaN d = false → isNaN su = false → isNaN r = false →
    exec (.setAdsr a d su r) s = .next { s with
      lc := .live { v with
        env := {
          stage := v.env.stage
          value := v.env.value
          attack := if fle a adsrMinTime then adsrMinTime else a
          decay := if fle d adsrMinTime then adsrMinTime else d
          sustain := if flt su 0 then 0 else if fle su 0x3F800000 then su else 0x3F800000
          release := if fle r adsrMinTime then adsrMinTime else r } } }

/-- 46 R236, 60 R261, R264: with a NaN operand set_adsr writes nothing and is refused, at the site of the first NaN in the
order attack, decay, sustain, release. -/
def Obligations.SetAdsrRefusesNaN : Prop :=
  ∀ (s : State) (v : Voice) (a d su r : Word), s.lc = .live v →
    (isNaN a = true → exec (.setAdsr a d su r) s =
      .refused (.nanAtClamp (s.marked .nanAtClamp none (some .attack)))) ∧
    (isNaN a = false → isNaN d = true → exec (.setAdsr a d su r) s =
      .refused (.nanAtClamp (s.marked .nanAtClamp none (some .decay)))) ∧
    (isNaN a = false → isNaN d = false → isNaN su = true → exec (.setAdsr a d su r) s =
      .refused (.nanAtClamp (s.marked .nanAtClamp none (some .sustain)))) ∧
    (isNaN a = false → isNaN d = false → isNaN su = false → isNaN r = true → exec (.setAdsr a d su r) s =
      .refused (.nanAtClamp (s.marked .nanAtClamp none (some .release))))

/-- 46 R237: id 1 selects Square, 2 Triangle, 3 Saw, and every other id Sine; the phase and everything else are kept. Which
waveform the ids 1 to 3 name is the spec's decision 92 D4, and what the command leaves alone is D25 (log 14). -/
def Obligations.WaveformIsSelectedById : Prop :=
  ∀ (s : State) (v : Voice) (id : Word), s.lc = .live v →
    (id = 1 → exec (.setWaveform id) s = .next { s with lc := .live { v with osc := { v.osc with waveform := .square } } }) ∧
    (id = 2 → exec (.setWaveform id) s = .next { s with lc := .live { v with osc := { v.osc with waveform := .triangle } } }) ∧
    (id = 3 → exec (.setWaveform id) s = .next { s with lc := .live { v with osc := { v.osc with waveform := .saw } } }) ∧
    (id = 0 ∨ 4 ≤ id → exec (.setWaveform id) s = .next { s with lc := .live { v with osc := { v.osc with waveform := .sine } } })

/-- 46 R238: set_lfo_rate stores the operand, any pattern, and writes nothing else. -/
def Obligations.LfoRateIsStoredAsGiven : Prop :=
  ∀ (s : State) (v : Voice) (f : Word), s.lc = .live v →
    exec (.setLfoRate f) s = .next { s with lc := .live { v with lfo := { v.lfo with freq := f } } }

/-- 46 R242: repeating a setter with the same operands leaves the same state as issuing it once. -/
def Obligations.RepeatedSettersAreIdempotent : Prop :=
  ∀ (i : Instr) (s t : State), (∀ sr, i ≠ .create sr) → (∀ n, i ≠ .render n) → i ≠ .destroy →
    exec i s = .next t → exec i t = .next t

/-- 10 R52: a command other than render writes no buffer slot and adds nothing to the history. That it keeps the queue of
buffers (log 4), the render index (log 13) and the draw counter (log 7: a create does not reset it) is the model's choice. -/
def Obligations.OnlyRenderWritesOutside : Prop :=
  ∀ (i : Instr) (s t : State), (∀ n, i ≠ .render n) → exec i s = .next t →
    t.mem = s.mem ∧ t.history = s.history ∧ t.buffers = s.buffers ∧ t.port = s.port ∧
      t.renderIndex = s.renderIndex ∧ t.nanDraws = s.nanDraws

/-- 42 R180, 43 R192, 10 R52: a command other than create and render that leaves the block Live changes no phase; a create that
completes sets both to +0. That the other commands leave the phases, and that create sets them to +0, are the spec's decisions
92 D25 and D15 (log 14). -/
def Obligations.PhasesMoveOnlyInRender : Prop :=
  (∀ (i : Instr) (s t : State) (v v' : Voice), (∀ n, i ≠ .render n) → (∀ sr, i ≠ .create sr) → exec i s = .next t →
      s.lc = .live v → t.lc = .live v' → v'.osc.phase = v.osc.phase ∧ v'.lfo.phase = v.lfo.phase) ∧
    ∀ (sr : Word) (s t : State), exec (.create sr) s = .next t →
      ∃ v', t.lc = .live v' ∧ v'.osc.phase = 0 ∧ v'.lfo.phase = 0

/-- 10 R32, R47: while Live the sample rate and the route table change by create only. -/
def Obligations.SampleRateAndRoutesAreFixed : Prop :=
  ∀ (i : Instr) (s t : State) (v v' : Voice), (∀ sr, i ≠ .create sr) → exec i s = .next t → s.lc = .live v → t.lc = .live v' →
    v'.sampleRate = v.sampleRate ∧ v'.routes = v.routes

/-! ## render (spec 46 R231, 45, 20) -/

/-- 10 R52, 45 R210: a render that completes only reads the targets, the ADSR fields, the waveform, the LFO rate, the
sample rate and the routes, and uses up one buffer and one render index (the model's bookkeeping, log 4 and log 13). -/
def Obligations.RenderKeepsWhatItOnlyReads : Prop :=
  ∀ (n : Word) (s t : State), exec (.render n) s = .next t →
    ∃ v v', s.lc = .live v ∧ t.lc = .live v' ∧
      v'.freq.target = v.freq.target ∧ v'.gain.target = v.gain.target ∧
      v'.env.attack = v.env.attack ∧ v'.env.decay = v.env.decay ∧ v'.env.sustain = v.env.sustain ∧
      v'.env.release = v.env.release ∧ v'.osc.waveform = v.osc.waveform ∧ v'.lfo.freq = v.lfo.freq ∧
      v'.sampleRate = v.sampleRate ∧ v'.routes = v.routes ∧
      t.port = s.port ∧ t.buffers = s.buffers.tail ∧ t.renderIndex = s.renderIndex + 1

/-- 20 R72, R73, R75, 70 R306: a render of n frames that completes writes slots 0 to n-1 once each, in increasing order, each
as the four bytes at its address, and no other byte. The order of the bytes is the spec's decision 92 D21 (log 14); the number
of the render in the history is the model's (log 13). -/
def Obligations.RenderWritesEachSlotOnce : Prop :=
  ∀ (n : Word) (s t : State), exec (.render n) s = .next t →
    ∃ ys : List Word, ys.length = n.toNat ∧ t.history = s.history ++ historyOf s.renderIndex ys ∧
      (∀ i (h : i < ys.length), readWord t.mem (slotAddress s.buffer.base i) = some ys[i]) ∧
      ∀ a, a < s.buffer.base ∨ s.buffer.base + 4 * n.toNat ≤ a → readByte t.mem a = readByte s.mem a

/-- 45 R214 (a), 46 R231 (a): render 0 with an aligned base changes no field and writes no slot; it uses up a buffer and a
render index (the model's bookkeeping, log 4 and log 13). -/
def Obligations.RenderZeroOnlyTakesTheBuffer : Prop :=
  ∀ (s : State) (v : Voice), s.lc = .live v → s.buffer.base % 4 = 0 →
    exec (.render 0) s = .next { s with buffers := s.buffers.tail, renderIndex := s.renderIndex + 1 }

/-- 45 R210 to R213, 40 R130, 41 R140, 42 R176, 43 R190, 44 R200: with the fixed routes a render of one frame smooths both
parameters, advances the LFO (its value taken before) and the envelope (its value taken after), writes the oscillator's
sample at the phase before the advance times the effective gain, and advances the phase by the effective frequency. The LFO's
value before its advance is the spec's decision D9. A NaN sample is written with a drawn pattern (the free value of log 7);
using up one buffer and one render index is the model's bookkeeping (log 4, log 13). The byte order of the written slot is the
spec's decision 92 D21 (log 14). -/
def Obligations.OneFrameFollowsTheSampleStep : Prop :=
  ∀ (s : State) (v : Voice) (f g : Word), s.lc = .live v → v.routes = routeTable →
    1 ≤ s.buffer.len → s.buffer.base % 4 = 0 →
    let lfoValue := fmul (sin32 (fmul v.lfo.phase 0x40C90FDB)) 0x3F800000
    let e := envAdvance v.sampleRate v.env
    let fc := fadd v.freq.current (fmul (fsub v.freq.target v.freq.current) 0x3A83126F)
    let fm := fadd 0 (fmul lfoValue 0x3F800000)
    let gc := fadd v.gain.current (fmul (fsub v.gain.target v.gain.current) 0x3A83126F)
    let gm := fadd 0 (fmul e.value 0x3F800000)
    clamp (fadd fc fm) 0x41A00000 0x469C4000 = some f → clamp (fmul gc gm) 0 0x3F800000 = some g →
    let y := fmul (oscSample v.osc) g
    let p := if isNaN y then drawNaN s.nanDraws else y
    exec (.render 1) s = .next { s with
      lc := .live { v with
        freq := { current := fc, target := v.freq.target, modulation := fm }
        gain := { current := gc, target := v.gain.target, modulation := gm }
        env := e
        osc := { v.osc with phase := wrap (fadd v.osc.phase (fdiv f v.sampleRate)) }
        lfo := { v.lfo with phase := wrap (fadd v.lfo.phase (fdiv v.lfo.freq v.sampleRate)) } }
      mem := writeWord s.mem s.buffer.base p
      history := s.history ++ [{ render := s.renderIndex, slot := 0, pattern := p }]
      buffers := s.buffers.tail
      renderIndex := s.renderIndex + 1
      nanDraws := if isNaN y then s.nanDraws + 1 else s.nanDraws }

/-- 20 R74, R76, 46 R231: a render with more frames than valid slots, or with a misaligned base, is refused buffer_short
before any sample step, the state unchanged. Where no buffer is offered, the buffer of no slots at base 0 is the model's
choice (log 4). -/
def Obligations.UnfitBuffersAreRefused : Prop :=
  ∀ (n : Word) (s : State) (v : Voice), s.lc = .live v → s.buffer.len < n.toNat ∨ s.buffer.base % 4 ≠ 0 →
    exec (.render n) s = .refused (.bufferShort (s.marked .bufferShort none none))

/-- 45 R214 (b): a render of n frames and then one of m frames leave the block as one render of n + m frames does, and
write the same samples, split at n. That NaN fields and NaN samples of the two runs are equal in pattern, and the clause on
nanDraws, rest on the model's choices (log 6: equal operations give equal NaNs; log 7: draws by counter). -/
def Obligations.SplitRendersEqualOneRender : Prop :=
  ∀ (n m : Word) (s s₁ s₂ s₃ : State), n.toNat + m.toNat < 2 ^ 32 →
    exec (.render n) s = .next s₁ → exec (.render m) s₁ = .next s₂ → exec (.render (n + m)) s = .next s₃ →
    s₂.lc = s₃.lc ∧ s₂.nanDraws = s₃.nanDraws ∧
      s₂.history.map OutWrite.pattern = s₃.history.map OutWrite.pattern

/-- 45 R217, 46 R231: a render completes, whatever its frame count, from every state whose buffer fits and whose Live
fields are `Renderable`; the state it leaves is `Renderable` again, and it has written n slots. -/
def Obligations.RendersCompleteFromRenderableStates : Prop :=
  ∀ (n : Word) (s : State) (v : Voice), s.lc = .live v → Renderable v → n.toNat ≤ s.buffer.len → s.buffer.base % 4 = 0 →
    ∃ t v', exec (.render n) s = .next t ∧ t.lc = .live v' ∧ Renderable v' ∧ t.history.length = s.history.length + n.toNat

/-- 45 R211, R212, 43 R190 (e), 41 R147, 44 R200 (d), 60 R261, R264: the first sample step of a render refuses at the frequency
clamp when the frequency is a NaN, or with the fixed routes the LFO's phase is infinite or NaN or its value is a NaN, and
whenever the frequency sum is a NaN, whatever the gain is; it refuses at the gain clamp when that sum is none and the gain, or
with the fixed routes the envelope's advanced value, or the gain product is a NaN. The fields are those after steps 1 to 3 and
no slot is written. -/
def Obligations.NaNParametersRefuseAtTheirClamps : Prop :=
  ∀ (n : Word) (s : State) (v : Voice), s.lc = .live v → n ≠ 0 → n.toNat ≤ s.buffer.len → s.buffer.base % 4 = 0 →
    (isNaN v.freq.current = true ∨ isNaN v.freq.target = true ∨
        (v.routes = routeTable ∧ (isFinite v.lfo.phase = false ∨ isNaN (lfoAdvance v.sampleRate v.lfo).1 = true)) ∨
        isNaN (fadd (controlSteps v).freq.current (controlSteps v).freq.modulation) = true →
      exec (.render n) s = .refused (.nanAtClamp
        ((s.withVoice (controlSteps v)).marked .nanAtClamp (some 0) (some .freqClamp)))) ∧
    (isNaN (fadd (controlSteps v).freq.current (controlSteps v).freq.modulation) = false →
      isNaN v.gain.current = true ∨ isNaN v.gain.target = true ∨
        (v.routes = routeTable ∧ isNaN (envAdvance v.sampleRate v.env).value = true) ∨
        isNaN (fmul (controlSteps v).gain.current (controlSteps v).gain.modulation) = true →
      exec (.render n) s = .refused (.nanAtClamp
        ((s.withVoice (controlSteps v)).marked .nanAtClamp (some 0) (some .gainClamp))))

/-- 60 R261, 46 R231: a render refused inside sample step i has written slots 0 to i-1, which hold their samples, and no
other byte, and records i and the clamp. The order of the bytes is the spec's decision 92 D21 (log 14); the number of the
render in the history is the model's (log 13). -/
def Obligations.RefusedRenderKeepsEarlierSlots : Prop :=
  ∀ (n : Word) (s f : State), exec (.render n) s = .refused (.nanAtClamp f) →
    ∃ (i : Nat) (site : Site) (ys : List Word), i < n.toNat ∧ (site = .freqClamp ∨ site = .gainClamp) ∧
      f.refusal = some { reason := .nanAtClamp, command := s.commandIndex, frame := some i, site := some site } ∧
      ys.length = i ∧ f.history = s.history ++ historyOf s.renderIndex ys ∧
      (∀ j (h : j < ys.length), readWord f.mem (slotAddress s.buffer.base j) = some ys[j]) ∧
      ∀ a, a < s.buffer.base ∨ s.buffer.base + 4 * i ≤ a → readByte f.mem a = readByte s.mem a

/-- 45 R211, R212, 00 R15: the effective frequency is the sum of current value and modulation clamped to [20, 20000], the
effective gain their product clamped to [0, 1], a value in range kept as it is, signed zero included; there is none exactly
where the sum or product is a NaN. So they lie in those ranges whatever the fields hold. -/
def Obligations.EffectiveValuesAreClamped : Prop :=
  ∀ (v : Voice) (x : Word),
    (effectiveFrequency v = some x → fle 0x41A00000 x = true ∧ fle x 0x469C4000 = true) ∧
    (effectiveGain v = some x → inUnit x = true) ∧
    (let f := fadd v.freq.current v.freq.modulation
     (effectiveFrequency v = none ↔ isNaN f = true) ∧
       (isNaN f = false →
         effectiveFrequency v = some (if flt f 0x41A00000 then 0x41A00000 else if flt 0x469C4000 f then 0x469C4000 else f))) ∧
    (let g := fmul v.gain.current v.gain.modulation
     (effectiveGain v = none ↔ isNaN g = true) ∧
       (isNaN g = false → effectiveGain v = some (if flt g 0 then 0 else if flt 0x3F800000 g then 0x3F800000 else g)))

/-- 20 R83: nothing the memory holds changes what a command does to the block or the history, or whether it completes. That
NaN fields and NaN samples of the two runs are equal in pattern rests on the model's choices (log 6, log 7). -/
def Obligations.BuffersAreNeverRead : Prop :=
  ∀ (i : Instr) (s t : State) (m : Memory), exec i s = .next t →
    ∃ m', exec i { s with mem := m } = .next { t with mem := m' }

/-! ## Components -/

/-- 40 R130 (a), 10 R35: smoothing leaves a finite parameter at its target where it is, but for -0, which becomes +0, and
zeroes its modulation. -/
def Obligations.SmoothingHoldsSettledParameters : Prop :=
  ∀ (p : Smoothed), isFinite p.current = true → feq p.current p.target = true →
    smooth p kSmooth = { current := if isZero p.current then 0 else p.current, target := p.target, modulation := 0 }

/-- 40 R133, with the premise the rule leaves unsaid that the difference does not overflow (log 16): one smoothing step
moves the current value toward the target and not past it. -/
def Obligations.SmoothingNeverPassesTheTarget : Prop :=
  ∀ (p : Smoothed), isFinite p.current = true → isFinite p.target = true →
    isFinite (fsub p.target p.current) = true →
    (fle p.current p.target = true →
      fle p.current (smooth p kSmooth).current = true ∧ fle (smooth p kSmooth).current p.target = true) ∧
    (fle p.target p.current = true →
      fle p.target (smooth p kSmooth).current = true ∧ fle (smooth p kSmooth).current p.current = true)

/-- 40 R130 (b), (c): infinite and NaN parameters under smoothing. -/
def Obligations.SmoothingOfNonFiniteParameters : Prop :=
  ∀ (p : Smoothed),
    (isNaN p.current = true ∨ isNaN p.target = true → isNaN (smooth p kSmooth).current = true) ∧
    (isInf p.current = true → isNaN (smooth p kSmooth).current = true) ∧
    (isFinite p.current = true → isInf p.target = true → (smooth p kSmooth).current = p.target)

/-- 41 R142 to R145, R146: the transition table of the advance. -/
def Obligations.EnvelopeFollowsTheTransitionTable : Prop :=
  ∀ (sr : Word) (e : Envelope),
    (e.stage = .idle → envAdvance sr e = { e with value := 0 }) ∧
    (e.stage = .attack →
      let sum := fadd e.value (fdiv one (fmul e.attack sr))
      (fle one sum = true → envAdvance sr e = { e with stage := .decay, value := one }) ∧
      (fle one sum = false → envAdvance sr e = { e with value := sum })) ∧
    (e.stage = .decay →
      let rest := fsub e.value (fdiv (fsub one e.sustain) (fmul e.decay sr))
      (fle rest e.sustain = true → envAdvance sr e = { e with stage := .sustain, value := e.sustain }) ∧
      (fle rest e.sustain = false → envAdvance sr e = { e with value := rest })) ∧
    (e.stage = .sustain → envAdvance sr e = { e with value := e.sustain }) ∧
    (e.stage = .release →
      let rest := fsub e.value (fdiv e.sustain (fmul e.release sr))
      (fle rest 0 = true → envAdvance sr e = { e with stage := .idle, value := 0 }) ∧
      (fle rest 0 = false → envAdvance sr e = { e with value := rest }))

/-- 10 R38, 41 R147: from a value in [0, 1] the advance gives a value in [0, 1], unless the stage's product underflowed to
a zero and the quotient is a NaN. -/
def Obligations.EnvelopeValueStaysInUnit : Prop :=
  ∀ (v : Voice), VoiceInv v →
    inUnit (envAdvance v.sampleRate v.env).value = true ∨
      (isNaN (envAdvance v.sampleRate v.env).value = true ∧
        ((v.env.stage = .decay ∧ isZero (fmul v.env.decay v.sampleRate) = true) ∨
          (v.env.stage = .release ∧ isZero (fmul v.env.release v.sampleRate) = true)))

/-- 41 R154, R145 (b): with sustain 0 and a release product that is not a zero or a NaN, a Release entered with a positive
value holds it for ever. -/
def Obligations.ReleaseWithZeroSustainNeverEnds : Prop :=
  ∀ (sr : Word) (e : Envelope) (n : Nat), e.stage = .release → isZero e.sustain = true → isNaN (fmul e.release sr) = false →
    isZero (fmul e.release sr) = false → isFinite e.value = true → flt 0 e.value = true →
    (envAdvance sr)^[n] e = e

/-- 42 R170 to R175: what each waveform's sample is. Square is its high level for every phase below 0.5 and its low level
otherwise, NaN included; Sine, Triangle and Saw are the rounded expressions of their rules, Triangle exactly -K_TRI from phase
0 to 2^-26. For a phase in [0, 1) no sample exceeds its waveform's normalization constant, and Saw never reaches +K_SAW. -/
def Obligations.WaveformsStayInTheirBounds : Prop :=
  ∀ (o : Oscillator),
    (o.waveform = .sine → oscSample o = fmul (sin32 (fmul o.phase 0x40C90FDB)) 0x3F800000) ∧
    (o.waveform = .square →
      (o.phase ≤ 0x3EFFFFFF ∨ (0x80000000 ≤ o.phase ∧ o.phase ≤ 0xFF800000) → oscSample o = 0x3F350481) ∧
      ((0x3F000000 ≤ o.phase ∧ o.phase < 0x80000000) ∨ 0xFF800000 < o.phase → oscSample o = 0xBD90D067)) ∧
    (o.waveform = .triangle →
      oscSample o = fmul (fsub 0x3F800000 (fmul 0x40800000 (fabs (fsub o.phase 0x3F000000)))) 0x3F9CC2F8 ∧
      (o.phase ≤ 0x32800000 → oscSample o = 0xBF9CC2F8)) ∧
    (o.waveform = .saw → oscSample o = fmul (fsub (fmul 0x40000000 o.phase) 0x3F800000) 0x3F9CC2F8) ∧
    (inCycle o.phase = true →
      fle (fabs (oscSample o)) (waveformBound o.waveform) = true ∧
      (o.waveform = .square → oscSample o = 0x3F350481 ∨ oscSample o = 0xBD90D067) ∧
      (o.waveform = .saw → flt (oscSample o) 0x3F9CC2F8 = true))

/-- 42 R177, 10 R43: the wrap of every sum. With WRAP_MODE reduce a finite sum is brought into [0, 1): from 1.0 on it is exactly
the sum less its whole part; a negative sum is the difference of the sum and its floor, rounded once to the nearest binary32,
and +0 where that is 1.0; an infinite or NaN sum gives a NaN. With subtract_once 1.0 is subtracted once, from 1.0 on. The
configured mode is the one used. -/
def Obligations.ReduceWrapsIntoTheCycle : Prop :=
  ∀ (p : Word),
    (isFinite p = true → inCycle (wrapIn .reduce p) = true) ∧
    (isFinite p = true → fle 0x3F800000 p = true → units (wrapIn .reduce p) = units p % 2 ^ 149) ∧
    (isFinite p = true → flt p 0 = true →
      wrapIn .reduce p = (if fle 0x3F800000 (fsub p (ffloor p)) then 0 else fsub p (ffloor p)) ∧
      ∀ w, isFinite w = true → |units (fsub p (ffloor p)) - units p % 2 ^ 149| ≤ |units w - units p % 2 ^ 149|) ∧
    (isFinite p = false → isNaN (wrapIn .reduce p) = true) ∧
    wrapIn .subtractOnce p = (if fle 0x3F800000 p then fsub p 0x3F800000 else p) ∧
    wrap p = wrapIn Config.wrapMode p

/-- 42 R177 (a), (b), R178: on a sum in [0, 2) both wrap modes agree, and give it exactly, less 1 from 1 on. -/
def Obligations.WrapModesAgreeInTheNormalDomain : Prop :=
  ∀ (p : Word) (mode : WrapMode), fle 0 p = true → flt p 0x40000000 = true →
    wrap p = wrapIn mode p ∧ inCycle (wrapIn mode p) = true ∧
    (flt p 0x3F800000 = true → wrapIn mode p = p) ∧
    (fle 0x3F800000 p = true → units (wrapIn mode p) = units p - units 0x3F800000)

/-- 42 R178: with a phase in [0, 1) and a rate in [0, sample_rate) the advanced phase is in [0, 1) in either wrap mode. -/
def Obligations.NormalDomainKeepsThePhaseInTheCycle : Prop :=
  ∀ (phase freq sr : Word), inCycle phase = true → normalRate freq sr = true →
    inCycle (advancePhase phase freq sr) = true

/-- 42 R181, R172 (c): a NaN phase stays a NaN; Sine, Triangle and Saw then give NaN and Square its low level. -/
def Obligations.NaNPhaseStaysNaN : Prop :=
  ∀ (o : Oscillator) (freq sr : Word), isNaN o.phase = true →
    isNaN (advancePhase o.phase freq sr) = true ∧
    (o.waveform = .square → oscSample o = 0xBD90D067) ∧
    (o.waveform ≠ .square → isNaN (oscSample o) = true)

/-- 00 R16: properties P1, P2 and P3 of the sine, whatever the free function is. -/
def Obligations.SineHasItsNamedProperties : Prop :=
  sin32 0x00000000 = 0x00000000 ∧ sin32 0x80000000 = 0x80000000 ∧
  (∀ x, isFinite x = true → fle 0xBF800000 (sin32 x) = true ∧ fle (sin32 x) 0x3F800000 = true) ∧
  (∀ x, isFinite x = false → isNaN (sin32 x) = true)

/-- 44 R200 (c), (d), R201: with the fixed table the router writes the two accumulators and nothing else. A NaN source gives a NaN
accumulator; from an accumulator of +0 any other source is taken as it is, -0 turned to +0. -/
def Obligations.RouterMovesEachSourceToItsParameter : Prop :=
  ∀ (v : Voice) (l e : Word), v.routes = routeTable →
    ∃ fm gm, route l e v = { v with
        freq := { v.freq with modulation := fm }
        gain := { v.gain with modulation := gm } } ∧
      (isNaN l = true → isNaN fm = true) ∧ (isNaN e = true → isNaN gm = true) ∧
      (v.freq.modulation = 0 → isNaN l = false → fm = if isZero l then 0 else l) ∧
      (v.gain.modulation = 0 → isNaN e = false → gm = if isZero e then 0 else e)

/-! ## Binary32 arithmetic (spec 00 R11, R13) -/

/-- 00 R11: the sum of two binary32 values. It is a NaN exactly for a NaN operand and for opposite infinities; any other
infinite operand is the sum. A finite result is the binary32 nearest to the exact sum, and even when another is as near; the
result is the infinity of the exact sum's sign exactly from 2^128 - 2^103 on. The sign of an exact zero sum is IEEE 754's, which
R11 does not spell out (log 1). A difference is the sum with the negated operand (its NaN's pattern: log 6). -/
def Obligations.AdditionRoundsToNearestEven : Prop :=
  ∀ (a b : Word),
    (isNaN (fadd a b) = true ↔
      isNaN a = true ∨ isNaN b = true ∨ (isInf a = true ∧ isInf b = true ∧ signBit a ≠ signBit b)) ∧
    (isInf a = true → isNaN (fadd a b) = false → fadd a b = a) ∧
    (isInf b = true → isNaN (fadd a b) = false → fadd a b = b) ∧
    (isFinite a = true → isFinite b = true →
      (isFinite (fadd a b) = true ↔ |units a + units b| < (2 ^ 25 - 1) * 2 ^ 252) ∧
      (isFinite (fadd a b) = false → fadd a b = if units a + units b < 0 then 0xFF800000 else 0x7F800000) ∧
      (units a + units b = 0 → fadd a b = if signBit a && signBit b then 0x80000000 else 0)) ∧
    (∀ w, isFinite a = true → isFinite b = true → isFinite (fadd a b) = true → isFinite w = true →
      |units (fadd a b) - (units a + units b)| ≤ |units w - (units a + units b)| ∧
      (|units (fadd a b) - (units a + units b)| = |units w - (units a + units b)| → units w ≠ units (fadd a b) →
        magBits (fadd a b) % 2 = 0)) ∧
    fsub a b = fadd a (fneg b)

/-- 00 R11: the product of two binary32 values. It is a NaN exactly for a NaN operand and for an infinity times a zero; its sign
is that of the two signs. A finite result is the binary32 nearest to the exact product, and even when another is as near; of
finite operands it is infinite exactly from 2^128 - 2^103 on, and of an infinite one always. The sign of a zero product is IEEE
754's, which R11 does not spell out (log 1). -/
def Obligations.MultiplicationRoundsToNearestEven : Prop :=
  ∀ (a b : Word),
    (isNaN (fmul a b) = true ↔ isNaN a = true ∨ isNaN b = true ∨
      ((isInf a = true ∨ isInf b = true) ∧ (isZero a = true ∨ isZero b = true))) ∧
    (isNaN (fmul a b) = false → signBit (fmul a b) = (signBit a != signBit b)) ∧
    (isInf a = true ∨ isInf b = true → isNaN (fmul a b) = false → isInf (fmul a b) = true) ∧
    (isFinite a = true → isFinite b = true →
      (isFinite (fmul a b) = true ↔ |units a * units b| < (2 ^ 25 - 1) * 2 ^ 252 * 2 ^ 149)) ∧
    ∀ w, isFinite a = true → isFinite b = true → isFinite (fmul a b) = true → isFinite w = true →
      |units (fmul a b) * 2 ^ 149 - units a * units b| ≤ |units w * 2 ^ 149 - units a * units b| ∧
      (|units (fmul a b) * 2 ^ 149 - units a * units b| = |units w * 2 ^ 149 - units a * units b| →
        units w ≠ units (fmul a b) → magBits (fmul a b) % 2 = 0)

/-- 00 R11: the quotient of two binary32 values. It is a NaN exactly for a NaN operand, for two infinities and for two zeros; its
sign is that of the two signs. An infinity over a finite value, and a nonzero finite value over a zero, are infinite; a finite
value over an infinity is a zero. A finite result of finite operands is the binary32 nearest to the exact quotient, and even
when another is as near (both sides multiplied by the divisor); it is infinite exactly from 2^128 - 2^103 on. The quotient by a
zero and the sign of a zero quotient are IEEE 754's, which R11 does not spell out (log 1). -/
def Obligations.DivisionRoundsToNearestEven : Prop :=
  ∀ (a b : Word),
    (isNaN (fdiv a b) = true ↔ isNaN a = true ∨ isNaN b = true ∨ (isInf a = true ∧ isInf b = true) ∨
      (isFinite b = true ∧ isZero a = true ∧ isZero b = true)) ∧
    (isNaN (fdiv a b) = false → signBit (fdiv a b) = (signBit a != signBit b)) ∧
    (isInf a = true → isFinite b = true → isInf (fdiv a b) = true) ∧
    (isFinite a = true → isZero a = false → isZero b = true → isInf (fdiv a b) = true) ∧
    (isFinite a = true → isInf b = true → isZero (fdiv a b) = true) ∧
    (isFinite a = true → isFinite b = true → isZero b = false →
      (isFinite (fdiv a b) = true ↔ |units a| * 2 ^ 149 < (2 ^ 25 - 1) * 2 ^ 252 * |units b|)) ∧
    ∀ w, isFinite a = true → isFinite b = true → isZero b = false → isFinite (fdiv a b) = true → isFinite w = true →
      |units (fdiv a b) * units b - units a * 2 ^ 149| ≤ |units w * units b - units a * 2 ^ 149| ∧
      (|units (fdiv a b) * units b - units a * 2 ^ 149| = |units w * units b - units a * 2 ^ 149| →
        units w ≠ units (fdiv a b) → magBits (fdiv a b) % 2 = 0)

/-- 00 R12, R13: floor gives, exactly, the largest integral value not above a finite operand, and keeps an infinity and a NaN;
abs clears the sign and negation flips it; the comparisons are those of the exact values, with infinities beyond every finite
value, and false for a NaN. -/
def Obligations.FloorIsTheLargestIntegralBelow : Prop :=
  ∀ (x y : Word),
    (isFinite x = true → isNaN (ffloor x) = false ∧
      ∃ k : Int, units (ffloor x) = k * 2 ^ 149 ∧ k * 2 ^ 149 ≤ units x ∧ units x < (k + 1) * 2 ^ 149) ∧
    (isInf x = true → ffloor x = x) ∧ (isNaN x = true → isNaN (ffloor x) = true) ∧
    (signBit (fabs x) = false ∧ magBits (fabs x) = magBits x) ∧
    (signBit (fneg x) = !signBit x ∧ magBits (fneg x) = magBits x) ∧
    (flt x y = true ↔ isNaN x = false ∧ isNaN y = false ∧ units x < units y) ∧
    (fle x y = true ↔ isNaN x = false ∧ isNaN y = false ∧ units x ≤ units y) ∧
    (feq x y = true ↔ isNaN x = false ∧ isNaN y = false ∧ units x = units y) ∧
    fgt x y = flt y x ∧ fge x y = fle y x

/-! ## Memory -/

/-- 20 R72: slot i of a buffer is the four bytes from offset 4i of its base; a word written there is stored low byte first, and
the bytes outside its four are unchanged; a word is read where its four bytes are, in the same order. The byte order is the
spec's own choice, 92 D21 (log 14). -/
def Obligations.SlotsAreLittleEndian : Prop :=
  ∀ (m : Memory) (base i : Nat) (w : Word),
    (∀ k, k < 4 → readByte (writeWord m (slotAddress base i) w) (base + 4 * i + k) = some (w.extractLsb' (8 * k) 8)) ∧
    (∀ a, a < base + 4 * i ∨ base + 4 * i + 4 ≤ a → readByte (writeWord m (slotAddress base i) w) a = readByte m a) ∧
    (readWord m (slotAddress base i) = some w ↔
      ∀ k, k < 4 → readByte m (base + 4 * i + k) = some (w.extractLsb' (8 * k) 8))

/-! ## The whole machine -/

/-- 10 R32, R35, R38 to R42, R47, 20 R73: every step from a state with the invariant that answers a next state keeps it. The
canonical form of the memory and the numbering of renders in it are the model's (log 5, log 13). -/
def Obligations.EveryStepKeepsTheInvariant : Prop :=
  ∀ (s t : State), StateInv s → step s = .next t → StateInv t

/-- 10 R55, 70 R290, R306: at power-on the block is Unconstructed, nothing is refused and nothing was written, and the invariant
holds. That no word and no buffer waits there is the model's (log 3, log 4). -/
def Obligations.ResetHasTheInvariant : Prop :=
  State.reset.lc = .unconstructed ∧ State.reset.refusal = none ∧ State.reset.history = [] ∧ State.reset.port = [] ∧
    State.reset.buffers = [] ∧ StateInv State.reset

/-- 10 R43, R45: with WRAP_MODE reduce every step keeps both phases in [0, 1) or NaN. -/
def Obligations.EveryStepKeepsThePhases : Prop :=
  ∀ (s t : State), PhaseInv s → step s = .next t → PhaseInv t

/-- 45 R215: with the oscillator in the normal phase domain (a phase in [0, 1), a sample rate above 20000, 42 R178), every
sample a render writes is a number whose magnitude is at most the waveform's normalization constant. Sample rates at or
below 20000 are outside this statement; the number of the render in the history is the model's (log 13). -/
def Obligations.OutputNeverExceedsTheNormalization : Prop :=
  ∀ (n : Word) (s t : State) (v : Voice), s.lc = .live v → inCycle v.osc.phase = true → flt fMax v.sampleRate = true →
    exec (.render n) s = .next t →
    ∃ ys : List Word, ys.length = n.toNat ∧ t.history = s.history ++ historyOf s.renderIndex ys ∧
      ∀ y ∈ ys, fle (fabs y) (waveformBound v.osc.waveform) = true

/-- 45 R216: under the same conditions every sample is a zero where the gain is zero, where the gain is at or below zero
in a block with the invariant, and where the envelope is Idle with the fixed routes. The number of the render in the
history is the model's (log 13). -/
def Obligations.SilenceAtZeroGainOrIdle : Prop :=
  ∀ (n : Word) (s t : State) (v : Voice), s.lc = .live v → inCycle v.osc.phase = true → flt fMax v.sampleRate = true →
    (isZero v.gain.current = true ∧ isZero v.gain.target = true) ∨
      (VoiceInv v ∧ fle v.gain.current 0 = true ∧ feq v.gain.current v.gain.target = true) ∨
      (v.env.stage = .idle ∧ v.routes = routeTable) →
    exec (.render n) s = .next t →
    ∃ ys : List Word, ys.length = n.toNat ∧ t.history = s.history ++ historyOf s.renderIndex ys ∧
      ∀ y ∈ ys, isZero y = true

/-- 70 R302: a set_frequency does not show in slot 0 of the next render, nor, with the fixed routes (10 R47), a
set_lfo_rate in its slots 0 and 1. The LFO's value before its advance is the spec's decision D9. That NaN samples of the two
runs are equal in pattern rests on the model's choices (log 6, log 7). -/
def Obligations.RatesDoNotShowInEarlierSlots : Prop :=
  ∀ (f : Word) (s s₁ t t₁ : State) (v : Voice), s.lc = .live v → v.routes = routeTable →
    (exec (.setFrequency f) s = .next s₁ → exec (.render 1) s = .next t → exec (.render 1) s₁ = .next t₁ →
      t.history = t₁.history ∧ t.mem = t₁.mem) ∧
    (exec (.setLfoRate f) s = .next s₁ → exec (.render 2) s = .next t → exec (.render 2) s₁ = .next t₁ →
      t.history = t₁.history ∧ t.mem = t₁.mem)

/-- 43 R192, 45 R210 (b), 44 R202: what a render does to the LFO depends on the LFO and the sample rate alone, and what it
does to the envelope on the envelope and the sample rate alone. That two NaN phases (a NaN or infinite rate) are equal in
pattern rests on the model's choice that equal operations give equal NaNs (log 6). -/
def Obligations.LfoAndEnvelopeRunOnTheirOwn : Prop :=
  ∀ (n : Word) (s₁ s₂ t₁ t₂ : State) (v₁ v₂ v₁' v₂' : Voice), s₁.lc = .live v₁ → s₂.lc = .live v₂ →
    v₁.sampleRate = v₂.sampleRate → exec (.render n) s₁ = .next t₁ → exec (.render n) s₂ = .next t₂ →
    t₁.lc = .live v₁' → t₂.lc = .live v₂' →
    (v₁.lfo = v₂.lfo → v₁'.lfo = v₂'.lfo) ∧ (v₁.env = v₂.env → v₁'.env = v₂'.env)
end

