-- ==== Sys2Proof/Laws/Rounding.lean ====
section
/-! SUPPORT. Rounding (spec 00 R11): magnitude bits ascend with the exact values they stand for, rounding is exact on
representable values and never crosses one. Stated on magnitudes (naturals in units of 2^-149). -/

namespace Sys2Proof.Machine

/-! ## Magnitude bits and their values -/

theorem magUnits_small {m : Nat} (h : m < 2 ^ 23) : magUnits m = m := by
  unfold magUnits; rw [if_pos h]

/-- The value of exponent field `e + 1` with fraction `f`: the pattern `(e + 1) * 2^23 + f`. -/
theorem magUnits_block (e f : Nat) (hf : f < 2 ^ 23) :
    magUnits ((e + 1) * 2 ^ 23 + f) = (2 ^ 23 + f) * 2 ^ e := by
  have hdiv : ((e + 1) * 2 ^ 23 + f) / 2 ^ 23 = e + 1 := by omega
  have hmod : ((e + 1) * 2 ^ 23 + f) % 2 ^ 23 = f := by omega
  have hge : ¬ (e + 1) * 2 ^ 23 + f < 2 ^ 23 := by omega
  simp only [magUnits, if_neg hge, hdiv, hmod, Nat.add_sub_cancel]

/-- Every magnitude is below 2^23 or lies in a block of one exponent. -/
theorem mag_cases (m : Nat) :
    m < 2 ^ 23 ∨ ∃ e f, f < 2 ^ 23 ∧ m = (e + 1) * 2 ^ 23 + f := by
  by_cases h : m < 2 ^ 23
  · exact .inl h
  · exact .inr ⟨m / 2 ^ 23 - 1, m % 2 ^ 23, Nat.mod_lt _ (by norm_num), by omega⟩

theorem magUnits_lt_succ (m : Nat) : magUnits m < magUnits (m + 1) := by
  rcases mag_cases m with h | ⟨e, f, hf, rfl⟩
  · rw [magUnits_small h]
    by_cases h' : m + 1 < 2 ^ 23
    · rw [magUnits_small h']; omega
    · have : m + 1 = (0 + 1) * 2 ^ 23 + 0 := by omega
      rw [this, magUnits_block 0 0 (by norm_num)]; omega
  · rw [magUnits_block e f hf]
    have hp : 0 < 2 ^ e := by positivity
    by_cases h' : f + 1 < 2 ^ 23
    · rw [show (e + 1) * 2 ^ 23 + f + 1 = (e + 1) * 2 ^ 23 + (f + 1) by omega, magUnits_block e _ h']
      nlinarith
    · have hf' : f = 2 ^ 23 - 1 := by omega
      rw [show (e + 1) * 2 ^ 23 + f + 1 = (e + 1 + 1) * 2 ^ 23 + 0 by omega,
        magUnits_block (e + 1) 0 (by norm_num), Nat.pow_succ, hf']
      calc (2 ^ 23 + (2 ^ 23 - 1)) * 2 ^ e < 2 ^ 24 * 2 ^ e := Nat.mul_lt_mul_of_pos_right (by norm_num) hp
        _ = (2 ^ 23 + 0) * (2 ^ e * 2) := by ring

theorem magUnits_strictMono : StrictMono magUnits := strictMono_nat_of_lt_succ magUnits_lt_succ

@[simp] theorem magUnits_le_iff {m n : Nat} : magUnits m ≤ magUnits n ↔ m ≤ n := magUnits_strictMono.le_iff_le

@[simp] theorem magUnits_lt_iff {m n : Nat} : magUnits m < magUnits n ↔ m < n := magUnits_strictMono.lt_iff_lt

theorem magUnits_inj {m n : Nat} (h : magUnits m = magUnits n) : m = n := magUnits_strictMono.injective h

@[simp] theorem magUnits_zero : magUnits 0 = 0 := by simp [magUnits]

theorem magUnits_eq_zero {m : Nat} : magUnits m = 0 ↔ m = 0 :=
  ⟨fun h => magUnits_inj (by simpa using h), fun h => by simp [h]⟩

/-- The significand of a block, one past its end included. -/
theorem magUnits_scaled (s n : Nat) (h1 : s = 0 ∨ 2 ^ 23 ≤ n) (h2 : n ≤ 2 ^ 24) :
    magUnits (s * 2 ^ 23 + n) = n * 2 ^ s := by
  by_cases hn : n < 2 ^ 23
  · obtain rfl : s = 0 := by omega
    simp [magUnits_small hn]
  · by_cases hn' : n = 2 ^ 24
    · rw [hn', show s * 2 ^ 23 + 2 ^ 24 = (s + 1 + 1) * 2 ^ 23 + 0 by omega,
        magUnits_block (s + 1) 0 (by norm_num), Nat.pow_succ]
      ring
    · rw [show s * 2 ^ 23 + n = (s + 1) * 2 ^ 23 + (n - 2 ^ 23) by omega, magUnits_block s _ (by omega),
        show 2 ^ 23 + (n - 2 ^ 23) = n by omega]

/-- A whole number of at most 24 bits, scaled by a power of two in range, is representable. -/
theorem exists_magUnits {n s : Nat} (hn : n ≤ 2 ^ 24) (hs : s ≤ 253) : ∃ m, m ≤ infMag ∧ magUnits m = n * 2 ^ s := by
  have hinf : infMag = 255 * 2 ^ 23 := rfl
  induction s generalizing n with
  | zero => exact ⟨0 * 2 ^ 23 + n, by omega, magUnits_scaled 0 n (.inl rfl) hn⟩
  | succ s ih =>
    by_cases h : 2 ^ 23 ≤ n
    · exact ⟨(s + 1) * 2 ^ 23 + n, by omega, magUnits_scaled _ _ (.inr h) hn⟩
    · obtain ⟨m, h1, h2⟩ := @ih (2 * n) (by omega) (by omega)
      exact ⟨m, h1, by rw [h2, pow_succ]; ring⟩

/-- The value of magnitude bits `m` is a multiple of `2^s` once it reaches the block of spacing `2^s`. -/
theorem dvd_magUnits {m s : Nat} (h : 2 ^ (s + 23) ≤ magUnits m) : 2 ^ s ∣ magUnits m := by
  rcases mag_cases m with hm | ⟨e, f, hf, rfl⟩
  · rw [magUnits_small hm] at h
    have : 2 ^ 23 ≤ 2 ^ (s + 23) := Nat.pow_le_pow_right (by norm_num) (by omega)
    omega
  · rw [magUnits_block e f hf] at h ⊢
    have hlt : (2 ^ 23 + f) * 2 ^ e < 2 ^ (e + 24) := by
      rw [show e + 24 = 24 + e by omega, pow_add]
      exact Nat.mul_lt_mul_of_pos_right (by omega) (by positivity)
    have : s + 23 < e + 24 := (Nat.pow_lt_pow_iff_right (by norm_num : 1 < 2)).1 (lt_of_le_of_lt h hlt)
    exact Dvd.dvd.mul_left (Nat.pow_dvd_pow 2 (by omega)) _

/-! ## Rounding a quotient -/

theorem spacingExp_lt (q : Nat) : q < 2 ^ (spacingExp q + 24) := by
  have h := @Nat.lt_log2_self q
  refine lt_of_lt_of_le h (Nat.pow_le_pow_right (by norm_num) ?_)
  unfold spacingExp; omega

theorem spacingExp_le {q : Nat} (h : spacingExp q ≠ 0) : 2 ^ (spacingExp q + 23) ≤ q := by
  have hq : q ≠ 0 := by rintro rfl; simp [spacingExp] at h
  have h' := Nat.log2_self_le hq
  unfold spacingExp at h ⊢
  rwa [show q.log2 - 23 + 23 = q.log2 by omega]

/-- Rounding half to even does not pass a whole number from below. -/
theorem roundHalfEven_le {num den k : Nat} (hd : 0 < den) (h : num ≤ k * den) : roundHalfEven num den ≤ k := by
  have hm := Nat.div_add_mod num den
  have hr := Nat.mod_lt num hd
  have hq : num / den ≤ k := Nat.div_le_of_le_mul (by rwa [mul_comm] at h)
  unfold roundHalfEven
  rcases Nat.lt_or_ge (num / den) k with hlt | hge
  · simp only; split <;> omega
  · have heq : num / den = k := le_antisymm hq hge
    have : num % den = 0 := by
      rw [heq, mul_comm] at hm
      omega
    simp only [this, heq]
    split
    · omega
    · exact le_refl _

/-- Rounding half to even does not pass a whole number from above. -/
theorem le_roundHalfEven {num den k : Nat} (hd : 0 < den) (h : k * den ≤ num) : k ≤ roundHalfEven num den := by
  have hq : k ≤ num / den := (Nat.le_div_iff_mul_le hd).2 h
  unfold roundHalfEven
  simp only
  split <;> omega

/-- Rounding half to even keeps the order of quotients. -/
theorem roundHalfEven_mono {num den num' den' : Nat} (hd : 0 < den) (hd' : 0 < den')
    (h : num * den' ≤ num' * den) : roundHalfEven num den ≤ roundHalfEven num' den' := by
  have hm := Nat.div_add_mod num den
  have hm' := Nat.div_add_mod num' den'
  have hq : num / den ≤ num' / den' := by
    refine (Nat.le_div_iff_mul_le hd').2 ?_
    have h1 := Nat.div_mul_le_self num den
    refine Nat.le_of_mul_le_mul_right (c := den) ?_ hd
    calc num / den * den' * den = num / den * den * den' := by ring
      _ ≤ num * den' := Nat.mul_le_mul_right _ h1
      _ ≤ num' * den := h
  rcases Nat.lt_or_eq_of_le hq with hlt | heq
  · unfold roundHalfEven
    simp only
    split <;> split <;> omega
  · have hr : num % den * den' ≤ num' % den' * den := by
      rw [← hm, ← hm', heq] at h
      nlinarith
    unfold roundHalfEven
    simp only [heq]
    split
    · rename_i hup
      rw [if_pos ?_]
      rcases hup with hup | ⟨hup, hodd⟩
      · refine .inl ?_
        by_contra hc
        nlinarith
      · have : den' ≤ 2 * (num' % den') := by
          by_contra hc
          nlinarith
        rcases Nat.lt_or_eq_of_le this with hlt | heq'
        · exact .inl hlt
        · exact .inr ⟨heq'.symm, hodd⟩
    · split <;> omega

/-- The significand that `roundMag` packs lies in its block. -/
theorem roundHalfEven_block {num den : Nat} (hd : 0 < den) :
    (spacingExp (num / den) = 0 ∨ 2 ^ 23 ≤ roundHalfEven num (den * 2 ^ spacingExp (num / den))) ∧
      roundHalfEven num (den * 2 ^ spacingExp (num / den)) ≤ 2 ^ 24 := by
  set s := spacingExp (num / den) with hs
  have hd' : 0 < den * 2 ^ s := by positivity
  constructor
  · by_cases h0 : s = 0
    · exact .inl h0
    · refine .inr (le_roundHalfEven hd' ?_)
      have h1 : 2 ^ (s + 23) ≤ num / den := spacingExp_le h0
      have h2 := (Nat.le_div_iff_mul_le hd).1 h1
      calc 2 ^ 23 * (den * 2 ^ s) = 2 ^ (s + 23) * den := by rw [pow_add]; ring
        _ ≤ num := h2
  · refine roundHalfEven_le hd' ?_
    have h1 : num / den < 2 ^ (s + 24) := spacingExp_lt _
    have h2 := (Nat.div_lt_iff_lt_mul hd).1 h1
    calc num ≤ 2 ^ (s + 24) * den := h2.le
      _ = 2 ^ 24 * (den * 2 ^ s) := by rw [pow_add]; ring

/-- The value of the magnitude `roundMag` packs, before the cap at infinity. -/
theorem magUnits_roundHalfEven {num den : Nat} (hd : 0 < den) :
    magUnits (spacingExp (num / den) * 2 ^ 23 + roundHalfEven num (den * 2 ^ spacingExp (num / den))) =
      roundHalfEven num (den * 2 ^ spacingExp (num / den)) * 2 ^ spacingExp (num / den) :=
  magUnits_scaled _ _ (roundHalfEven_block hd).1 (roundHalfEven_block hd).2

theorem roundMag_le_infMag (num den : Nat) : roundMag num den ≤ infMag := Nat.min_le_right _ _

/-- Rounding never passes a representable magnitude from below. -/
theorem roundMag_le {num den c : Nat} (hd : 0 < den) (h : num ≤ magUnits c * den) : roundMag num den ≤ c := by
  unfold roundMag
  simp only
  refine le_trans (Nat.min_le_left _ _) ?_
  rw [← magUnits_le_iff, magUnits_roundHalfEven hd]
  set s := spacingExp (num / den) with hs
  have hd' : 0 < den * 2 ^ s := by positivity
  have hq : num / den ≤ magUnits c := Nat.div_le_of_le_mul (by rwa [mul_comm] at h)
  have hdvd : 2 ^ s ∣ magUnits c := by
    by_cases h0 : s = 0
    · simp [h0]
    · exact dvd_magUnits (le_trans (spacingExp_le h0) hq)
  obtain ⟨k, hk⟩ := hdvd
  rw [hk, mul_comm]
  refine Nat.mul_le_mul_left _ (roundHalfEven_le hd' ?_)
  calc num ≤ magUnits c * den := h
    _ = k * (den * 2 ^ s) := by rw [hk]; ring

/-- Rounding never passes a representable magnitude from above. -/
theorem le_roundMag {num den c : Nat} (hd : 0 < den) (hc : c ≤ infMag) (h : magUnits c * den ≤ num) :
    c ≤ roundMag num den := by
  unfold roundMag
  simp only
  refine Nat.le_min.2 ⟨?_, hc⟩
  rw [← magUnits_le_iff, magUnits_roundHalfEven hd]
  set s := spacingExp (num / den) with hs
  have hd' : 0 < den * 2 ^ s := by positivity
  have hb := (roundHalfEven_block (num := num) hd).1
  rw [← hs] at hb
  by_cases hsmall : magUnits c < 2 ^ (s + 23)
  · rcases hb with h0 | hn
    · refine le_trans ?_ (Nat.mul_le_mul_right _ (le_roundHalfEven (k := magUnits c) hd' ?_))
      · simp [h0]
      · simpa [h0] using h
    · calc magUnits c ≤ 2 ^ 23 * 2 ^ s := by rw [← pow_add, add_comm]; exact hsmall.le
        _ ≤ _ := Nat.mul_le_mul_right _ hn
  · obtain ⟨k, hk⟩ := dvd_magUnits (Nat.le_of_not_lt hsmall)
    rw [hk, mul_comm]
    refine Nat.mul_le_mul_right _ (le_roundHalfEven hd' ?_)
    calc k * (den * 2 ^ s) = magUnits c * den := by rw [hk]; ring
      _ ≤ num := h

/-- A representable magnitude rounds to itself. -/
theorem roundMag_exact {num den c : Nat} (hd : 0 < den) (hc : c ≤ infMag) (h : num = magUnits c * den) :
    roundMag num den = c :=
  le_antisymm (roundMag_le hd h.le) (le_roundMag hd hc h.ge)

@[simp] theorem roundMag_zero {den : Nat} (hd : 0 < den) : roundMag 0 den = 0 :=
  roundMag_exact hd (by simp) (by simp)

/-- Rounding keeps the order of exact magnitudes. -/
theorem roundMag_mono {num den num' den' : Nat} (hd : 0 < den) (hd' : 0 < den')
    (h : num * den' ≤ num' * den) : roundMag num den ≤ roundMag num' den' := by
  set c := roundMag num' den' with hc
  have hq : num / den ≤ num' / den' := by
    refine (Nat.le_div_iff_mul_le hd').2 ?_
    have h1 := Nat.div_mul_le_self num den
    refine Nat.le_of_mul_le_mul_right (c := den) ?_ hd
    calc num / den * den' * den = num / den * den * den' := by ring
      _ ≤ num * den' := Nat.mul_le_mul_right _ h1
      _ ≤ num' * den := h
  have hs : spacingExp (num / den) ≤ spacingExp (num' / den') := by
    unfold spacingExp
    refine Nat.sub_le_sub_right ?_ 23
    by_cases h0 : num / den = 0
    · simp [h0]
    · exact (Nat.le_log2 (fun h1 => h0 (Nat.le_zero.1 (h1 ▸ hq)))).2 (le_trans (Nat.log2_self_le h0) hq)
  rcases Nat.lt_or_eq_of_le hs with hs | hs
  · have hd1 : 0 < den * 2 ^ spacingExp (num / den) := by positivity
    have hb := roundHalfEven_block (num := num) hd
    have hb' := (roundHalfEven_block (num := num') hd').1
    have hr : roundMag num den ≤ spacingExp (num / den) * 2 ^ 23 + 2 ^ 24 := by
      unfold roundMag; simp only; exact le_trans (Nat.min_le_left _ _) (Nat.add_le_add_left hb.2 _)
    have hr' : min (spacingExp (num' / den') * 2 ^ 23 + 2 ^ 23) infMag ≤ c := by
      rw [hc]; unfold roundMag; simp only
      refine min_le_min_right _ (Nat.add_le_add_left ?_ _)
      rcases hb' with h0 | h1
      · omega
      · exact h1
    have hi := roundMag_le_infMag num den
    rcases Nat.le_total (spacingExp (num' / den') * 2 ^ 23 + 2 ^ 23) infMag with hm | hm
    · rw [Nat.min_eq_left hm] at hr'; omega
    · rw [Nat.min_eq_right hm] at hr'; omega
  · have key : roundHalfEven num (den * 2 ^ spacingExp (num / den)) ≤
        roundHalfEven num' (den' * 2 ^ spacingExp (num' / den')) := by
      rw [hs]
      set s := spacingExp (num' / den')
      refine roundHalfEven_mono (by positivity) (by positivity) ?_
      calc num * (den' * 2 ^ s) = num * den' * 2 ^ s := by ring
        _ ≤ num' * den * 2 ^ s := Nat.mul_le_mul_right _ h
        _ = num' * (den * 2 ^ s) := by ring
    rw [hc]
    unfold roundMag
    simp only
    rw [hs] at key ⊢
    exact min_le_min_right _ (Nat.add_le_add_left key _)

/-! ## Overflow -/

theorem magUnits_infMag : magUnits infMag = 2 ^ 277 := by decide +kernel

theorem magUnits_largest : magUnits (infMag - 1) = (2 ^ 24 - 1) * 2 ^ 253 := by decide +kernel

/-- In the last block below infinity, rounding goes up exactly from its midpoint on. -/
theorem roundHalfEven_top {num d : Nat} (hlo : (2 ^ 24 - 1) * (2 * d) ≤ num) (hhi : num < 2 ^ 24 * (2 * d)) :
    roundHalfEven num (2 * d) = if (2 ^ 25 - 1) * d ≤ num then 2 ^ 24 else 2 ^ 24 - 1 := by
  have hq : num / (2 * d) = 2 ^ 24 - 1 := by
    refine Nat.div_eq_of_lt_le ?_ ?_
    · exact hlo
    · exact hhi
  have hr : num % (2 * d) + (2 ^ 24 - 1) * (2 * d) = num := by
    rw [← hq]; exact Nat.mod_add_div' num (2 * d)
  unfold roundHalfEven
  simp only [hq]
  have hiff : (2 * d < 2 * (num % (2 * d)) ∨ 2 * (num % (2 * d)) = 2 * d ∧ (2 ^ 24 - 1) % 2 = 1) ↔
      (2 ^ 25 - 1) * d ≤ num := by omega
  simp only [hiff]
  norm_num

/-- Rounding overflows exactly from 2^128 - 2^103 on, midway between the largest finite binary32 and 2^128. -/
theorem roundMag_eq_infMag_iff {num den : Nat} (hd : 0 < den) :
    roundMag num den = infMag ↔ (2 ^ 25 - 1) * (2 ^ 252 * den) ≤ num := by
  have hinf : infMag = 0x7F800000 := rfl
  have hle := roundMag_le_infMag num den
  have hT : (2 ^ 253 : Nat) * den = 2 * (2 ^ 252 * den) := by rw [← mul_assoc]; rfl
  have hT' : (2 ^ 277 : Nat) * den = 2 ^ 24 * (2 * (2 ^ 252 * den)) := by
    rw [← hT, ← mul_assoc, ← pow_add]
  have hpos : 0 < 2 ^ 252 * den := by positivity
  generalize hD : 2 ^ 252 * den = D at *
  by_cases hlo : num ≤ magUnits (infMag - 1) * den
  · have h1 := roundMag_le hd hlo
    rw [magUnits_largest, mul_assoc, hT] at hlo
    omega
  by_cases hhi : magUnits infMag * den ≤ num
  · have h1 := le_roundMag hd le_rfl hhi
    rw [magUnits_infMag, hT'] at hhi
    omega
  rw [magUnits_largest, mul_assoc, hT, not_le] at hlo
  rw [magUnits_infMag, not_le] at hhi
  have hs : spacingExp (num / den) = 253 := by
    have q1 : 2 ^ 276 ≤ num / den := by
      refine (Nat.le_div_iff_mul_le hd).2 ?_
      have : (2 ^ 276 : Nat) * den = 2 ^ 23 * (2 * D) := by rw [← hT, ← mul_assoc, ← pow_add]
      omega
    have q2 : num / den < 2 ^ 277 := (Nat.div_lt_iff_lt_mul hd).2 hhi
    have q0 : num / den ≠ 0 := Nat.ne_of_gt (lt_of_lt_of_le (by positivity) q1)
    unfold spacingExp
    rw [(Nat.log2_eq_iff q0).2 ⟨q1, q2⟩]
  rw [hT'] at hhi
  unfold roundMag
  simp only [hs]
  rw [mul_comm den, hT, roundHalfEven_top hlo.le hhi, hinf]
  split <;> omega

end Sys2Proof.Machine
end

