-- ==== Sys2Proof/Laws/Float.lean ====
section
/-! SUPPORT. Binary32 (spec 00 R10 to R16): what each pattern is, when an operation answers a NaN, and that the rounded
result of an operation never passes a binary32 value that the exact result does not pass. -/

namespace Sys2Proof.Machine

/-! ## Patterns -/

theorem magBits_lt (x : Word) : magBits x < 2 ^ 31 := Nat.mod_lt _ (by norm_num)

theorem toNat_eq (x : Word) : x.toNat = magBits x + if signBit x then 2 ^ 31 else 0 := by
  have := x.isLt
  by_cases h : 2 ^ 31 ≤ x.toNat
  · simp only [magBits, signBit, h, decide_true, if_true]; omega
  · simp only [magBits, signBit, h, decide_false, Bool.false_eq_true, if_false]; omega

theorem toNat_pack (n : Bool) {m : Nat} (h : m < 2 ^ 31) :
    (pack n m).toNat = m + if n then 2 ^ 31 else 0 := by
  simp only [pack, BitVec.toNat_ofNat]
  cases n <;> simp only [if_true, if_false, Bool.false_eq_true] <;> omega

@[simp] theorem signBit_pack (n : Bool) {m : Nat} (h : m < 2 ^ 31) : signBit (pack n m) = n := by
  simp only [signBit, toNat_pack n h]
  cases n <;> simp only [if_true, if_false, Bool.false_eq_true, decide_eq_true_eq, decide_eq_false_iff_not] <;> omega

@[simp] theorem magBits_pack (n : Bool) {m : Nat} (h : m < 2 ^ 31) : magBits (pack n m) = m := by
  simp only [magBits, toNat_pack n h]
  cases n <;> simp only [if_true, if_false, Bool.false_eq_true] <;> omega

theorem eq_of_parts {x y : Word} (hs : signBit x = signBit y) (hm : magBits x = magBits y) : x = y := by
  apply BitVec.eq_of_toNat_eq
  rw [toNat_eq x, toNat_eq y, hs, hm]

@[simp] theorem pack_parts (x : Word) : pack (signBit x) (magBits x) = x :=
  eq_of_parts (signBit_pack _ (magBits_lt x)) (magBits_pack _ (magBits_lt x))

theorem infMag_lt : infMag < 2 ^ 31 := by decide

theorem roundMag_lt (num den : Nat) : roundMag num den < 2 ^ 31 :=
  lt_of_le_of_lt (roundMag_le_infMag num den) infMag_lt

theorem isNaN_eq_false {x : Word} : isNaN x = false ↔ magBits x ≤ infMag := by
  simp [isNaN]

theorem isFinite_iff {x : Word} : isFinite x = true ↔ magBits x < infMag := by
  simp [isFinite]

theorem isFinite_eq_false {x : Word} : isFinite x = false ↔ infMag ≤ magBits x := by
  simp [isFinite]

theorem isInf_iff {x : Word} : isInf x = true ↔ magBits x = infMag := by
  simp [isInf]

theorem isZero_iff_mag {x : Word} : isZero x = true ↔ magBits x = 0 := by
  simp [isZero]

theorem isInf_not_isZero {x : Word} (h : isInf x = true) : isZero x = false := by
  rw [isInf_iff] at h
  simp [isZero, h, infMag]

theorem isInf_not_isFinite {x : Word} (h : isInf x = true) : isFinite x = false := by
  rw [isInf_iff] at h
  rw [isFinite_eq_false, h]

theorem isZero_isFinite {x : Word} (h : isZero x = true) : isFinite x = true := by
  rw [isZero_iff_mag] at h
  rw [isFinite_iff, h]; decide

theorem isFinite_not_isNaN {x : Word} (h : isFinite x = true) : isNaN x = false := by
  rw [isFinite_iff] at h; rw [isNaN_eq_false]; omega

theorem isFinite_not_isInf {x : Word} (h : isFinite x = true) : isInf x = false := by
  rw [isFinite_iff] at h; simp only [isInf, decide_eq_false_iff_not]; omega

theorem isNaN_not_isFinite {x : Word} (h : isNaN x = true) : isFinite x = false := by
  rw [← Bool.not_eq_true]
  intro hf
  rw [isFinite_not_isNaN hf] at h
  cases h

/-- Every binary32 is a NaN, an infinity or finite. -/
theorem word_cases (x : Word) : isNaN x = true ∨ isInf x = true ∨ isFinite x = true := by
  simp only [isNaN, isInf, isFinite, decide_eq_true_eq]; omega

@[simp] theorem signBit_fneg (x : Word) : signBit (fneg x) = !signBit x := signBit_pack _ (magBits_lt x)

@[simp] theorem magBits_fneg (x : Word) : magBits (fneg x) = magBits x := magBits_pack _ (magBits_lt x)

@[simp] theorem isNaN_fneg (x : Word) : isNaN (fneg x) = isNaN x := by simp [isNaN]

@[simp] theorem isInf_fneg (x : Word) : isInf (fneg x) = isInf x := by simp [isInf]

@[simp] theorem isFinite_fneg (x : Word) : isFinite (fneg x) = isFinite x := by simp [isFinite]

@[simp] theorem isZero_fneg (x : Word) : isZero (fneg x) = isZero x := by simp [isZero]

@[simp] theorem signBit_fabs (x : Word) : signBit (fabs x) = false := signBit_pack _ (magBits_lt x)

@[simp] theorem magBits_fabs (x : Word) : magBits (fabs x) = magBits x := magBits_pack _ (magBits_lt x)

@[simp] theorem isNaN_fabs (x : Word) : isNaN (fabs x) = isNaN x := by simp [isNaN]

@[simp] theorem isFinite_fabs (x : Word) : isFinite (fabs x) = isFinite x := by simp [isFinite]

/-! ## NaN results -/

@[simp] theorem isNaN_asNaN (w : Word) : isNaN (asNaN w) = true := by
  unfold asNaN
  split
  · assumption
  · have h : 0x7FC00000 + magBits w % 2 ^ 22 < 2 ^ 31 := by omega
    simp only [isNaN, magBits_pack _ h, infMag, decide_eq_true_eq]
    omega

theorem asNaN_of_isNaN {w : Word} (h : isNaN w = true) : asNaN w = w := by simp [asNaN, h]

@[simp] theorem isNaN_nanResult (op : FloatOp) (a b : Word) : isNaN (nanResult op a b) = true := isNaN_asNaN _

@[simp] theorem isNaN_drawNaN (n : Nat) : isNaN (drawNaN n) = true := isNaN_asNaN _

/-! ## Values and their order -/

theorem units_pack (n : Bool) {m : Nat} (h : m < 2 ^ 31) :
    units (pack n m) = if n then -(magUnits m : Int) else magUnits m := by
  simp only [units, signBit_pack n h, magBits_pack n h]

@[simp] theorem units_fneg (x : Word) : units (fneg x) = -units x := by
  simp only [units, signBit_fneg, magBits_fneg]
  cases signBit x <;> simp

@[simp] theorem units_fabs (x : Word) : units (fabs x) = |units x| := by
  simp only [units, signBit_fabs, magBits_fabs]
  cases signBit x <;> simp

/-- The value of a binary32 ascends strictly with its place in the order of 00 R12. -/
theorem units_lt_iff {a b : Word} : units a < units b ↔ orderKey a < orderKey b := by
  have h1 := @magUnits_lt_iff (magBits a) (magBits b)
  have h2 := @magUnits_lt_iff (magBits b) (magBits a)
  have h3 := @magUnits_eq_zero (magBits a)
  have h4 := @magUnits_eq_zero (magBits b)
  unfold units orderKey
  cases signBit a <;> cases signBit b <;> simp only [if_true, if_false, Bool.false_eq_true] <;> omega

theorem units_le_iff {a b : Word} : units a ≤ units b ↔ orderKey a ≤ orderKey b := by
  rw [← not_lt, ← not_lt, units_lt_iff]

theorem flt_iff {a b : Word} : flt a b = true ↔ isNaN a = false ∧ isNaN b = false ∧ units a < units b := by
  simp [flt, units_lt_iff, and_assoc]

theorem fle_iff {a b : Word} : fle a b = true ↔ isNaN a = false ∧ isNaN b = false ∧ units a ≤ units b := by
  simp [fle, units_le_iff, and_assoc]

theorem feq_iff {a b : Word} : feq a b = true ↔ isNaN a = false ∧ isNaN b = false ∧ units a = units b := by
  have h1 := @units_le_iff a b
  have h2 := @units_le_iff b a
  simp only [feq, Bool.and_eq_true, Bool.not_eq_true', decide_eq_true_eq, and_assoc]
  refine and_congr_right fun _ => and_congr_right fun _ => ?_
  omega

theorem flt_false_of {a b : Word} (ha : isNaN a = false) (hb : isNaN b = false) (h : flt a b = false) :
    units b ≤ units a := by
  by_contra hc
  rw [← Bool.not_eq_true, flt_iff] at h
  exact h ⟨ha, hb, not_le.1 hc⟩

theorem fle_false_of {a b : Word} (ha : isNaN a = false) (hb : isNaN b = false) (h : fle a b = false) :
    units b < units a := by
  by_contra hc
  rw [← Bool.not_eq_true, fle_iff] at h
  exact h ⟨ha, hb, not_lt.1 hc⟩

theorem isZero_iff {x : Word} : isZero x = true ↔ units x = 0 := by
  have h := @magUnits_eq_zero (magBits x)
  simp only [isZero, decide_eq_true_eq, units]
  split <;> omega

theorem units_nonneg_of_sign {x : Word} (h : signBit x = false) : 0 ≤ units x := by
  simp [units, h]

theorem sign_of_units_pos {x : Word} (h : 0 < units x) : signBit x = false := by
  unfold units at h
  cases hs : signBit x
  · rfl
  · rw [hs] at h; simp only [if_true] at h; omega

theorem sign_of_units_neg {x : Word} (h : units x < 0) : signBit x = true := by
  unfold units at h
  cases hs : signBit x
  · rw [hs] at h; simp only [if_false, Bool.false_eq_true] at h; omega
  · rfl

/-- A binary32 that is not a zero is known by its value. -/
theorem eq_of_units {a b : Word} (h : units a = units b) (h0 : units a ≠ 0) : a = b := by
  have hs : signBit a = signBit b := by
    rcases lt_or_gt_of_ne h0 with hn | hp
    · rw [sign_of_units_neg hn, sign_of_units_neg (h ▸ hn)]
    · rw [sign_of_units_pos hp, sign_of_units_pos (h ▸ hp)]
  refine eq_of_parts hs (magUnits_inj ?_)
  unfold units at h
  rw [hs] at h
  split at h <;> omega

theorem natAbs_units (x : Word) : (units x).natAbs = magUnits (magBits x) := by
  unfold units; split <;> simp

/-- A magnitude not above a finite one is finite. -/
theorem isFinite_of_bounds {x lo hi : Word} (hlo : isFinite lo = true) (hhi : isFinite hi = true)
    (h1 : units lo ≤ units x) (h2 : units x ≤ units hi) : isFinite x = true := by
  rw [isFinite_iff] at *
  have hx := natAbs_units x
  have hl := natAbs_units lo
  have hh := natAbs_units hi
  have : magUnits (magBits x) < magUnits infMag := by
    have a := magUnits_lt_iff.2 hlo
    have b := magUnits_lt_iff.2 hhi
    omega
  exact magUnits_lt_iff.1 this

/-! ## One rounding -/

@[simp] theorem isNaN_round (n : Bool) (num den : Nat) : isNaN (pack n (roundMag num den)) = false := by
  rw [isNaN_eq_false, magBits_pack n (roundMag_lt num den)]
  exact roundMag_le_infMag num den

/-- A rounded signed quotient does not pass a binary32 value above the exact quotient. -/
theorem units_round_le {n : Bool} {num den : Nat} {c : Word} (hd : 0 < den) (hc : isNaN c = false)
    (h : (if n then -(num : Int) else num) ≤ units c * den) : units (pack n (roundMag num den)) ≤ units c := by
  rw [units_pack n (roundMag_lt num den)]
  rw [isNaN_eq_false] at hc
  have hd' : (0 : Int) < den := by exact_mod_cast hd
  unfold units at *
  cases n <;> cases hs : signBit c <;> simp only [hs, if_true, if_false, Bool.false_eq_true] at *
  · exact_mod_cast magUnits_le_iff.2 (roundMag_le hd (by exact_mod_cast h))
  · have h1 : (0 : Int) ≤ magUnits (magBits c) * den := by positivity
    have h2 : num = 0 := by
      have : (num : Int) ≤ 0 := by nlinarith
      omega
    have h3 : magUnits (magBits c) = 0 := by
      by_contra h0
      have : (0 : Int) < magUnits (magBits c) * den := by positivity
      rw [h2] at h
      push_cast at h
      linarith
    simp [h2, hd, h3]
  · have : (0 : Int) ≤ magUnits (roundMag num den) := by positivity
    omega
  · have h1 : magUnits (magBits c) * den ≤ num := by
      have : (magUnits (magBits c) : Int) * den ≤ num := by linarith
      exact_mod_cast this
    have := magUnits_le_iff.2 (le_roundMag hd hc h1)
    omega

/-- A rounded signed quotient does not pass a binary32 value below the exact quotient. -/
theorem le_units_round {n : Bool} {num den : Nat} {c : Word} (hd : 0 < den) (hc : isNaN c = false)
    (h : units c * den ≤ (if n then -(num : Int) else num)) : units c ≤ units (pack n (roundMag num den)) := by
  have h' : (if !n then -(num : Int) else num) ≤ units (fneg c) * den := by
    rw [units_fneg]
    cases n <;> simp only [if_true, if_false, Bool.false_eq_true, Bool.not_true, Bool.not_false] at * <;> linarith
  have := units_round_le (n := !n) hd (by rwa [isNaN_fneg]) h'
  rw [units_fneg, units_pack _ (roundMag_lt num den)] at this
  rw [units_pack _ (roundMag_lt num den)]
  cases n <;> simp only [if_true, if_false, Bool.false_eq_true, Bool.not_true, Bool.not_false] at * <;> omega

@[simp] theorem isNaN_roundInt (z : Int) (b : Bool) : isNaN (roundInt z b) = false := isNaN_round _ _ _

theorem roundInt_sign (z : Int) (b : Bool) :
    (if (if z = 0 then b else decide (z < 0)) then -(z.natAbs : Int) else z.natAbs) = z := by
  by_cases h0 : z = 0
  · subst h0; cases b <;> simp
  · by_cases hn : z < 0
    · simp only [if_neg h0, hn, decide_true, if_true]; omega
    · simp only [if_neg h0, hn, decide_false, Bool.false_eq_true, if_false]; omega

theorem units_roundInt_le {z : Int} {b : Bool} {c : Word} (hc : isNaN c = false) (h : z ≤ units c) :
    units (roundInt z b) ≤ units c :=
  units_round_le (by norm_num) hc (by rw [roundInt_sign]; simpa using h)

theorem le_units_roundInt {z : Int} {b : Bool} {c : Word} (hc : isNaN c = false) (h : units c ≤ z) :
    units c ≤ units (roundInt z b) :=
  le_units_round (by norm_num) hc (by rw [roundInt_sign]; simpa using h)

/-- An exact value that is representable is not changed by rounding. -/
theorem units_roundInt_of_eq {z : Int} {b : Bool} {c : Word} (hc : isNaN c = false) (h : z = units c) :
    units (roundInt z b) = units c :=
  le_antisymm (units_roundInt_le hc h.le) (le_units_roundInt hc h.ge)

theorem roundInt_of_ne_zero {z : Int} {b : Bool} {c : Word} (hc : isNaN c = false) (h : z = units c) (h0 : z ≠ 0) :
    roundInt z b = c :=
  eq_of_units (units_roundInt_of_eq hc h) (by rw [units_roundInt_of_eq hc h, ← h]; exact h0)

@[simp] theorem roundInt_zero (b : Bool) : roundInt 0 b = pack b 0 := by
  simp [roundInt]

/-- A rounded magnitude is finite exactly below the overflow threshold. -/
theorem isFinite_round {n : Bool} {num den : Nat} (hd : 0 < den) :
    isFinite (pack n (roundMag num den)) = true ↔ num < (2 ^ 25 - 1) * (2 ^ 252 * den) := by
  have h1 := roundMag_eq_infMag_iff (num := num) hd
  have h2 := roundMag_le_infMag num den
  rw [isFinite_iff, magBits_pack _ (roundMag_lt _ _), ← Nat.not_le (a := (2 ^ 25 - 1) * (2 ^ 252 * den)), ← h1]
  omega

/-- A rounded magnitude that is not finite is the infinity of its sign. -/
theorem round_not_finite {n : Bool} {num den : Nat} (h : isFinite (pack n (roundMag num den)) = false) :
    pack n (roundMag num den) = pack n infMag := by
  rw [isFinite_eq_false, magBits_pack _ (roundMag_lt _ _)] at h
  rw [le_antisymm (roundMag_le_infMag num den) h]

/-- A whole number of at most 24 bits, scaled by a power of two in range, is the value of a binary32. -/
theorem exists_units {k : Int} {s : Nat} (hk : k.natAbs ≤ 2 ^ 24) (hs : s ≤ 253) :
    ∃ c : Word, isNaN c = false ∧ units c = k * 2 ^ s := by
  obtain ⟨m, h1, h2⟩ := exists_magUnits hk hs
  have hm : m < 2 ^ 31 := lt_of_le_of_lt h1 infMag_lt
  refine ⟨pack (decide (k < 0)) m, by rw [isNaN_eq_false, magBits_pack _ hm]; exact h1, ?_⟩
  rw [units_pack _ hm, h2]
  by_cases h : k < 0
  · simp only [h, decide_true, if_true]; push_cast; rw [abs_of_neg h]; ring
  · simp only [h, decide_false, Bool.false_eq_true, if_false]; push_cast; rw [abs_of_nonneg (not_lt.1 h)]

/-- The floor of a finite value is exact (00 R13). -/
theorem units_ffloor {p : Word} (h : isFinite p = true) :
    isNaN (ffloor p) = false ∧ units (ffloor p) = units p / 2 ^ 149 * 2 ^ 149 := by
  rw [ffloor, if_pos h]
  refine ⟨isNaN_roundInt _ _, ?_⟩
  by_cases hb : (units p).natAbs < 2 ^ 172
  · obtain ⟨c, h1, h2⟩ := exists_units (k := units p / 2 ^ 149) (s := 149) (by omega) (by norm_num)
    rw [units_roundInt_of_eq h1 h2.symm, h2]
  · have hd : ((2 ^ 149 : Nat) : Int) ∣ units p := by
      rw [Int.natCast_dvd, natAbs_units]
      exact dvd_magUnits (by rw [← natAbs_units]; exact not_lt.1 hb)
    rw [Nat.cast_pow, Nat.cast_ofNat] at hd
    rw [units_roundInt_of_eq (isFinite_not_isNaN h) (Int.ediv_mul_cancel hd), Int.ediv_mul_cancel hd]

/-! ## The operations on finite operands -/

theorem fadd_finite {a b : Word} (ha : isFinite a = true) (hb : isFinite b = true) :
    fadd a b = roundInt (units a + units b) (signBit a && signBit b) := by
  simp [fadd, isFinite_not_isNaN ha, isFinite_not_isNaN hb, isFinite_not_isInf ha, isFinite_not_isInf hb]

theorem fsub_finite {a b : Word} (ha : isFinite a = true) (hb : isFinite b = true) :
    fsub a b = roundInt (units a - units b) (signBit a && !signBit b) := by
  rw [fsub, fadd_finite ha (by simpa using hb), units_fneg, signBit_fneg]; rfl

theorem fmul_finite {a b : Word} (ha : isFinite a = true) (hb : isFinite b = true) :
    fmul a b = pack (signBit a != signBit b) (roundMag (magUnits (magBits a) * magUnits (magBits b)) (2 ^ 149)) := by
  simp [fmul, isFinite_not_isNaN ha, isFinite_not_isNaN hb, isFinite_not_isInf ha, isFinite_not_isInf hb]

theorem fdiv_finite {a b : Word} (ha : isFinite a = true) (hb : isFinite b = true) (h0 : isZero b = false) :
    fdiv a b = pack (signBit a != signBit b) (roundMag (magUnits (magBits a) * 2 ^ 149) (magUnits (magBits b))) := by
  simp [fdiv, isFinite_not_isNaN ha, isFinite_not_isNaN hb, isFinite_not_isInf ha, isFinite_not_isInf hb, h0]

/-- The exact product of two values with its sign. -/
theorem units_mul (a b : Word) :
    (if (signBit a != signBit b) then -((magUnits (magBits a) * magUnits (magBits b) : Nat) : Int)
      else ((magUnits (magBits a) * magUnits (magBits b) : Nat) : Int)) = units a * units b := by
  unfold units
  cases signBit a <;> cases signBit b <;> simp

section Bounds
variable {a b c : Word}

theorem fadd_not_isNaN (ha : isFinite a = true) (hb : isFinite b = true) : isNaN (fadd a b) = false := by
  rw [fadd_finite ha hb]; simp

theorem fsub_not_isNaN (ha : isFinite a = true) (hb : isFinite b = true) : isNaN (fsub a b) = false := by
  rw [fsub_finite ha hb]; simp

theorem fmul_not_isNaN (ha : isFinite a = true) (hb : isFinite b = true) : isNaN (fmul a b) = false := by
  rw [fmul_finite ha hb]; simp

theorem fdiv_not_isNaN (ha : isFinite a = true) (hb : isFinite b = true) (h0 : isZero b = false) :
    isNaN (fdiv a b) = false := by
  rw [fdiv_finite ha hb h0]; simp

theorem fadd_le (ha : isFinite a = true) (hb : isFinite b = true) (hc : isNaN c = false)
    (h : units a + units b ≤ units c) : units (fadd a b) ≤ units c := by
  rw [fadd_finite ha hb]; exact units_roundInt_le hc h

theorem le_fadd (ha : isFinite a = true) (hb : isFinite b = true) (hc : isNaN c = false)
    (h : units c ≤ units a + units b) : units c ≤ units (fadd a b) := by
  rw [fadd_finite ha hb]; exact le_units_roundInt hc h

theorem fsub_le (ha : isFinite a = true) (hb : isFinite b = true) (hc : isNaN c = false)
    (h : units a - units b ≤ units c) : units (fsub a b) ≤ units c := by
  rw [fsub_finite ha hb]; exact units_roundInt_le hc h

theorem le_fsub (ha : isFinite a = true) (hb : isFinite b = true) (hc : isNaN c = false)
    (h : units c ≤ units a - units b) : units c ≤ units (fsub a b) := by
  rw [fsub_finite ha hb]; exact le_units_roundInt hc h

theorem fmul_le (ha : isFinite a = true) (hb : isFinite b = true) (hc : isNaN c = false)
    (h : units a * units b ≤ units c * 2 ^ 149) : units (fmul a b) ≤ units c := by
  rw [fmul_finite ha hb]
  exact units_round_le (by positivity) hc (by rw [units_mul]; exact_mod_cast h)

theorem le_fmul (ha : isFinite a = true) (hb : isFinite b = true) (hc : isNaN c = false)
    (h : units c * 2 ^ 149 ≤ units a * units b) : units c ≤ units (fmul a b) := by
  rw [fmul_finite ha hb]
  exact le_units_round (by positivity) hc (by rw [units_mul]; exact_mod_cast h)

theorem fdiv_num (hb : 0 < units b) :
    (if (signBit a != signBit b) then -((magUnits (magBits a) * 2 ^ 149 : Nat) : Int)
      else ((magUnits (magBits a) * 2 ^ 149 : Nat) : Int)) = units a * 2 ^ 149 := by
  rw [sign_of_units_pos hb]
  unfold units
  cases signBit a <;> simp

theorem magUnits_of_pos (hb : 0 < units b) : (magUnits (magBits b) : Int) = units b := by
  have := sign_of_units_pos hb
  simp [units, this]

theorem fdiv_le (ha : isFinite a = true) (hb : isFinite b = true) (hb0 : 0 < units b) (hc : isNaN c = false)
    (h : units a * 2 ^ 149 ≤ units c * units b) : units (fdiv a b) ≤ units c := by
  have h0 : isZero b = false := by
    rw [← Bool.not_eq_true, isZero_iff]; omega
  have hm := magUnits_of_pos hb0
  rw [fdiv_finite ha hb h0]
  exact units_round_le (by omega) hc (by rw [fdiv_num hb0, hm]; exact h)

theorem le_fdiv (ha : isFinite a = true) (hb : isFinite b = true) (hb0 : 0 < units b) (hc : isNaN c = false)
    (h : units c * units b ≤ units a * 2 ^ 149) : units c ≤ units (fdiv a b) := by
  have h0 : isZero b = false := by
    rw [← Bool.not_eq_true, isZero_iff]; omega
  have hm := magUnits_of_pos hb0
  rw [fdiv_finite ha hb h0]
  exact le_units_round (by omega) hc (by rw [fdiv_num hb0, hm]; exact h)

end Bounds

/-! ## Zeros and ones -/

@[simp] theorem isZero_pack_zero (n : Bool) : isZero (pack n 0) = true := by
  rw [isZero_iff_mag, magBits_pack n (by norm_num)]

theorem units_of_isZero {x : Word} (h : isZero x = true) : units x = 0 := isZero_iff.1 h

theorem eq_pack_of_isZero {x : Word} (h : isZero x = true) : x = pack (signBit x) 0 := by
  rw [isZero_iff_mag] at h
  rw [← h, pack_parts]

/-- A zero added to a value that is no zero changes nothing. -/
theorem fadd_zero_right {a b : Word} (ha : isFinite a = true) (hz : isZero a = false) (hb : isZero b = true) :
    fadd a b = a := by
  have h0 : units a ≠ 0 := fun h => by rw [isZero_iff.2 h] at hz; cases hz
  rw [fadd_finite ha (isZero_isFinite hb), units_of_isZero hb, add_zero]
  exact roundInt_of_ne_zero (isFinite_not_isNaN ha) rfl h0

theorem fadd_zero_left {a b : Word} (hb : isFinite b = true) (hz : isZero b = false) (ha : isZero a = true) :
    fadd a b = b := by
  have h0 : units b ≠ 0 := fun h => by rw [isZero_iff.2 h] at hz; cases hz
  rw [fadd_finite (isZero_isFinite ha) hb, units_of_isZero ha, zero_add]
  exact roundInt_of_ne_zero (isFinite_not_isNaN hb) rfl h0

/-- The sum of two zeros is `-0` only when both are `-0`. -/
theorem fadd_zeros {a b : Word} (ha : isZero a = true) (hb : isZero b = true) :
    fadd a b = pack (signBit a && signBit b) 0 := by
  rw [fadd_finite (isZero_isFinite ha) (isZero_isFinite hb), units_of_isZero ha, units_of_isZero hb]
  simp

/-- The difference of equal finite values is a zero. -/
theorem fsub_isZero {a b : Word} (ha : isFinite a = true) (hb : isFinite b = true) (h : units a = units b) :
    isZero (fsub a b) = true := by
  rw [fsub_finite ha hb, h, sub_self]
  simp

/-- It is `-0` only for `-0` less `+0`. -/
theorem fsub_self_sign {a b : Word} (ha : isFinite a = true) (hb : isFinite b = true) (h : units a = units b) :
    signBit (fsub a b) = (signBit a && !signBit b) := by
  rw [fsub_finite ha hb, h, sub_self, roundInt_zero, signBit_pack _ (by norm_num)]

theorem fmul_isZero_left {a b : Word} (ha : isZero a = true) (hb : isFinite b = true) : isZero (fmul a b) = true := by
  rw [fmul_finite (isZero_isFinite ha) hb, isZero_iff_mag.1 ha]
  simp

theorem fmul_isZero_right {a b : Word} (ha : isFinite a = true) (hb : isZero b = true) : isZero (fmul a b) = true := by
  rw [fmul_finite ha (isZero_isFinite hb), isZero_iff_mag.1 hb]
  simp

theorem signBit_fmul {a b : Word} (ha : isFinite a = true) (hb : isFinite b = true) :
    signBit (fmul a b) = (signBit a != signBit b) := by
  rw [fmul_finite ha hb, signBit_pack _ (roundMag_lt _ _)]

/-- A zero over a nonzero value that is no NaN is a zero. -/
theorem fdiv_isZero {a b : Word} (ha : isZero a = true) (hb : isNaN b = false) (h0 : isZero b = false) :
    isZero (fdiv a b) = true := by
  have hfa := isZero_isFinite ha
  rcases word_cases b with h | h | h
  · rw [hb] at h; cases h
  · simp [fdiv, isFinite_not_isNaN hfa, hb, isFinite_not_isInf hfa, h]
  · have : 0 < magUnits (magBits b) := by
      rcases Nat.eq_zero_or_pos (magUnits (magBits b)) with h1 | h1
      · rw [isZero_iff_mag.2 (magUnits_eq_zero.1 h1)] at h0; cases h0
      · exact h1
    rw [fdiv_finite hfa h h0, isZero_iff_mag.1 ha]
    simp [this]

/-- Multiplication by 1.0 is exact. -/
theorem fmul_one {a : Word} (ha : isNaN a = false) : fmul a 0x3F800000 = a := by
  have hs : signBit 0x3F800000 = false := by decide
  have hf : isFinite 0x3F800000 = true := by decide
  have hu : magUnits (magBits 0x3F800000) = 2 ^ 149 := by decide +kernel
  rcases word_cases a with h | h | h
  · rw [ha] at h; cases h
  · have hz : isZero (0x3F800000 : Word) = false := by decide
    simp only [fmul, ha, isFinite_not_isNaN hf, h, isInf_not_isZero h, hz, hs, Bool.or_false, Bool.false_eq_true,
      if_true, if_false, Bool.bne_false, Bool.true_or]
    rw [← isInf_iff.1 h, pack_parts]
  · rw [fmul_finite h hf, hs, hu, Bool.bne_false,
      roundMag_exact (c := magBits a) (by positivity) (isNaN_eq_false.1 ha) rfl, pack_parts]

/-! ## When an operation answers a NaN -/

theorem isNaN_fadd {a b : Word} :
    isNaN (fadd a b) = true ↔
      isNaN a = true ∨ isNaN b = true ∨ (isInf a = true ∧ isInf b = true ∧ signBit a ≠ signBit b) := by
  unfold fadd
  cases hna : isNaN a
  · cases hnb : isNaN b
    · cases hia : isInf a
      · cases hib : isInf b
        · simp
        · simp [hnb]
      · cases hib : isInf b
        · simp [hna]
        · by_cases hs : signBit a = signBit b
          · simp [hs, hna]
          · simp [hs]
    · simp
  · simp

theorem isNaN_fsub {a b : Word} :
    isNaN (fsub a b) = true ↔
      isNaN a = true ∨ isNaN b = true ∨ (isInf a = true ∧ isInf b = true ∧ signBit a = signBit b) := by
  rw [fsub, isNaN_fadd, isNaN_fneg, isInf_fneg, signBit_fneg]
  cases signBit a <;> cases signBit b <;> simp

theorem isNaN_inf (n : Bool) : isNaN (pack n infMag) = false := by
  rw [isNaN_eq_false, magBits_pack n infMag_lt]

theorem isNaN_zero (n : Bool) : isNaN (pack n 0) = false := by
  rw [isNaN_eq_false, magBits_pack n (by norm_num)]; exact Nat.zero_le _

theorem isNaN_fmul {a b : Word} :
    isNaN (fmul a b) = true ↔
      isNaN a = true ∨ isNaN b = true ∨
        ((isInf a = true ∨ isInf b = true) ∧ (isZero a = true ∨ isZero b = true)) := by
  unfold fmul
  cases hna : isNaN a <;> cases hnb : isNaN b <;> cases hia : isInf a <;> cases hib : isInf b <;>
    cases hza : isZero a <;> cases hzb : isZero b <;> simp [isNaN_inf]

theorem isNaN_fdiv {a b : Word} :
    isNaN (fdiv a b) = true ↔
      isNaN a = true ∨ isNaN b = true ∨ (isInf a = true ∧ isInf b = true) ∨
        (isFinite b = true ∧ isZero a = true ∧ isZero b = true) := by
  have hf : isInf b = false → isNaN b = false → isFinite b = true := by
    intro h1 h2; rcases word_cases b with h | h | h <;> simp_all
  have hz := @isInf_not_isZero a
  have hb := @isInf_not_isFinite b
  unfold fdiv
  cases hna : isNaN a <;> cases hnb : isNaN b <;> cases hia : isInf a <;> cases hib : isInf b <;>
    cases hza : isZero a <;> cases hzb : isZero b <;> simp_all [isNaN_inf, isNaN_zero, isFinite_not_isInf]

/-! ## Infinities and signs -/

theorem fadd_inf_left {a b : Word} (ha : isInf a = true) (hna : isNaN a = false) (hb : isFinite b = true) :
    fadd a b = a := by
  simp [fadd, ha, hna, isFinite_not_isNaN hb, isFinite_not_isInf hb]

theorem fadd_inf_right {a b : Word} (ha : isFinite a = true) (hb : isInf b = true) (hnb : isNaN b = false) :
    fadd a b = b := by
  simp [fadd, hb, hnb, isFinite_not_isNaN ha, isFinite_not_isInf ha]

theorem isInf_not_isNaN {x : Word} (h : isInf x = true) : isNaN x = false := by
  rw [isInf_iff] at h
  rw [isNaN_eq_false, h]

/-- A difference whose first operand is infinite or NaN and whose second is finite is not finite. -/
theorem fsub_not_finite {p q : Word} (h : isFinite p = false) (hq : isFinite q = true) :
    isFinite (fsub p q) = false := by
  rcases word_cases p with hp | hp | hp
  · exact isNaN_not_isFinite (isNaN_fsub.2 (.inl hp))
  · rw [fsub, fadd_inf_left hp (isInf_not_isNaN hp) (by simpa using hq), h]
  · rw [h] at hp; cases hp

/-- Adding a value that is not negative never lowers a finite value, infinities included. -/
theorem le_fadd_of_nonneg {a b : Word} (ha : isFinite a = true) (hb : isNaN b = false) (h : 0 ≤ units b) :
    isNaN (fadd a b) = false ∧ units a ≤ units (fadd a b) := by
  rcases word_cases b with hc | hc | hc
  · rw [hb] at hc; cases hc
  · rw [fadd_inf_right ha hc hb]
    refine ⟨hb, ?_⟩
    have h1 := natAbs_units a
    have h2 := natAbs_units b
    have h3 := magUnits_le_iff.2 (Nat.le_of_lt (isFinite_iff.1 ha))
    rw [isInf_iff] at hc
    rw [hc] at h2
    omega
  · exact ⟨fadd_not_isNaN ha hc, le_fadd ha hc (isFinite_not_isNaN ha) (by omega)⟩

/-- Taking away a value that is not negative never raises a finite value, infinities included. -/
theorem fsub_le_of_nonneg {a b : Word} (ha : isFinite a = true) (hb : isNaN b = false) (h : 0 ≤ units b) :
    isNaN (fsub a b) = false ∧ units (fsub a b) ≤ units a := by
  rcases word_cases b with hc | hc | hc
  · rw [hb] at hc; cases hc
  · have hn : isNaN (fneg b) = false := by simpa using hb
    rw [fsub, fadd_inf_right ha (by simpa using hc) hn]
    refine ⟨hn, ?_⟩
    rw [units_fneg]
    have h1 := natAbs_units a
    have h2 := natAbs_units b
    have h3 := magUnits_le_iff.2 (Nat.le_of_lt (isFinite_iff.1 ha))
    rw [isInf_iff] at hc
    rw [hc] at h2
    omega
  · exact ⟨fsub_not_isNaN ha hc, fsub_le ha hc (isFinite_not_isNaN ha) (by omega)⟩

theorem units_pack_true_zero : units (pack true 0) = 0 := by decide

/-- The product of two values without sign has none. -/
theorem fmul_sign {a b : Word} (ha : signBit a = false) (hb : signBit b = false) (h : isNaN (fmul a b) = false) :
    signBit (fmul a b) = false := by
  unfold fmul at *
  simp only [ha, hb, bne_self_eq_false] at *
  split
  · rename_i h1; rw [if_pos h1, isNaN_nanResult] at h; cases h
  · rename_i h1
    rw [if_neg h1] at h
    split
    · rename_i h2
      rw [if_pos h2] at h
      split
      · rename_i h3; rw [if_pos h3, isNaN_nanResult] at h; cases h
      · exact signBit_pack _ infMag_lt
    · exact signBit_pack _ (roundMag_lt _ _)

/-- A quotient of a value that is not negative by one without sign is not negative, zeros and infinities included. -/
theorem fdiv_nonneg {a b : Word} (ha : 0 ≤ units a) (hb : signBit b = false) (h : isNaN (fdiv a b) = false) :
    0 ≤ units (fdiv a b) := by
  have hsa : signBit a = true → isZero a = true := fun hs => by
    rw [isZero_iff]
    unfold units at ha ⊢
    rw [hs] at ha ⊢
    simp only [if_true] at ha ⊢
    omega
  cases hs : signBit a
  · have : signBit (fdiv a b) = false := by
      unfold fdiv at *
      simp only [hs, hb, bne_self_eq_false] at *
      repeat' split
      all_goals first
        | exact signBit_pack _ infMag_lt
        | exact signBit_pack _ (roundMag_lt _ _)
        | exact signBit_pack _ (Nat.two_pow_pos 31)
        | (simp_all; done)
    exact units_nonneg_of_sign this
  · have hz := hsa hs
    have hb0 : isZero b = false := by
      by_contra hc
      have hc : isZero b = true := by simpa using hc
      have := isNaN_fdiv (a := a) (b := b)
      rw [h] at this
      simp [hz, hc, isZero_isFinite hc] at this
    have hbn : isNaN b = false := by
      by_contra hc
      have hc : isNaN b = true := by simpa using hc
      have := isNaN_fdiv (a := a) (b := b)
      rw [h] at this
      simp [hc] at this
    rw [units_of_isZero (fdiv_isZero hz hbn hb0)]

/-! ## The clamp (00 R15) -/

theorem clamp_eq_none {x lo hi : Word} : clamp x lo hi = none ↔ isNaN x = true := by
  unfold clamp; split <;> simp_all

/-- A clamped value lies between its bounds. -/
theorem clamp_bounds {x lo hi y : Word} (hlo : isNaN lo = false) (hhi : isNaN hi = false)
    (hle : units lo ≤ units hi) (h : clamp x lo hi = some y) :
    isNaN y = false ∧ units lo ≤ units y ∧ units y ≤ units hi := by
  unfold clamp at h
  split at h
  · cases h
  · rename_i hx
    have hx : isNaN x = false := by simpa using hx
    simp only [Option.some.injEq] at h
    subst h
    split
    · exact ⟨hlo, le_refl _, hle⟩
    · rename_i h1
      have h1 := flt_false_of hx hlo (by simpa using h1)
      split
      · exact ⟨hhi, hle, le_refl _⟩
      · rename_i h2
        exact ⟨hx, h1, flt_false_of hhi hx (by simpa [fgt] using h2)⟩

/-! ## The sine (00 R16) -/

/-- P1. -/
theorem sin32_zero {x : Word} (h : isZero x = true) : sin32 x = x := by simp [sin32, h]

/-- P2. -/
theorem sin32_range {x : Word} (h : isFinite x = true) : magBits (sin32 x) ≤ 0x3F800000 := by
  unfold sin32
  split
  · rename_i hz
    rw [isZero_iff_mag] at hz
    omega
  · split
    · assumption
    · decide

/-- The sine of a finite value is finite (P2). -/
theorem sin32_isFinite {x : Word} (h : isFinite x = true) : isFinite (sin32 x) = true :=
  isFinite_iff.2 (lt_of_le_of_lt (sin32_range h) (by decide))

/-- P3. -/
theorem sin32_nan {x : Word} (h : isFinite x = false) : isNaN (sin32 x) = true := by
  have hz : isZero x = false := by
    by_contra hc
    rw [isZero_isFinite (by simpa using hc)] at h
    cases h
  simp [sin32, h, hz]

end Sys2Proof.Machine
end

