-- ==== Sys2Proof/Laws/State.lean ====
section
/-! SUPPORT. One lemma per field of State for each update of it (Machine/Ops.lean, Machine/Step.lean), and per field of
the Live block's parts for the updates of the components, so that no later proof unfolds a record update. -/

namespace Sys2Proof.Machine

section
variable (s : State)

@[simp] theorem State.withVoice_lc (v : Voice) : (s.withVoice v).lc = .live v := rfl
@[simp] theorem State.withVoice_port (v : Voice) : (s.withVoice v).port = s.port := rfl
@[simp] theorem State.withVoice_buffers (v : Voice) : (s.withVoice v).buffers = s.buffers := rfl
@[simp] theorem State.withVoice_mem (v : Voice) : (s.withVoice v).mem = s.mem := rfl
@[simp] theorem State.withVoice_commandIndex (v : Voice) : (s.withVoice v).commandIndex = s.commandIndex := rfl
@[simp] theorem State.withVoice_renderIndex (v : Voice) : (s.withVoice v).renderIndex = s.renderIndex := rfl
@[simp] theorem State.withVoice_history (v : Voice) : (s.withVoice v).history = s.history := rfl
@[simp] theorem State.withVoice_refusal (v : Voice) : (s.withVoice v).refusal = s.refusal := rfl
@[simp] theorem State.withVoice_nanDraws (v : Voice) : (s.withVoice v).nanDraws = s.nanDraws := rfl

@[simp] theorem State.marked_lc (r : Reason) (i : Option Nat) (p : Option Site) : (s.marked r i p).lc = s.lc := rfl
@[simp] theorem State.marked_port (r : Reason) (i : Option Nat) (p : Option Site) : (s.marked r i p).port =
    s.port := rfl
@[simp] theorem State.marked_buffers (r : Reason) (i : Option Nat) (p : Option Site) : (s.marked r i p).buffers =
    s.buffers := rfl
@[simp] theorem State.marked_mem (r : Reason) (i : Option Nat) (p : Option Site) : (s.marked r i p).mem = s.mem := rfl
@[simp] theorem State.marked_commandIndex (r : Reason) (i : Option Nat) (p : Option Site) : (s.marked r i p).commandIndex =
    s.commandIndex := rfl
@[simp] theorem State.marked_renderIndex (r : Reason) (i : Option Nat) (p : Option Site) : (s.marked r i p).renderIndex =
    s.renderIndex := rfl
@[simp] theorem State.marked_history (r : Reason) (i : Option Nat) (p : Option Site) : (s.marked r i p).history =
    s.history := rfl
@[simp] theorem State.marked_refusal (r : Reason) (i : Option Nat) (p : Option Site) : (s.marked r i p).refusal =
    some { reason := r, command := s.commandIndex, frame := i, site := p } := rfl
@[simp] theorem State.marked_nanDraws (r : Reason) (i : Option Nat) (p : Option Site) : (s.marked r i p).nanDraws =
    s.nanDraws := rfl

@[simp] theorem State.retire_lc (rest : List Word) : (s.retire rest).lc = s.lc := rfl
@[simp] theorem State.retire_port (rest : List Word) : (s.retire rest).port = rest := rfl
@[simp] theorem State.retire_buffers (rest : List Word) : (s.retire rest).buffers = s.buffers := rfl
@[simp] theorem State.retire_mem (rest : List Word) : (s.retire rest).mem = s.mem := rfl
@[simp] theorem State.retire_commandIndex (rest : List Word) : (s.retire rest).commandIndex =
    s.commandIndex + 1 := rfl
@[simp] theorem State.retire_renderIndex (rest : List Word) : (s.retire rest).renderIndex = s.renderIndex := rfl
@[simp] theorem State.retire_history (rest : List Word) : (s.retire rest).history = s.history := rfl
@[simp] theorem State.retire_refusal (rest : List Word) : (s.retire rest).refusal = s.refusal := rfl
@[simp] theorem State.retire_nanDraws (rest : List Word) : (s.retire rest).nanDraws = s.nanDraws := rfl

@[simp] theorem State.endRender_lc : (s.endRender).lc = s.lc := rfl
@[simp] theorem State.endRender_port : (s.endRender).port = s.port := rfl
@[simp] theorem State.endRender_buffers : (s.endRender).buffers = s.buffers.tail := rfl
@[simp] theorem State.endRender_mem : (s.endRender).mem = s.mem := rfl
@[simp] theorem State.endRender_commandIndex : (s.endRender).commandIndex = s.commandIndex := rfl
@[simp] theorem State.endRender_renderIndex : (s.endRender).renderIndex = s.renderIndex + 1 := rfl
@[simp] theorem State.endRender_history : (s.endRender).history = s.history := rfl
@[simp] theorem State.endRender_refusal : (s.endRender).refusal = s.refusal := rfl
@[simp] theorem State.endRender_nanDraws : (s.endRender).nanDraws = s.nanDraws := rfl

@[simp] theorem State.outWrite_lc (base i : Nat) (y : Word) : (s.outWrite base i y).lc = s.lc := rfl
@[simp] theorem State.outWrite_port (base i : Nat) (y : Word) : (s.outWrite base i y).port = s.port := rfl
@[simp] theorem State.outWrite_buffers (base i : Nat) (y : Word) : (s.outWrite base i y).buffers = s.buffers := rfl
@[simp] theorem State.outWrite_mem (base i : Nat) (y : Word) : (s.outWrite base i y).mem =
    writeWord s.mem (slotAddress base i) (if isNaN y then drawNaN s.nanDraws else y) := rfl
@[simp] theorem State.outWrite_commandIndex (base i : Nat) (y : Word) : (s.outWrite base i y).commandIndex =
    s.commandIndex := rfl
@[simp] theorem State.outWrite_renderIndex (base i : Nat) (y : Word) : (s.outWrite base i y).renderIndex =
    s.renderIndex := rfl
@[simp] theorem State.outWrite_history (base i : Nat) (y : Word) : (s.outWrite base i y).history =
    s.history ++ [{ render := s.renderIndex, slot := i, pattern := if isNaN y then drawNaN s.nanDraws else y }] := rfl
@[simp] theorem State.outWrite_refusal (base i : Nat) (y : Word) : (s.outWrite base i y).refusal = s.refusal := rfl
@[simp] theorem State.outWrite_nanDraws (base i : Nat) (y : Word) : (s.outWrite base i y).nanDraws =
    if isNaN y then s.nanDraws + 1 else s.nanDraws := rfl

@[simp] theorem State.withFetchWord_lc (nbits w : Nat) : (s.withFetchWord nbits w).lc = s.lc := rfl
@[simp] theorem State.withFetchWord_port (nbits w : Nat) : (s.withFetchWord nbits w).port =
    tableWords nbits w ++ s.port := rfl
@[simp] theorem State.withFetchWord_buffers (nbits w : Nat) : (s.withFetchWord nbits w).buffers = s.buffers := rfl
@[simp] theorem State.withFetchWord_mem (nbits w : Nat) : (s.withFetchWord nbits w).mem = s.mem := rfl
@[simp] theorem State.withFetchWord_commandIndex (nbits w : Nat) : (s.withFetchWord nbits w).commandIndex =
    s.commandIndex := rfl
@[simp] theorem State.withFetchWord_renderIndex (nbits w : Nat) : (s.withFetchWord nbits w).renderIndex =
    s.renderIndex := rfl
@[simp] theorem State.withFetchWord_history (nbits w : Nat) : (s.withFetchWord nbits w).history = s.history := rfl
@[simp] theorem State.withFetchWord_refusal (nbits w : Nat) : (s.withFetchWord nbits w).refusal = s.refusal := rfl
@[simp] theorem State.withFetchWord_nanDraws (nbits w : Nat) : (s.withFetchWord nbits w).nanDraws = s.nanDraws := rfl

end

/-! ## Components -/

section
variable (p : Smoothed) (e : Envelope) (v : Word)

@[simp] theorem smooth_target (c : Word) : (smooth p c).target = p.target := rfl
@[simp] theorem smooth_modulation (c : Word) : (smooth p c).modulation = plusZero := rfl
@[simp] theorem setTarget_current : (setTarget p v).current = p.current := rfl
@[simp] theorem setTarget_target : (setTarget p v).target = v := rfl
@[simp] theorem setTarget_modulation : (setTarget p v).modulation = p.modulation := rfl
@[simp] theorem setAbsolute_current : (setAbsolute p v).current = v := rfl
@[simp] theorem setAbsolute_target : (setAbsolute p v).target = v := rfl
@[simp] theorem setAbsolute_modulation : (setAbsolute p v).modulation = p.modulation := rfl
@[simp] theorem modulate_current (d : Word) : (modulate p v d).current = p.current := rfl
@[simp] theorem modulate_target (d : Word) : (modulate p v d).target = p.target := rfl
@[simp] theorem modulate_modulation (d : Word) : (modulate p v d).modulation = fadd p.modulation (fmul v d) := rfl
@[simp] theorem noteOnEvent_stage : (noteOnEvent e).stage = .attack := rfl
@[simp] theorem noteOnEvent_value : (noteOnEvent e).value = e.value := rfl
@[simp] theorem noteOffEvent_stage : (noteOffEvent e).stage = .release := rfl
@[simp] theorem noteOffEvent_value : (noteOffEvent e).value = e.value := rfl
@[simp] theorem oscAdvance_sample (sr f : Word) (o : Oscillator) : (oscAdvance sr o f).1 = oscSample o := rfl
@[simp] theorem oscAdvance_phase (sr f : Word) (o : Oscillator) :
    (oscAdvance sr o f).2.phase = advancePhase o.phase f sr := rfl
@[simp] theorem oscAdvance_waveform (sr f : Word) (o : Oscillator) : (oscAdvance sr o f).2.waveform = o.waveform := rfl
@[simp] theorem lfoAdvance_value (sr : Word) (l : Lfo) : (lfoAdvance sr l).1 = sineWave l.phase := rfl
@[simp] theorem lfoAdvance_phase (sr : Word) (l : Lfo) :
    (lfoAdvance sr l).2.phase = advancePhase l.phase l.freq sr := rfl
@[simp] theorem lfoAdvance_freq (sr : Word) (l : Lfo) : (lfoAdvance sr l).2.freq = l.freq := rfl

end

end Sys2Proof.Machine
end

