-- ==== Sys2Proof/Laws/Components.lean ====
section
/-! SUPPORT. What each component operation can do: the constants, the smoother (spec 40), the envelope (41), the
oscillator and its wrap (42), the router (44). -/

namespace Sys2Proof.Machine

/-! ## The constants (10 R49) -/

section Constants

@[simp] theorem units_plusZero : units plusZero = 0 := by decide
@[simp] theorem units_half : units half = 2 ^ 148 := by decide +kernel
@[simp] theorem units_one : units one = 2 ^ 149 := by decide +kernel
@[simp] theorem units_two : units two = 2 ^ 150 := by decide +kernel
@[simp] theorem units_four : units four = 2 ^ 151 := by decide +kernel
theorem units_kTri : units kTri = 10273528 * 2 ^ 126 := by decide +kernel
theorem units_fMin : units fMin = 20 * 2 ^ 149 := by decide +kernel
theorem units_fMax : units fMax = 20000 * 2 ^ 149 := by decide +kernel

@[simp] theorem isFinite_plusZero : isFinite plusZero = true := by decide
@[simp] theorem isFinite_half : isFinite half = true := by decide
@[simp] theorem isFinite_one : isFinite one = true := by decide
@[simp] theorem isFinite_two : isFinite two = true := by decide
@[simp] theorem isFinite_four : isFinite four = true := by decide
@[simp] theorem isFinite_kSmooth : isFinite kSmooth = true := by decide
@[simp] theorem isFinite_tau32 : isFinite tau32 = true := by decide
@[simp] theorem isFinite_kSine : isFinite kSine = true := by decide
@[simp] theorem isFinite_kTri : isFinite kTri = true := by decide
@[simp] theorem isFinite_kSaw : isFinite kSaw = true := by decide
@[simp] theorem isFinite_fMin : isFinite fMin = true := by decide
@[simp] theorem isFinite_fMax : isFinite fMax = true := by decide
@[simp] theorem isFinite_routeDepth : isFinite routeDepth = true := by decide
@[simp] theorem isNaN_plusZero : isNaN plusZero = false := by decide
@[simp] theorem isNaN_one : isNaN one = false := by decide
@[simp] theorem isNaN_two : isNaN two = false := by decide
@[simp] theorem isNaN_fMin : isNaN fMin = false := by decide
@[simp] theorem isNaN_fMax : isNaN fMax = false := by decide

end Constants

theorem inUnit_iff {x : Word} : inUnit x = true ↔ isNaN x = false ∧ 0 ≤ units x ∧ units x ≤ 2 ^ 149 := by
  simp only [inUnit, Bool.and_eq_true, fle_iff, units_plusZero, units_one, isNaN_plusZero, isNaN_one, true_and]
  tauto

theorem inCycle_iff {x : Word} : inCycle x = true ↔ isNaN x = false ∧ 0 ≤ units x ∧ units x < 2 ^ 149 := by
  simp only [inCycle, Bool.and_eq_true, fle_iff, flt_iff, units_plusZero, units_one, isNaN_plusZero, isNaN_one, true_and]
  tauto

theorem inUnit_isFinite {x : Word} (h : inUnit x = true) : isFinite x = true := by
  obtain ⟨-, h0, h1⟩ := inUnit_iff.1 h
  exact isFinite_of_bounds isFinite_plusZero isFinite_one (by simpa using h0) (by simpa using h1)

theorem inCycle_isFinite {x : Word} (h : inCycle x = true) : isFinite x = true := by
  obtain ⟨-, h0, h1⟩ := inCycle_iff.1 h
  exact isFinite_of_bounds isFinite_plusZero isFinite_one (by simpa using h0) (by simpa using h1.le)

/-- The positive finite patterns (46 R230). -/
theorem validSampleRate_iff {sr : Word} : validSampleRate sr = true ↔ 1 ≤ sr.toNat ∧ sr.toNat ≤ 0x7F7FFFFF := by
  have hp : orderKey plusInf = 0x7F800000 := by decide
  have hz : orderKey plusZero = 0 := by decide
  have hn : isNaN plusInf = false := by decide
  have h0 : flt plusZero sr = true ↔ isNaN sr = false ∧ 0 < orderKey sr := by simp [flt, hz]
  have h1 : feq sr plusInf = true ↔ isNaN sr = false ∧ orderKey sr = 0x7F800000 := by simp [feq, hn, hp]
  have h2 := @isNaN_eq_false sr
  have h3 := toNat_eq sr
  simp only [validSampleRate, fgt, Bool.and_eq_true, Bool.not_eq_true']
  rw [← Bool.not_eq_true, h0, h1, h2, infMag]
  unfold orderKey
  cases hs : signBit sr <;> simp only [hs, Bool.false_eq_true, if_false, if_true] at * <;> omega

theorem validSampleRate_facts {sr : Word} (h : validSampleRate sr = true) :
    isFinite sr = true ∧ signBit sr = false ∧ 0 < units sr := by
  obtain ⟨h1, h2⟩ := validSampleRate_iff.1 h
  have hm : magBits sr = sr.toNat := Nat.mod_eq_of_lt (by omega)
  have hs : signBit sr = false := by simp only [signBit, decide_eq_false_iff_not]; omega
  refine ⟨by rw [isFinite_iff, hm, infMag]; omega, hs, ?_⟩
  have h3 := @magUnits_lt_iff 0 (magBits sr)
  rw [magUnits_zero] at h3
  have := h3.2 (by omega)
  simp only [units, hs, Bool.false_eq_true, if_false]
  omega

/-! ## The envelope's stored shape (41 R150, R151) -/

theorem toNat_adsrMinTime : adsrMinTime.toNat = Config.adsrMinTimeIndex.val + 1 := by
  have := Config.adsrMinTimeIndex.isLt
  simp only [adsrMinTime, BitVec.toNat_ofNat]
  omega

theorem magBits_adsrMinTime : magBits adsrMinTime = Config.adsrMinTimeIndex.val + 1 := by
  have := Config.adsrMinTimeIndex.isLt
  rw [magBits, toNat_adsrMinTime]
  omega

@[simp] theorem signBit_adsrMinTime : signBit adsrMinTime = false := by
  have := Config.adsrMinTimeIndex.isLt
  simp only [signBit, toNat_adsrMinTime, decide_eq_false_iff_not]
  omega

@[simp] theorem isFinite_adsrMinTime : isFinite adsrMinTime = true := by
  have := Config.adsrMinTimeIndex.isLt
  rw [isFinite_iff, magBits_adsrMinTime, infMag]
  omega

@[simp] theorem isNaN_adsrMinTime : isNaN adsrMinTime = false := isFinite_not_isNaN isFinite_adsrMinTime

/-- The floor is above zero. -/
theorem adsrMinTime_pos : 0 < units adsrMinTime := by
  have h := @magUnits_lt_iff 0 (magBits adsrMinTime)
  rw [magBits_adsrMinTime, magUnits_zero] at h
  simp only [units, signBit_adsrMinTime, Bool.false_eq_true, if_false, magBits_adsrMinTime]
  have := h.2 (by omega)
  omega

/-- The floor is at most the largest finite binary32. -/
theorem adsrMinTime_le_max : fle adsrMinTime 0x7F7FFFFF = true := by
  have := Config.adsrMinTimeIndex.isLt
  refine fle_iff.2 ⟨isNaN_adsrMinTime, by decide, units_le_iff.2 ?_⟩
  rw [show orderKey 0x7F7FFFFF = 0x7F7FFFFF by decide]
  simp only [orderKey, signBit_adsrMinTime, Bool.false_eq_true, if_false, magBits_adsrMinTime]
  omega

/-- A stored time is a positive binary32. -/
theorem time_facts {t : Word} (h : fle adsrMinTime t = true) :
    isNaN t = false ∧ signBit t = false ∧ 0 < units t := by
  obtain ⟨-, hn, hu⟩ := fle_iff.1 h
  have hp : 0 < units t := lt_of_lt_of_le adsrMinTime_pos hu
  exact ⟨hn, sign_of_units_pos hp, hp⟩

theorem floorTime_eq_none {x : Word} : floorTime x = none ↔ isNaN x = true := by
  unfold floorTime; split
  · simp_all
  · split <;> simp_all

/-- What is stored is at or above the floor. -/
theorem floorTime_ge {x t : Word} (h : floorTime x = some t) : fle adsrMinTime t = true := by
  unfold floorTime at h
  split at h
  · cases h
  · split at h
    · rename_i h1
      cases h
      obtain ⟨-, h2, h3⟩ := flt_iff.1 h1
      exact fle_iff.2 ⟨isNaN_adsrMinTime, h2, h3.le⟩
    · cases h
      exact fle_iff.2 ⟨isNaN_adsrMinTime, isNaN_adsrMinTime, le_refl _⟩

theorem openTime_ge (raw : Word) : fle adsrMinTime (openTime raw) = true := by
  unfold openTime
  cases h : floorTime raw with
  | none => exact fle_iff.2 ⟨isNaN_adsrMinTime, isNaN_adsrMinTime, le_refl _⟩
  | some t => exact floorTime_ge h

theorem clampSustain_eq_none {x : Word} : clampSustain x = none ↔ isNaN x = true := clamp_eq_none

theorem clampSustain_inUnit {x y : Word} (h : clampSustain x = some y) : inUnit y = true := by
  obtain ⟨h1, h2, h3⟩ := clamp_bounds isNaN_plusZero isNaN_one (by simp) h
  exact inUnit_iff.2 ⟨h1, by simpa using h2, by simpa using h3⟩

/-- `set_adsr` stores a shape exactly when no operand is a NaN (46 R236). -/
theorem storeShape_eq_none {e : Envelope} {a d su r : Word} :
    storeShape e a d su r = none ↔ firstNaN a d su r ≠ none := by
  have ha := @floorTime_eq_none a
  have hd := @floorTime_eq_none d
  have hs := @clampSustain_eq_none su
  have hr := @floorTime_eq_none r
  unfold storeShape firstNaN
  cases h1 : floorTime a <;> cases h2 : floorTime d <;> cases h3 : clampSustain su <;> cases h4 : floorTime r <;>
    simp_all

theorem storeShape_eq_some {e e' : Envelope} {a d su r : Word} (h : storeShape e a d su r = some e') :
    ∃ a' d' s' r', floorTime a = some a' ∧ floorTime d = some d' ∧ clampSustain su = some s' ∧ floorTime r = some r' ∧
      e' = { e with attack := a', decay := d', sustain := s', release := r' } := by
  unfold storeShape at h
  split at h
  · rename_i a' d' s' r' h1 h2 h3 h4
    exact ⟨a', d', s', r', h1, h2, h3, h4, (Option.some.inj h).symm⟩
  · cases h

/-! ## The envelope's advance (41 R140 to R145) -/

/-- The advance writes the stage and the value only. -/
theorem envAdvance_shape (sr : Word) (e : Envelope) :
    envAdvance sr e = { e with stage := (envAdvance sr e).stage, value := (envAdvance sr e).value } := by
  unfold envAdvance advanceIdle advanceAttack advanceDecay advanceSustain advanceRelease
  simp only
  split <;> (try split) <;> rfl

@[simp] theorem envAdvance_attack (sr : Word) (e : Envelope) : (envAdvance sr e).attack = e.attack := by
  rw [envAdvance_shape]
@[simp] theorem envAdvance_decay (sr : Word) (e : Envelope) : (envAdvance sr e).decay = e.decay := by
  rw [envAdvance_shape]
@[simp] theorem envAdvance_sustain (sr : Word) (e : Envelope) : (envAdvance sr e).sustain = e.sustain := by
  rw [envAdvance_shape]
@[simp] theorem envAdvance_release (sr : Word) (e : Envelope) : (envAdvance sr e).release = e.release := by
  rw [envAdvance_shape]

/-! ## The wrap (42 R177) -/

/-- On [1, 2) the floor is 1.0, so both modes subtract 1.0. -/
theorem ffloor_one {p : Word} (hf : isFinite p = true) (h1 : 2 ^ 149 ≤ units p) (h2 : units p < 2 ^ 150) :
    ffloor p = one := by
  have hd : units p / 2 ^ 149 = 1 := by omega
  unfold ffloor
  rw [if_pos hf, hd, one_mul]
  exact roundInt_of_ne_zero isNaN_one units_one.symm (by norm_num)

/-- A difference of a value in [1, 2) and 1.0 is in [0, 1). -/
theorem fsub_one_range {p : Word} (hf : isFinite p = true) (h1 : 2 ^ 149 ≤ units p) (h2 : units p < 2 ^ 150) :
    isNaN (fsub p one) = false ∧ units (fsub p one) = units p - 2 ^ 149 := by
  refine ⟨fsub_not_isNaN hf isFinite_one, ?_⟩
  have hs : signBit p = false := sign_of_units_pos (by omega)
  have hm : (magUnits (magBits p) : Int) = units p := magUnits_of_pos (by omega)
  rcases mag_cases (magBits p) with h | ⟨e, f, hfr, h⟩
  · rw [magUnits_small h] at hm
    omega
  · rw [h, magUnits_block e f hfr] at hm
    have he : e = 126 := by
      have hlo : (2 ^ 149 : Int) ≤ ((2 ^ 23 + f) * 2 ^ e : Nat) := by rw [hm]; exact h1
      have hhi : (((2 ^ 23 + f) * 2 ^ e : Nat) : Int) < 2 ^ 150 := by rw [hm]; exact h2
      have hlo : 2 ^ 149 ≤ (2 ^ 23 + f) * 2 ^ e := by exact_mod_cast hlo
      have hhi : (2 ^ 23 + f) * 2 ^ e < 2 ^ 150 := by exact_mod_cast hhi
      have a1 : (2 ^ 23 + f) * 2 ^ e < 2 ^ (24 + e) := by
        rw [pow_add]; exact Nat.mul_lt_mul_of_pos_right (by omega) (by positivity)
      have a2 : 2 ^ (23 + e) ≤ (2 ^ 23 + f) * 2 ^ e := by
        rw [pow_add]; exact Nat.mul_le_mul_right _ (by omega)
      have b1 := (Nat.pow_lt_pow_iff_right (by norm_num : 1 < 2)).1 (lt_of_le_of_lt hlo a1)
      have b2 := (Nat.pow_lt_pow_iff_right (by norm_num : 1 < 2)).1 (lt_of_le_of_lt a2 hhi)
      omega
    subst he
    have hval : units p - units one = f * 2 ^ 126 := by
      rw [← hm, units_one]; push_cast; ring
    obtain ⟨c, hc1, hc2⟩ := exists_units (k := f) (s := 126) (by simp only [Int.natAbs_natCast]; omega) (by norm_num)
    rw [fsub_finite hf isFinite_one, units_roundInt_of_eq hc1 (by rw [hval, hc2]), hc2, ← hval, units_one]

/-- The sums on which the mode is not read: [0, 2) and NaN. -/
theorem modeFree_iff {p : Word} (hn : isNaN p = false) :
    modeFree p = true ↔ 0 ≤ units p ∧ units p < 2 ^ 150 := by
  have h1 := @flt_iff p plusZero
  have h2 := @fle_iff two p
  simp only [units_plusZero, units_two, isNaN_plusZero, isNaN_two, hn, true_and] at h1 h2
  simp only [modeFree, fge, Bool.and_eq_true, Bool.not_eq_true']
  rw [← Bool.not_eq_true, ← Bool.not_eq_true, h1, h2]
  omega

/-- On a sum in [0, 2) or a NaN the two modes agree (42 R177 (a), (b), (e)). -/
theorem wrapReduce_eq_wrapOnce {p : Word} (h : modeFree p = true) : wrapReduce p = wrapOnce p := by
  cases hn : isNaN p
  · obtain ⟨h0, h2⟩ := (modeFree_iff hn).1 h
    have hneg : flt p plusZero = false := by
      rw [← Bool.not_eq_true, flt_iff, units_plusZero]; omega
    unfold wrapReduce wrapOnce
    simp only [hneg, Bool.or_false]
    split
    · rename_i h1
      obtain ⟨-, -, h1⟩ := fle_iff.1 h1
      rw [units_one] at h1
      have hf : isFinite p = true :=
        isFinite_of_bounds isFinite_plusZero isFinite_two (by simpa using h0) (by simpa using h2.le)
      obtain ⟨hr1, hr2⟩ := fsub_one_range hf h1 h2
      rw [ffloor_one hf h1 h2, if_neg]
      rw [fge, fle_iff, units_one, hr2]
      omega
    · rfl
  · have h1 : fge p one = false := by simp [fge, fle, hn]
    have h2 : flt p plusZero = false := by simp [flt, hn]
    simp [wrapReduce, wrapOnce, h1, h2]

/-- `wrap` is the configured mode's wrap, whatever the sum (42 R177). -/
theorem wrap_eq_wrapIn (p : Word) : wrap p = wrapIn Config.wrapMode p := by
  unfold wrap
  split
  · rename_i h
    cases Config.wrapMode
    · exact (wrapReduce_eq_wrapOnce h).symm
    · rfl
  · rfl

theorem wrapOnce_not_finite {p : Word} (h : isFinite p = false) : isFinite (wrapOnce p) = false := by
  unfold wrapOnce
  split
  · exact fsub_not_finite h isFinite_one
  · exact h

theorem fsub_ffloor_nan {p : Word} (h : isFinite p = false) : isNaN (fsub p (ffloor p)) = true := by
  have hfl : ffloor p = p := by simp [ffloor, h]
  rw [hfl]
  rcases word_cases p with hp | hp | hp
  · exact isNaN_fsub.2 (.inl hp)
  · exact isNaN_fsub.2 (.inr (.inr ⟨hp, hp, rfl⟩))
  · rw [h] at hp; cases hp

theorem wrapReduce_not_finite {p : Word} (h : isFinite p = false) : isFinite (wrapReduce p) = false := by
  have hr := fsub_ffloor_nan h
  have hge : fge (fsub p (ffloor p)) one = false := by
    unfold fge fle
    rw [hr, Bool.not_true, Bool.and_false, Bool.false_and]
  unfold wrapReduce
  simp only [hge, Bool.false_eq_true, if_false]
  split
  · exact isNaN_not_isFinite hr
  · exact h

/-- An infinite or NaN sum is wrapped to no finite value, in either mode (42 R177 (d), (e)). -/
theorem wrap_not_finite {p : Word} (h : isFinite p = false) : isFinite (wrap p) = false := by
  rw [wrap_eq_wrapIn]
  cases Config.wrapMode with
  | reduce => exact wrapReduce_not_finite h
  | subtractOnce => exact wrapOnce_not_finite h

/-! ## The sine of a phase (42 R171, 43 R190) -/

/-- A sine of an infinite or NaN phase is a NaN (00 R11, P3). -/
theorem sineWave_nan {p : Word} (h : isFinite p = false) : isNaN (sineWave p) = true := by
  have ht : isZero tau32 = false ∧ isNaN tau32 = false := by decide
  have hm : isFinite (fmul p tau32) = false := by
    rcases word_cases p with hp | hp | hp
    · exact isNaN_not_isFinite (isNaN_fmul.2 (.inl hp))
    · have : fmul p tau32 = pack (signBit p != signBit tau32) infMag := by
        simp [fmul, isInf_not_isNaN hp, hp, isInf_not_isZero hp, ht]
      rw [this, isFinite_eq_false, magBits_pack _ infMag_lt]
    · rw [h] at hp; cases hp
  unfold sineWave
  exact isNaN_fmul.2 (.inl (sin32_nan hm))

/-- A sine of a phase whose product with TAU32 does not overflow is finite (P2; K_SINE is 1.0). -/
theorem sineWave_isFinite {p : Word} (h : isFinite (fmul p tau32) = true) : isFinite (sineWave p) = true := by
  have hs := sin32_isFinite h
  rw [sineWave, kSine, fmul_one (isFinite_not_isNaN hs), hs]

/-! ## The router (44 R200) -/

/-- Routing writes the two modulation accumulators and nothing else, whatever the table. -/
theorem route_shape (l e : Word) (v : Voice) :
    route l e v = { v with freq := { v.freq with modulation := (route l e v).freq.modulation },
                           gain := { v.gain with modulation := (route l e v).gain.modulation } } := by
  have key : ∀ (rs : List Route) (v w : Voice),
      w = { v with freq := { v.freq with modulation := w.freq.modulation },
                   gain := { v.gain with modulation := w.gain.modulation } } →
      rs.foldl (applyRoute l e) w =
        { v with freq := { v.freq with modulation := (rs.foldl (applyRoute l e) w).freq.modulation },
                 gain := { v.gain with modulation := (rs.foldl (applyRoute l e) w).gain.modulation } } := by
    intro rs
    induction rs with
    | nil => intro v w h; exact h
    | cons r rs ih =>
      intro v w h
      refine ih v _ ?_
      unfold applyRoute modulate
      cases r.destination <;> simp only <;> rw [h]
  exact key v.routes v v rfl

/-- With the fixed table each parameter takes one source (10 R47). -/
theorem route_table {v : Voice} (l e : Word) (h : v.routes = routeTable) :
    route l e v = { v with freq := modulate v.freq l routeDepth, gain := modulate v.gain e routeDepth } := by
  simp [route, h, routeTable, applyRoute]

end Sys2Proof.Machine
end

