-- ==== Sys2Proof/Laws/Pipeline.lean ====
section
/-! SUPPORT. What the sample step and the render loop can do (spec 45 R210, R214), said once: a sample step's result and
its frame, and the render loop as a sequence of samples and a sequence of slot writes. -/

namespace Sys2Proof.Machine

/-! ## Steps 1 to 3 -/

section
variable (v : Voice)

theorem controlSteps_shape :
    controlSteps v = { v with
      freq := { smooth v.freq kSmooth with modulation := (controlSteps v).freq.modulation }
      gain := { smooth v.gain kSmooth with modulation := (controlSteps v).gain.modulation }
      env := envAdvance v.sampleRate v.env
      lfo := (lfoAdvance v.sampleRate v.lfo).2 } := by
  unfold controlSteps smoothAll
  simp only
  rw [route_shape]

@[simp] theorem controlSteps_sampleRate : (controlSteps v).sampleRate = v.sampleRate := by rw [controlSteps_shape]
@[simp] theorem controlSteps_env : (controlSteps v).env = envAdvance v.sampleRate v.env := by rw [controlSteps_shape]
@[simp] theorem controlSteps_lfo : (controlSteps v).lfo = (lfoAdvance v.sampleRate v.lfo).2 := by
  rw [controlSteps_shape]
@[simp] theorem controlSteps_osc : (controlSteps v).osc = v.osc := by rw [controlSteps_shape]
@[simp] theorem controlSteps_routes : (controlSteps v).routes = v.routes := by rw [controlSteps_shape]
@[simp] theorem controlSteps_freq_current : (controlSteps v).freq.current = (smooth v.freq kSmooth).current := by
  rw [controlSteps_shape]
@[simp] theorem controlSteps_freq_target : (controlSteps v).freq.target = v.freq.target := by
  rw [controlSteps_shape]; rfl
@[simp] theorem controlSteps_gain_current : (controlSteps v).gain.current = (smooth v.gain kSmooth).current := by
  rw [controlSteps_shape]
@[simp] theorem controlSteps_gain_target : (controlSteps v).gain.target = v.gain.target := by
  rw [controlSteps_shape]; rfl

variable {v}

/-- With the fixed table the accumulators hold the LFO's value before its advance and the envelope's after it
(45 R210 (c)). -/
theorem controlSteps_freq_modulation (h : v.routes = routeTable) :
    (controlSteps v).freq.modulation = fadd plusZero (fmul (sineWave v.lfo.phase) routeDepth) := by
  unfold controlSteps smoothAll
  simp only
  rw [route_table _ _ (by exact h)]
  simp

theorem controlSteps_gain_modulation (h : v.routes = routeTable) :
    (controlSteps v).gain.modulation = fadd plusZero (fmul (envAdvance v.sampleRate v.env).value routeDepth) := by
  unfold controlSteps smoothAll
  simp only
  rw [route_table _ _ (by exact h)]
  simp

end

/-! ## The sample step -/

/-- A sample step that gives a sample: neither clamp met a NaN, the oscillator advanced, and the sample is the product
of 45 R213. -/
theorem sampleStep_eq_sample {v v' : Voice} {y : Word} :
    sampleStep v = .sample v' y ↔ ∃ f g, effectiveFrequency (controlSteps v) = some f ∧
      effectiveGain (controlSteps v) = some g ∧ y = fmul (oscSample v.osc) g ∧
      v' = { controlSteps v with osc := { v.osc with phase := advancePhase v.osc.phase f v.sampleRate } } := by
  unfold sampleStep
  simp only
  cases hf : effectiveFrequency (controlSteps v) with
  | none => simp
  | some f =>
    cases hg : effectiveGain (controlSteps v) with
    | none => simp
    | some g =>
      simp only [oscAdvance, controlSteps_osc, controlSteps_sampleRate, SampleResult.sample.injEq, Option.some.injEq]
      constructor
      · rintro ⟨rfl, rfl⟩; exact ⟨f, g, rfl, rfl, rfl, rfl⟩
      · rintro ⟨f', g', rfl, rfl, rfl, rfl⟩; exact ⟨rfl, rfl⟩

/-- A sample step that meets a NaN: the frequency clamp comes first (60 R264), and the fields are those after steps 1 to
3. -/
theorem sampleStep_eq_nanAt {v v' : Voice} {p : Site} :
    sampleStep v = .nanAt p v' ↔ v' = controlSteps v ∧
      ((p = .freqClamp ∧ effectiveFrequency (controlSteps v) = none) ∨
        (p = .gainClamp ∧ effectiveFrequency (controlSteps v) ≠ none ∧ effectiveGain (controlSteps v) = none)) := by
  unfold sampleStep
  simp only
  cases hf : effectiveFrequency (controlSteps v) with
  | none => simp only [SampleResult.nanAt.injEq]; tauto
  | some f =>
    cases hg : effectiveGain (controlSteps v) with
    | none => simp only [SampleResult.nanAt.injEq]; constructor <;> simp <;> tauto
    | some g => simp

theorem effectiveFrequency_eq_none {v : Voice} :
    effectiveFrequency v = none ↔ isNaN (fadd v.freq.current v.freq.modulation) = true := clamp_eq_none

theorem effectiveGain_eq_none {v : Voice} :
    effectiveGain v = none ↔ isNaN (fmul v.gain.current v.gain.modulation) = true := clamp_eq_none

/-- A sample step whose LFO value is a NaN refuses at the frequency clamp (43 R190 (e), 45 R211). -/
theorem sampleStep_nan_lfo {v : Voice} (hr : v.routes = routeTable) (h : isNaN (sineWave v.lfo.phase) = true) :
    sampleStep v = .nanAt .freqClamp (controlSteps v) := by
  refine sampleStep_eq_nanAt.2 ⟨rfl, .inl ⟨rfl, effectiveFrequency_eq_none.2 ?_⟩⟩
  rw [controlSteps_freq_modulation hr]
  exact isNaN_fadd.2 (.inr (.inl (isNaN_fadd.2 (.inr (.inl (isNaN_fmul.2 (.inl h)))))))

/-- With the fixed table a finite frequency and a finite LFO value meet no NaN at the frequency clamp (45 R211). -/
theorem effectiveFrequency_isSome {v : Voice} (hr : v.routes = routeTable)
    (hc : isFinite (smooth v.freq kSmooth).current = true) (hl : isFinite (sineWave v.lfo.phase) = true) :
    ∃ f, effectiveFrequency (controlSteps v) = some f := by
  refine Option.ne_none_iff_exists'.1 fun h => ?_
  rw [effectiveFrequency_eq_none, controlSteps_freq_modulation hr, controlSteps_freq_current, routeDepth,
    fmul_one (isFinite_not_isNaN hl), isNaN_fadd] at h
  rcases h with h | h | ⟨h, -⟩
  · rw [isFinite_not_isNaN hc] at h; cases h
  · rw [fadd_not_isNaN isFinite_plusZero hl] at h; cases h
  · rw [isFinite_not_isInf hc] at h; cases h

/-- The fields a sample step only reads (10 R52). -/
theorem sampleStep_frame {v v' : Voice} {y : Word} (h : sampleStep v = .sample v' y) :
    v'.sampleRate = v.sampleRate ∧ v'.routes = v.routes ∧ v'.freq.target = v.freq.target ∧
      v'.gain.target = v.gain.target ∧ v'.osc.waveform = v.osc.waveform ∧ v'.lfo.freq = v.lfo.freq ∧
      v'.env.attack = v.env.attack ∧ v'.env.decay = v.env.decay ∧ v'.env.sustain = v.env.sustain ∧
      v'.env.release = v.env.release := by
  obtain ⟨f, g, -, -, -, rfl⟩ := sampleStep_eq_sample.1 h
  simp

/-! ## The render loop -/

/-- The samples of `n` frames, in order, and the fields after them; none when a clamp meets a NaN. -/
def renderSamples : Nat → Voice → Option (Voice × List Word)
  | 0, v => some (v, [])
  | n + 1, v =>
    match sampleStep v with
    | .sample v' y => (renderSamples n v').map fun r => (r.1, y :: r.2)
    | .nanAt _ _ => none

/-- The slot writes of the samples `ys` from slot `i` on. -/
def writeAll (base : Nat) : Nat → List Word → State → State
  | _, [], s => s
  | i, y :: ys, s => writeAll base (i + 1) ys (s.outWrite base i y)

theorem renderSamples_succ {n : Nat} {v v' : Voice} {ys : List Word} :
    renderSamples (n + 1) v = some (v', ys) ↔
      ∃ v1 y ys', sampleStep v = .sample v1 y ∧ renderSamples n v1 = some (v', ys') ∧ ys = y :: ys' := by
  simp only [renderSamples]
  cases h : sampleStep v with
  | sample v1 y =>
    simp only [Option.map_eq_some_iff, Prod.mk.injEq, Prod.exists, SampleResult.sample.injEq]
    constructor
    · rintro ⟨a, b, h1, rfl, rfl⟩; exact ⟨v1, y, b, ⟨rfl, rfl⟩, h1, rfl⟩
    · rintro ⟨_, _, b, ⟨rfl, rfl⟩, h1, rfl⟩; exact ⟨_, b, h1, rfl, rfl⟩
  | nanAt p v1 => simp

theorem renderSamples_length {n : Nat} {v v' : Voice} {ys : List Word} (h : renderSamples n v = some (v', ys)) :
    ys.length = n := by
  induction n generalizing v ys with
  | zero => simp only [renderSamples, Option.some.injEq, Prod.mk.injEq] at h; simp [← h.2]
  | succ n ih =>
    obtain ⟨v1, y, ys', -, h2, rfl⟩ := renderSamples_succ.1 h
    simp [ih h2]

/-- The fields a render only reads (10 R52). -/
theorem renderSamples_frame {n : Nat} {v v' : Voice} {ys : List Word} (h : renderSamples n v = some (v', ys)) :
    v'.sampleRate = v.sampleRate ∧ v'.routes = v.routes ∧ v'.freq.target = v.freq.target ∧
      v'.gain.target = v.gain.target ∧ v'.osc.waveform = v.osc.waveform ∧ v'.lfo.freq = v.lfo.freq ∧
      v'.env.attack = v.env.attack ∧ v'.env.decay = v.env.decay ∧ v'.env.sustain = v.env.sustain ∧
      v'.env.release = v.env.release := by
  induction n generalizing v ys with
  | zero => simp only [renderSamples, Option.some.injEq, Prod.mk.injEq] at h; simp [h.1]
  | succ n ih =>
    obtain ⟨v1, y, ys', h1, h2, rfl⟩ := renderSamples_succ.1 h
    have a := ih h2
    have b := sampleStep_frame h1
    simp only [a, b, and_self]

/-- A property of the Live fields that every sample step keeps holds after a render, and a property every sample step
gives its sample holds of each sample. -/
theorem renderSamples_induct {P : Voice → Prop} {Q : Word → Prop}
    (hstep : ∀ {v v' y}, P v → sampleStep v = .sample v' y → P v' ∧ Q y)
    {n : Nat} {v v' : Voice} {ys : List Word} (h0 : P v) (h : renderSamples n v = some (v', ys)) :
    P v' ∧ ∀ y ∈ ys, Q y := by
  induction n generalizing v ys with
  | zero =>
    simp only [renderSamples, Option.some.injEq, Prod.mk.injEq] at h
    obtain ⟨rfl, rfl⟩ := h
    exact ⟨h0, by simp⟩
  | succ n ih =>
    obtain ⟨v1, y, ys', h1, h2, rfl⟩ := renderSamples_succ.1 h
    obtain ⟨h3, h4⟩ := hstep h0 h1
    obtain ⟨h5, h6⟩ := ih h3 h2
    exact ⟨h5, by simpa using ⟨h4, h6⟩⟩

/-- Two renders are one (45 R214 (b)). -/
theorem renderSamples_add {n m : Nat} {v : Voice} :
    renderSamples (n + m) v =
      (renderSamples n v).bind fun r => (renderSamples m r.1).map fun q => (q.1, r.2 ++ q.2) := by
  induction n generalizing v with
  | zero =>
    rw [Nat.zero_add]
    simp [renderSamples]
  | succ n ih =>
    rw [Nat.succ_add]
    simp only [renderSamples]
    cases sampleStep v with
    | sample v1 y =>
      simp only [ih]
      cases renderSamples n v1 with
      | none => simp
      | some r =>
        simp only [Option.bind_some, Option.map_some, Option.map_map, List.cons_append]
        rfl
    | nanAt p v1 => simp

/-- The render loop answers a next state exactly when no clamp meets a NaN, and then has written the samples
(45 R214). -/
theorem renderLoop_eq_next {base n i : Nat} {v : Voice} {s t : State} :
    renderLoop base n i v s = .next t ↔
      ∃ v' ys, renderSamples n v = some (v', ys) ∧ t = (writeAll base i ys s).withVoice v' := by
  induction n generalizing i v s with
  | zero =>
    simp only [renderLoop, renderSamples, Host.Outcome.next.injEq, Option.some.injEq, Prod.mk.injEq]
    constructor
    · rintro rfl; exact ⟨v, [], ⟨rfl, rfl⟩, rfl⟩
    · rintro ⟨_, _, ⟨rfl, rfl⟩, rfl⟩; rfl
  | succ n ih =>
    simp only [renderLoop]
    cases h : sampleStep v with
    | sample v1 y =>
      simp only
      rw [ih]
      constructor
      · rintro ⟨v', ys, h1, rfl⟩
        exact ⟨v', y :: ys, renderSamples_succ.2 ⟨v1, y, ys, h, h1, rfl⟩, rfl⟩
      · rintro ⟨v', ys, h1, rfl⟩
        obtain ⟨v2, y2, ys', h2, h3, rfl⟩ := renderSamples_succ.1 h1
        rw [h] at h2
        cases h2
        exact ⟨v', ys', h3, rfl⟩
    | nanAt p v1 =>
      simp only [State.refuse, reduceCtorEq, false_iff]
      rintro ⟨v', ys, h1, -⟩
      obtain ⟨v2, y2, ys', h2, -⟩ := renderSamples_succ.1 h1
      rw [h] at h2
      cases h2

/-- The render loop refuses at the first sample step whose clamp meets a NaN, after the samples before it (60 R261). -/
theorem renderLoop_eq_refused {base n i : Nat} {v : Voice} {s : State} {r : Refusal} :
    renderLoop base n i v s = .refused r ↔
      ∃ k v1 ys p v2, k < n ∧ renderSamples k v = some (v1, ys) ∧ sampleStep v1 = .nanAt p v2 ∧
        r = .nanAtClamp (((writeAll base i ys s).withVoice v2).marked .nanAtClamp (some (i + k)) (some p)) := by
  induction n generalizing i v s with
  | zero => simp [renderLoop]
  | succ n ih =>
    simp only [renderLoop]
    cases h : sampleStep v with
    | sample v1 y =>
      simp only
      rw [ih]
      constructor
      · rintro ⟨k, w, ys, p, v2, hk, h1, h2, rfl⟩
        refine ⟨k + 1, w, y :: ys, p, v2, by omega, renderSamples_succ.2 ⟨v1, y, ys, h, h1, rfl⟩, h2, ?_⟩
        rw [show i + 1 + k = i + (k + 1) by omega]
        rfl
      · rintro ⟨k, w, ys, p, v2, hk, h1, h2, rfl⟩
        cases k with
        | zero =>
          simp only [renderSamples, Option.some.injEq, Prod.mk.injEq] at h1
          rw [← h1.1, h] at h2
          cases h2
        | succ k =>
          obtain ⟨v3, y3, ys', h3, h4, rfl⟩ := renderSamples_succ.1 h1
          rw [h] at h3
          cases h3
          refine ⟨k, w, ys', p, v2, by omega, h4, h2, ?_⟩
          rw [show i + 1 + k = i + (k + 1) by omega]
          rfl
    | nanAt p v1 =>
      simp only [State.refuse, refusalOf, Host.Outcome.refused.injEq]
      constructor
      · rintro rfl
        exact ⟨0, v, [], p, v1, by omega, rfl, h, rfl⟩
      · rintro ⟨k, w, ys, p', v2, hk, h1, h2, rfl⟩
        cases k with
        | zero =>
          simp only [renderSamples, Option.some.injEq, Prod.mk.injEq] at h1
          obtain ⟨rfl, rfl⟩ := h1
          rw [h] at h2
          cases h2
          rfl
        | succ k =>
          obtain ⟨v3, y3, ys', h3, -⟩ := renderSamples_succ.1 h1
          rw [h] at h3
          cases h3

theorem renderLoop_ne_fault {base n i : Nat} {v : Voice} {s : State} {f : Fault} : renderLoop base n i v s ≠ .fault f :=
  nomatch f

/-! ## Slot writes -/

section
variable (base i : Nat) (ys : List Word) (s : State)

@[simp] theorem writeAll_lc : (writeAll base i ys s).lc = s.lc := by
  induction ys generalizing i s with
  | nil => rfl
  | cons y ys ih => simp [writeAll, ih]

@[simp] theorem writeAll_port : (writeAll base i ys s).port = s.port := by
  induction ys generalizing i s with
  | nil => rfl
  | cons y ys ih => simp [writeAll, ih]

@[simp] theorem writeAll_buffers : (writeAll base i ys s).buffers = s.buffers := by
  induction ys generalizing i s with
  | nil => rfl
  | cons y ys ih => simp [writeAll, ih]

@[simp] theorem writeAll_commandIndex : (writeAll base i ys s).commandIndex = s.commandIndex := by
  induction ys generalizing i s with
  | nil => rfl
  | cons y ys ih => simp [writeAll, ih]

@[simp] theorem writeAll_renderIndex : (writeAll base i ys s).renderIndex = s.renderIndex := by
  induction ys generalizing i s with
  | nil => rfl
  | cons y ys ih => simp [writeAll, ih]

@[simp] theorem writeAll_refusal : (writeAll base i ys s).refusal = s.refusal := by
  induction ys generalizing i s with
  | nil => rfl
  | cons y ys ih => simp [writeAll, ih]

theorem writeAll_append (zs : List Word) :
    writeAll base i (ys ++ zs) s = writeAll base (i + ys.length) zs (writeAll base i ys s) := by
  induction ys generalizing i s with
  | nil => simp [writeAll]
  | cons y ys ih => simp [writeAll, ih, Nat.add_assoc, Nat.add_comm 1]

theorem writeAll_mem_wf (h : s.mem.wf = true) : (writeAll base i ys s).mem.wf = true := by
  induction ys generalizing i s with
  | nil => exact h
  | cons y ys ih => exact ih _ _ (by simpa using writeWord_wf _ _ h)

end

/-- The patterns the samples `ys` are written with, when `d` NaN samples were drawn before: a NaN is drawn. -/
def writtenPatterns : Nat → List Word → List Word
  | _, [] => []
  | d, y :: ys => (if isNaN y then drawNaN d else y) :: writtenPatterns (if isNaN y then d + 1 else d) ys

/-- How many NaN samples were drawn after the samples `ys`. -/
def drawsAfter : Nat → List Word → Nat
  | d, [] => d
  | d, y :: ys => drawsAfter (if isNaN y then d + 1 else d) ys

@[simp] theorem writtenPatterns_length (d : Nat) (ys : List Word) : (writtenPatterns d ys).length = ys.length := by
  induction ys generalizing d with
  | nil => rfl
  | cons y ys ih => simp [writtenPatterns, ih]

theorem writtenPatterns_append (d : Nat) (ys zs : List Word) :
    writtenPatterns d (ys ++ zs) = writtenPatterns d ys ++ writtenPatterns (drawsAfter d ys) zs := by
  induction ys generalizing d with
  | nil => rfl
  | cons y ys ih => simp [writtenPatterns, drawsAfter, ih]

theorem drawsAfter_append (d : Nat) (ys zs : List Word) :
    drawsAfter d (ys ++ zs) = drawsAfter (drawsAfter d ys) zs := by
  induction ys generalizing d with
  | nil => rfl
  | cons y ys ih => simp [drawsAfter, ih]

theorem writtenPatterns_of_no_nan {d : Nat} {ys : List Word} (h : ∀ y ∈ ys, isNaN y = false) :
    writtenPatterns d ys = ys := by
  induction ys generalizing d with
  | nil => rfl
  | cons y ys ih =>
    have h1 := h y List.mem_cons_self
    simp [writtenPatterns, h1, ih fun z hz => h z (List.mem_cons_of_mem _ hz)]

theorem writeAll_nanDraws (base i : Nat) (ys : List Word) (s : State) :
    (writeAll base i ys s).nanDraws = drawsAfter s.nanDraws ys := by
  induction ys generalizing i s with
  | nil => rfl
  | cons y ys ih => simp [writeAll, ih, drawsAfter]

/-- The history after the slot writes: one entry a slot, in order. -/
theorem writeAll_history (base i : Nat) (ys : List Word) (s : State) :
    (writeAll base i ys s).history = s.history ++
      (writtenPatterns s.nanDraws ys).mapIdx fun k y => { render := s.renderIndex, slot := i + k, pattern := y } := by
  induction ys generalizing i s with
  | nil => simp [writeAll, writtenPatterns]
  | cons y ys ih =>
    simp only [writeAll, ih, State.outWrite_history, State.outWrite_renderIndex, State.outWrite_nanDraws,
      writtenPatterns, List.mapIdx_cons, List.append_assoc, List.singleton_append, Nat.add_zero]
    congr 3
    funext k z
    congr 1
    omega

/-- The slot writes change no byte outside the slots. -/
theorem writeAll_readByte_outside (base i : Nat) (ys : List Word) (s : State) {a : Nat}
    (h : a < slotAddress base i ∨ slotAddress base (i + ys.length) ≤ a) :
    readByte (writeAll base i ys s).mem a = readByte s.mem a := by
  induction ys generalizing i s with
  | nil => rfl
  | cons y ys ih =>
    simp only [slotAddress, List.length_cons] at h ih
    rw [writeAll, ih (i + 1) _ (by omega), State.outWrite_mem, readByte_writeWord_outside _ _ (by simp only [slotAddress]; omega)]

end Sys2Proof.Machine
end

