-- ==== Sys2Proof/Laws/Commands.lean ====
section
/-! SUPPORT. What a command and a step can do (spec 46, 60, 70), said once: when each answers a next state, and which. -/

namespace Sys2Proof.Machine

/-! ## Shared operations -/

@[simp] theorem refuse_ne_next {s t : State} {r : Reason} {i : Option Nat} {p : Option Site} :
    s.refuse r i p ≠ .next t := by simp [State.refuse]

theorem whenLive_live {s : State} {v : Voice} {f : Voice → Host.Outcome State Fault Refusal} (h : s.lc = .live v) :
    s.whenLive f = f v := by simp [State.whenLive, h]

theorem whenLive_unconstructed {s : State} {f : Voice → Host.Outcome State Fault Refusal} (h : s.lc = .unconstructed) :
    s.whenLive f = s.refuse .notLive none none := by simp [State.whenLive, h]

/-- A command that needs a Live block answers a next state only while Live. -/
theorem whenLive_eq_next {s t : State} {f : Voice → Host.Outcome State Fault Refusal} :
    s.whenLive f = .next t ↔ ∃ v, s.lc = .live v ∧ f v = .next t := by
  unfold State.whenLive
  cases h : s.lc <;> simp

theorem update_eq_next {s t : State} {f : Voice → Voice} :
    s.update f = .next t ↔ ∃ v, s.lc = .live v ∧ t = s.withVoice (f v) := by
  rw [State.update, whenLive_eq_next]
  simp only [Host.Outcome.next.injEq, eq_comm (b := t)]

/-! ## The commands -/

theorem execCreate_eq_next {sr : Word} {s t : State} :
    execCreate sr s = .next t ↔ validSampleRate sr = true ∧ t = { s with lc := .live (initialVoice sr) } := by
  unfold execCreate floatOperand
  simp only
  by_cases h : validSampleRate sr = true
  · rw [if_pos h]
    simp only [Host.Outcome.next.injEq, h, true_and]
    exact eq_comm
  · rw [if_neg h]
    simp [h]

/-- A render answers a next state exactly while Live, with a fitting buffer, and when no clamp meets a NaN. -/
theorem execRender_eq_next {n : Word} {s t : State} :
    execRender n s = .next t ↔ ∃ v v' ys, s.lc = .live v ∧ bufferFits s.buffer n.toNat = true ∧
      renderSamples n.toNat v = some (v', ys) ∧
      t = ((writeAll s.buffer.base 0 ys s).withVoice v').endRender := by
  unfold execRender u32Operand
  rw [whenLive_eq_next]
  simp only
  constructor
  · rintro ⟨v, hv, h⟩
    split at h
    · rename_i hb
      split at h
      · rename_i t' ht
        obtain ⟨v', ys, h1, rfl⟩ := renderLoop_eq_next.1 ht
        exact ⟨v, v', ys, hv, hb, h1, (Host.Outcome.next.inj h).symm⟩
      · cases h
      · cases h
    · simp at h
  · rintro ⟨v, v', ys, hv, hb, h1, rfl⟩
    refine ⟨v, hv, ?_⟩
    rw [if_pos hb, renderLoop_eq_next.2 ⟨v', ys, h1, rfl⟩]

/-- A render is refused inside a sample step at the first NaN a clamp meets, after the samples before it. -/
theorem execRender_eq_nanAtClamp {n : Word} {s f : State} :
    execRender n s = .refused (.nanAtClamp f) ↔ ∃ v k v1 ys p v2, s.lc = .live v ∧ bufferFits s.buffer n.toNat = true ∧
      k < n.toNat ∧ renderSamples k v = some (v1, ys) ∧ sampleStep v1 = .nanAt p v2 ∧
      f = ((writeAll s.buffer.base 0 ys s).withVoice v2).marked .nanAtClamp (some k) (some p) := by
  unfold execRender u32Operand
  cases hl : s.lc with
  | unconstructed => simp [whenLive_unconstructed hl, State.refuse, refusalOf]
  | live v =>
    rw [whenLive_live hl]
    simp only
    by_cases hb : bufferFits s.buffer n.toNat = true
    · rw [if_pos hb]
      constructor
      · intro h
        split at h
        · cases h
        · cases h
        · rename_i r hr
          cases h
          obtain ⟨k, v1, ys, p, v2, hk, h1, h2, h3⟩ := renderLoop_eq_refused.1 hr
          cases h3
          exact ⟨v, k, v1, ys, p, v2, rfl, hb, hk, h1, h2, by rw [Nat.zero_add]⟩
      · rintro ⟨v', k, v1, ys, p, v2, h0, -, hk, h1, h2, rfl⟩
        cases h0
        rw [renderLoop_eq_refused.2 ⟨k, v1, ys, p, v2, hk, h1, h2, rfl⟩, Nat.zero_add]
    · rw [if_neg hb]
      simp [State.refuse, refusalOf, hb]

theorem execSetAdsr_eq_next {a d su r : Word} {s t : State} :
    execSetAdsr a d su r s = .next t ↔ ∃ v e, s.lc = .live v ∧ storeShape v.env a d su r = some e ∧
      t = s.withVoice { v with env := e } := by
  unfold execSetAdsr floatOperand
  rw [whenLive_eq_next]
  refine exists_congr fun v => ?_
  cases h : storeShape v.env a d su r
  · simp
  · simp only [Host.Outcome.next.injEq, Option.some.injEq, eq_comm (b := t)]
    constructor
    · rintro ⟨h1, h2⟩; exact ⟨_, h1, rfl, h2⟩
    · rintro ⟨e, h1, rfl, h2⟩; exact ⟨h1, h2⟩

theorem execDestroy_eq_next {s t : State} :
    execDestroy s = .next t ↔ ∃ v, s.lc = .live v ∧ t = { s with lc := .unconstructed } := by
  rw [execDestroy, whenLive_eq_next]
  simp only [Host.Outcome.next.injEq, eq_comm (b := t)]

/-- Every command that answers a next state, in one list: create; destroy; render; or a setter, which replaces the Live
fields and nothing else. -/
theorem exec_eq_next {i : Instr} {s t : State} (h : exec i s = .next t) :
    (∃ sr, i = .create sr ∧ validSampleRate sr = true ∧ t = { s with lc := .live (initialVoice sr) }) ∨
    (i = .destroy ∧ (∃ v, s.lc = .live v) ∧ t = { s with lc := .unconstructed }) ∨
    (∃ n v v' ys, i = .render n ∧ s.lc = .live v ∧ bufferFits s.buffer n.toNat = true ∧
      renderSamples n.toNat v = some (v', ys) ∧ t = ((writeAll s.buffer.base 0 ys s).withVoice v').endRender) ∨
    (∃ v v', s.lc = .live v ∧ t = s.withVoice v' ∧
      ((∃ x, i = .setGain x ∧ v' = { v with gain := setAbsolute v.gain x }) ∨
        (∃ x, i = .setFrequency x ∧ v' = { v with freq := setAbsolute v.freq x }) ∨
        (i = .noteOn ∧ v' = { v with env := noteOnEvent v.env }) ∨
        (i = .noteOff ∧ v' = { v with env := noteOffEvent v.env }) ∨
        (∃ a d su r e, i = .setAdsr a d su r ∧ storeShape v.env a d su r = some e ∧ v' = { v with env := e }) ∨
        (∃ x, i = .setWaveform x ∧ v' = { v with osc := { v.osc with waveform := waveformOfId x.toNat } }) ∨
        (∃ x, i = .setLfoRate x ∧ v' = { v with lfo := { v.lfo with freq := x } }))) := by
  cases i with
  | create sr =>
    obtain ⟨h1, h2⟩ := execCreate_eq_next.1 h
    exact .inl ⟨sr, rfl, h1, h2⟩
  | destroy =>
    obtain ⟨v, h1, h2⟩ := execDestroy_eq_next.1 h
    exact .inr (.inl ⟨rfl, ⟨v, h1⟩, h2⟩)
  | render n =>
    obtain ⟨v, v', ys, h1, h2, h3, h4⟩ := execRender_eq_next.1 h
    exact .inr (.inr (.inl ⟨n, v, v', ys, rfl, h1, h2, h3, h4⟩))
  | setAdsr a d su r =>
    obtain ⟨v, e, h1, h2, h3⟩ := execSetAdsr_eq_next.1 h
    exact .inr (.inr (.inr ⟨v, _, h1, h3, .inr (.inr (.inr (.inr (.inl ⟨a, d, su, r, e, rfl, h2, rfl⟩))))⟩))
  | setGain x =>
    obtain ⟨v, h1, h2⟩ := update_eq_next.1 h
    exact .inr (.inr (.inr ⟨v, _, h1, h2, .inl ⟨x, rfl, rfl⟩⟩))
  | setFrequency x =>
    obtain ⟨v, h1, h2⟩ := update_eq_next.1 h
    exact .inr (.inr (.inr ⟨v, _, h1, h2, .inr (.inl ⟨x, rfl, rfl⟩)⟩))
  | noteOn =>
    obtain ⟨v, h1, h2⟩ := update_eq_next.1 h
    exact .inr (.inr (.inr ⟨v, _, h1, h2, .inr (.inr (.inl ⟨rfl, rfl⟩))⟩))
  | noteOff =>
    obtain ⟨v, h1, h2⟩ := update_eq_next.1 h
    exact .inr (.inr (.inr ⟨v, _, h1, h2, .inr (.inr (.inr (.inl ⟨rfl, rfl⟩)))⟩))
  | setWaveform x =>
    obtain ⟨v, h1, h2⟩ := update_eq_next.1 h
    exact .inr (.inr (.inr ⟨v, _, h1, h2, .inr (.inr (.inr (.inr (.inr (.inl ⟨x, rfl, rfl⟩)))))⟩))
  | setLfoRate x =>
    obtain ⟨v, h1, h2⟩ := update_eq_next.1 h
    exact .inr (.inr (.inr ⟨v, _, h1, h2, .inr (.inr (.inr (.inr (.inr (.inr ⟨x, rfl, rfl⟩)))))⟩))

/-- A refusal with a record: one of the seven reasons of 60 R262, the state it carries marked with that reason and the index
of the command (60 R261). -/
def Recorded (k : Nat) (r : Refusal) : Prop :=
  ∃ (f : State) (record : RefusalRecord), r = refusalOf record.reason f ∧ f.refusal = some record ∧ record.command = k

theorem recorded_marked {s : State} {k : Nat} {reason : Reason} {i : Option Nat} {p : Option Site}
    (h : s.commandIndex = k) : Recorded k (refusalOf reason (s.marked reason i p)) :=
  ⟨_, { reason := reason, command := s.commandIndex, frame := i, site := p }, rfl, rfl, h⟩

theorem recorded_refuse {s : State} {reason : Reason} {i : Option Nat} {p : Option Site} {r : Refusal}
    (h : s.refuse reason i p = .refused r) : Recorded s.commandIndex r := by
  cases h
  exact recorded_marked rfl

theorem recorded_whenLive {s : State} {f : Voice → Host.Outcome State Fault Refusal} {r : Refusal}
    (h : s.whenLive f = .refused r) (hf : ∀ v, f v = .refused r → Recorded s.commandIndex r) :
    Recorded s.commandIndex r := by
  unfold State.whenLive at h
  split at h
  · exact hf _ h
  · exact recorded_refuse h

theorem update_refused_recorded {s : State} {f : Voice → Voice} {r : Refusal} (h : s.update f = .refused r) :
    Recorded s.commandIndex r :=
  recorded_whenLive h fun _ hv => by cases hv

/-- Every refusal of a command has its record. -/
theorem exec_refused_recorded {i : Instr} {s : State} {r : Refusal} (h : exec i s = .refused r) :
    Recorded s.commandIndex r := by
  cases i with
  | create sr =>
    simp only [exec, execCreate] at h
    split at h
    · cases h
    · exact recorded_refuse h
  | render n =>
    refine recorded_whenLive h fun v hv => ?_
    simp only at hv
    split at hv
    · split at hv
      · cases hv
      · cases hv
      · rename_i hr
        cases hv
        obtain ⟨k, v1, ys, p, v2, -, -, -, rfl⟩ := renderLoop_eq_refused.1 hr
        exact recorded_marked (reason := .nanAtClamp) (by simp)
    · exact recorded_refuse hv
  | setAdsr a d su r' =>
    refine recorded_whenLive h fun v hv => ?_
    split at hv
    · cases hv
    · exact recorded_refuse hv
  | destroy => exact recorded_whenLive h fun v hv => by cases hv
  | setGain x => exact update_refused_recorded h
  | setFrequency x => exact update_refused_recorded h
  | noteOn => exact update_refused_recorded h
  | noteOff => exact update_refused_recorded h
  | setWaveform x => exact update_refused_recorded h
  | setLfoRate x => exact update_refused_recorded h

/-! ## The step -/

theorem decode_eq_done {ws : List Word} : decode ws = .done ↔ ws = [] := by
  cases ws with
  | nil => simp [decode]
  | cons w ws =>
    simp only [decode, reduceCtorEq, iff_false]
    split
    · simp
    · split
      · simp
      · split <;> simp

/-- A step that answers a next state starts unmarked; the port is empty and nothing changes, or it ran a command to its
end. -/
theorem step_eq_next {s t : State} (h : step s = .next t) :
    s.refusal = none ∧ ((s.port = [] ∧ t = s) ∨
      ∃ i rest t', decode s.port = .command i rest ∧ exec i s = .next t' ∧ t = t'.retire rest) := by
  unfold step at h
  split at h
  · cases h
  · rename_i hr
    refine ⟨hr, ?_⟩
    split at h
    · rename_i hd
      exact .inl ⟨decode_eq_done.1 hd, (Host.Outcome.next.inj h).symm⟩
    · simp at h
    · rename_i i rest hd
      split at h
      · rename_i t' ht
        exact .inr ⟨i, rest, t', hd, ht, (Host.Outcome.next.inj h).symm⟩
      · cases h
      · cases h

/-- No step faults: there is no fault (60 R260). -/
theorem step_ne_fault {s : State} {f : Fault} : step s ≠ .fault f := nomatch f

end Sys2Proof.Machine
end

