-- ==== Sys2Proof/Laws/Decode.lean ====
section
/-! SUPPORT. What the decoder can do (spec 30 R111), said once: which opcodes are assigned, and when it answers what. -/

namespace Sys2Proof

/-- An opcode is assigned when it is one of 0x01 to 0x0A (30 R106). -/
theorem operandCount_isSome {o : Nat} : (operandCount o).isSome = true ↔ 1 ≤ o ∧ o ≤ 10 := by
  constructor
  · intro h
    by_contra hc
    have : operandCount o = none := by
      unfold operandCount
      split <;> first | omega | rfl
    rw [this] at h
    cases h
  · rintro ⟨h1, h2⟩
    interval_cases o <;> rfl

theorem operandCount_eq_none {o : Nat} : operandCount o = none ↔ o = 0 ∨ 11 ≤ o := by
  rw [← Option.not_isSome_iff_eq_none, operandCount_isSome]
  omega

/-- The fields of a command word make up the word (30 R101). -/
theorem word_fields (w : Word) : w.toNat = 256 * rsvField w + opcField w := by
  simp only [rsvField, opcField]; omega

/-- The words of a command by its opcode: the command word and its operand words (30 R105). -/
theorem wordCount_eq {w : Word} {k : Nat} (h : operandCount (opcField w) = some k) : wordCount w = k + 1 := by
  have hs := operandCount_isSome.1 (Option.isSome_of_eq_some h)
  simp only [wordCount]
  rw [← show opcField w = w.toNat % 256 from rfl]
  generalize opcField w = o at *
  obtain ⟨h1, h2⟩ := hs
  interval_cases o <;> simp [operandCount] at h <;> subst h <;> rfl

/-- The reserved opcodes are refused first (30 R106). -/
theorem decode_reservedOpcode {w : Word} {ws : List Word} (h : operandCount (opcField w) = none) :
    decode (w :: ws) = .refuse .reservedOpcode := by
  simp only [decode, h]

/-- Then nonzero reserved bits (30 R107). -/
theorem decode_reservedBits {w : Word} {ws : List Word} {k : Nat} (h : operandCount (opcField w) = some k)
    (hr : rsvField w ≠ 0) : decode (w :: ws) = .refuse .reservedBits := by
  simp only [decode, h]
  rw [if_pos hr]

/-- Then missing operand words (30 R108). -/
theorem decode_truncated {w : Word} {ws : List Word} {k : Nat} (h : operandCount (opcField w) = some k)
    (hr : rsvField w = 0) (hl : ws.length < k) : decode (w :: ws) = .refuse .truncated := by
  simp only [decode, h]
  rw [if_neg (not_not.2 hr), if_neg (by omega)]

/-- A complete command decodes to its row of the opcode map (30 R102, R111). -/
theorem decode_command {w : Word} {ws : List Word} {k : Nat} {i : Instr} (h : operandCount (opcField w) = some k)
    (hr : rsvField w = 0) (hl : k ≤ ws.length) (hi : instrOf (opcField w) (ws.take k) = some i) :
    decode (w :: ws) = .command i (ws.drop k) := by
  simp only [decode, h]
  rw [if_neg (not_not.2 hr), if_pos hl, hi]

/-- Where the decoder answers a command, the words were complete and legal (30 R111). -/
theorem decode_eq_command {w : Word} {ws rest : List Word} {i : Instr} (h : decode (w :: ws) = .command i rest) :
    ∃ k, operandCount (opcField w) = some k ∧ rsvField w = 0 ∧ k ≤ ws.length ∧
      instrOf (opcField w) (ws.take k) = some i ∧ rest = ws.drop k := by
  simp only [decode] at h
  cases hk : operandCount (opcField w) with
  | none => simp only [hk] at h; cases h
  | some k =>
    simp only [hk] at h
    by_cases hr : rsvField w = 0
    · rw [if_neg (not_not.2 hr)] at h
      by_cases hl : k ≤ ws.length
      · rw [if_pos hl] at h
        cases hi : instrOf (opcField w) (ws.take k) with
        | none => rw [hi] at h; cases h
        | some j =>
          rw [hi] at h
          cases h
          exact ⟨k, rfl, hr, hl, hi, rfl⟩
      · rw [if_neg hl] at h
        cases h
    · rw [if_pos hr] at h
      cases h

theorem noOperand_eq_some {i j : Instr} {ops : List Word} (h : noOperand i ops = some j) : ops = [] ∧ j = i := by
  cases ops with
  | nil => exact ⟨rfl, (Option.some.inj h).symm⟩
  | cons x xs => cases h

theorem oneOperand_eq_some {f : Word → Instr} {j : Instr} {ops : List Word} (h : oneOperand f ops = some j) :
    ∃ x, ops = [x] ∧ j = f x := by
  match ops, h with
  | [x], h => exact ⟨x, rfl, (Option.some.inj h).symm⟩

theorem fourOperands_eq_some {f : Word → Word → Word → Word → Instr} {j : Instr} {ops : List Word}
    (h : fourOperands f ops = some j) : ∃ x y z t, ops = [x, y, z, t] ∧ j = f x y z t := by
  match ops, h with
  | [x, y, z, t], h => exact ⟨x, y, z, t, rfl, (Option.some.inj h).symm⟩

/-- The row of the opcode map a command comes from: its opcode and its operand words (30 R102). -/
theorem instrOf_eq_some {o : Nat} {ops : List Word} {i : Instr} (h : instrOf o ops = some i) :
    o = (commandWord i).toNat ∧ ops = operandWords i := by
  unfold instrOf at h
  split at h
  case h_11 => cases h
  all_goals first
    | (obtain ⟨rfl, rfl⟩ := noOperand_eq_some h; exact ⟨rfl, rfl⟩)
    | (obtain ⟨x, rfl, rfl⟩ := oneOperand_eq_some h; exact ⟨rfl, rfl⟩)
    | (obtain ⟨x, y, z, t, rfl, rfl⟩ := fourOperands_eq_some h; exact ⟨rfl, rfl⟩)

theorem instrOf_encode (i : Instr) : instrOf (opcField (commandWord i)) (operandWords i) = some i := by
  cases i <;> rfl

theorem operandCount_encode (i : Instr) :
    operandCount (opcField (commandWord i)) = some (operandWords i).length := by
  cases i <;> rfl

theorem rsvField_commandWord (i : Instr) : rsvField (commandWord i) = 0 := by
  cases i <;> simp [rsvField, commandWord]

end Sys2Proof
end

