-- ==== Sys2Proof/Laws/PerInstr.lean ====
section
/-! SUPPORT. Statements made per instruction: the words a command is encoded in are well formed and as many as its opcode
says (spec 30 R101 to R105). -/

namespace Sys2Proof.Laws.Encoding

/-- The words of the command are well formed, as many as its opcode says, and the first holds nothing but an opcode. -/
def Statement (i : Instr) : Prop :=
  wordsWellFormed (encode i) = true ∧ (encode i).length = wordCount (commandWord i) ∧ rsvField (commandWord i) = 0

theorem create (sampleRate : Word) : Statement (.create sampleRate) := by
  simp [Statement, wordsWellFormed, encode, operandWords, commandWord, wordCount, rsvField, opcodeAssigned,
    reservedBitsZero]
theorem render (frameCount : Word) : Statement (.render frameCount) := by
  simp [Statement, wordsWellFormed, encode, operandWords, commandWord, wordCount, rsvField, opcodeAssigned,
    reservedBitsZero]
theorem setGain (value : Word) : Statement (.setGain value) := by
  simp [Statement, wordsWellFormed, encode, operandWords, commandWord, wordCount, rsvField, opcodeAssigned,
    reservedBitsZero]
theorem setFrequency (value : Word) : Statement (.setFrequency value) := by
  simp [Statement, wordsWellFormed, encode, operandWords, commandWord, wordCount, rsvField, opcodeAssigned,
    reservedBitsZero]
theorem noteOn : Statement .noteOn := by
  simp [Statement, wordsWellFormed, encode, operandWords, commandWord, wordCount, rsvField, opcodeAssigned,
    reservedBitsZero]
theorem noteOff : Statement .noteOff := by
  simp [Statement, wordsWellFormed, encode, operandWords, commandWord, wordCount, rsvField, opcodeAssigned,
    reservedBitsZero]
theorem setAdsr (attack decay sustain release : Word) : Statement (.setAdsr attack decay sustain release) := by
  simp [Statement, wordsWellFormed, encode, operandWords, commandWord, wordCount, rsvField, opcodeAssigned,
    reservedBitsZero]
theorem setWaveform (id : Word) : Statement (.setWaveform id) := by
  simp [Statement, wordsWellFormed, encode, operandWords, commandWord, wordCount, rsvField, opcodeAssigned,
    reservedBitsZero]
theorem setLfoRate (freq : Word) : Statement (.setLfoRate freq) := by
  simp [Statement, wordsWellFormed, encode, operandWords, commandWord, wordCount, rsvField, opcodeAssigned,
    reservedBitsZero]
theorem destroy : Statement .destroy := by
  simp [Statement, wordsWellFormed, encode, operandWords, commandWord, wordCount, rsvField, opcodeAssigned,
    reservedBitsZero]

end Sys2Proof.Laws.Encoding
end

