-- ==== Sys2Proof/Machine/Assembler.lean ====
section
/-! DEFINITION. The assembly syntax of spec 30 R112: one command a line, the operation's name and its operands separated by
commas, comments from `#` on. The mnemonics of R113's internal operations are no commands, so they do not assemble. -/

namespace Sys2Proof.Machine

/-! ## Text -/

/-- A blank within a line. -/
def isBlank (c : Char) : Bool := c == ' ' || c == '\t' || c == '\r'

/-- The text without blanks at either end. -/
def trim (cs : List Char) : List Char := ((cs.dropWhile isBlank).reverse.dropWhile isBlank).reverse

/-- The pieces of a text between the separators. -/
def splitAtChar (sep : Char) : List Char → List (List Char)
  | [] => [[]]
  | c :: cs =>
    match splitAtChar sep cs with
    | [] => [[c]]
    | p :: ps => if c == sep then [] :: p :: ps else (c :: p) :: ps

/-- The value of a digit in a base up to 16. -/
def digitValue (base : Nat) (c : Char) : Option Nat :=
  let n := c.toNat
  let d :=
    if 48 ≤ n ∧ n ≤ 57 then n - 48
    else if 97 ≤ n ∧ n ≤ 102 then n - 87
    else if 65 ≤ n ∧ n ≤ 70 then n - 55
    else 16
  if d < base then some d else none

/-- The number the digits write, after the value read so far. -/
def readDigits (base : Nat) : Nat → List Char → Option Nat
  | acc, [] => some acc
  | acc, c :: cs =>
    match digitValue base c with
    | some d => readDigits base (base * acc + d) cs
    | none => none

/-- A number of at least one digit. -/
def readNumber (base : Nat) (cs : List Char) : Option Nat :=
  if cs.isEmpty then none else readDigits base 0 cs

/-- The text after `0x`, where it begins so. -/
def afterHexMark : List Char → Option (List Char)
  | '0' :: 'x' :: cs => some cs
  | _ => none

/-! ## Operands (30 R112) -/

/-- A u32 operand, decimal or hexadecimal. -/
def parseU32 (cs : List Char) : Option Word :=
  let n := match afterHexMark cs with
    | some hex => readNumber 16 hex
    | none => readNumber 10 cs
  match n with
  | some n => if n < 2 ^ 32 then some (BitVec.ofNat 32 n) else none
  | none => none

/-- The digits of a decimal number and how many of them stand after the point. -/
def parseMantissa (cs : List Char) : Option (Nat × Nat) :=
  match splitAtChar '.' cs with
  | [whole] => (readNumber 10 whole).map fun n => (n, 0)
  | [whole, fraction] =>
    match readNumber 10 whole, readNumber 10 fraction with
    | some _, some _ => (readNumber 10 (whole ++ fraction)).map fun n => (n, fraction.length)
    | _, _ => none
  | _ => none

/-- A decimal number without its sign, rounded to the nearest binary32, ties to even; a power of ten may follow an `e`, as
spec 95 writes `1e6` and `1e-9`. -/
def parseDecimal (negative : Bool) (cs : List Char) : Option Word :=
  match splitAtChar 'e' cs with
  | [mantissa] => (parseMantissa mantissa).map fun m => decimal negative m.1 m.2
  | [mantissa, '-' :: power] =>
    match parseMantissa mantissa, readNumber 10 power with
    | some m, some k => some (decimal negative m.1 (m.2 + k))
    | _, _ => none
  | [mantissa, power] =>
    match parseMantissa mantissa, readNumber 10 power with
    | some m, some k => some (decimal negative (m.1 * 10 ^ k) m.2)
    | _, _ => none
  | _ => none

/-- The pattern `nan` stands for. -/
def quietNaN : Word := 0x7FC00000

/-- A binary32 operand: `+inf`, `-inf`, `nan`, a raw pattern of eight hexadecimal digits taken bit for bit, or a decimal
number. -/
def parseFloat (cs : List Char) : Option Word :=
  if cs = "+inf".toList then some plusInf
  else if cs = "-inf".toList then some (fneg plusInf)
  else if cs = "nan".toList then some quietNaN
  else
    match afterHexMark cs with
    | some hex => if hex.length = 8 then (readNumber 16 hex).map (BitVec.ofNat 32) else none
    | none =>
      match cs with
      | '-' :: rest => parseDecimal true rest
      | '+' :: rest => parseDecimal false rest
      | _ => parseDecimal false cs

/-- A waveform id, by name or as a u32. -/
def parseWaveform (cs : List Char) : Option Word :=
  if cs = "sine".toList then some 0
  else if cs = "square".toList then some 1
  else if cs = "triangle".toList then some 2
  else if cs = "saw".toList then some 3
  else parseU32 cs

/-! ## Commands -/

/-- A command without operands. -/
def parse0 (i : Instr) : List (List Char) → Option Instr
  | [] => some i
  | _ :: _ => none

/-- A command with one operand. -/
def parse1 (f : Word → Instr) (operand : List Char → Option Word) : List (List Char) → Option Instr
  | [x] => (operand x).map f
  | _ => none

/-- `set_adsr` with its four operands. -/
def parse4 : List (List Char) → Option Instr
  | [a, d, s, r] =>
    match parseFloat a, parseFloat d, parseFloat s, parseFloat r with
    | some a, some d, some s, some r => some (.setAdsr a d s r)
    | _, _, _, _ => none
  | _ => none

/-- The command of a name and its operands. -/
def parseCommand (name : List Char) (ops : List (List Char)) : Option Instr :=
  if name = "create".toList then parse1 .create parseFloat ops
  else if name = "render".toList then parse1 .render parseU32 ops
  else if name = "set_gain".toList then parse1 .setGain parseFloat ops
  else if name = "set_frequency".toList then parse1 .setFrequency parseFloat ops
  else if name = "note_on".toList then parse0 .noteOn ops
  else if name = "note_off".toList then parse0 .noteOff ops
  else if name = "set_adsr".toList then parse4 ops
  else if name = "set_waveform".toList then parse1 .setWaveform parseWaveform ops
  else if name = "set_lfo_rate".toList then parse1 .setLfoRate parseFloat ops
  else if name = "destroy".toList then parse0 .destroy ops
  else none

/-- The commands of one line: none where it is blank or a comment, else one. -/
def parseLine (cs : List Char) : Option (List Instr) :=
  let text := trim (cs.takeWhile fun c => c != '#')
  let name := text.takeWhile fun c => !isBlank c
  let rest := trim (text.drop name.length)
  if text.isEmpty then some []
  else (parseCommand name (if rest.isEmpty then [] else (splitAtChar ',' rest).map trim)).map fun i => [i]

/-- The commands of the lines, when every line is one. -/
def parseLines : List (List Char) → Option (List Instr)
  | [] => some []
  | l :: ls =>
    match parseLine l, parseLines ls with
    | some i, some is => some (i ++ is)
    | _, _ => none

/-- The command words an assembly text stands for (30 R100, R112). -/
def assemble (text : String) : Option (List Word) :=
  (parseLines (splitAtChar '\n' text.toList)).map encodeAll

end Sys2Proof.Machine
end

