-- ==== Sys2Proof/Tests/Slice0.lean ====
section
/-! SUPPORT. Tests: expected results are the spec's own (30 R114, 10 R49, the vectors of spec 95, named beside each), and a
witness for the hypotheses of every statement that has some. -/

namespace Sys2Proof.Tests

open Sys2Proof.Machine

-- One test at a time: a kernel evaluation waits for all declarations before it, and each waiting test holds a stack.
set_option Elab.async false

/-! ## Helpers -/

/-- The next state of an outcome, if it is one. -/
def stateAfter : Host.Outcome State Fault Refusal → Option State
  | .next t => some t
  | .fault _ => none
  | .refused _ => none

theorem stateAfter_isSome {o : Host.Outcome State Fault Refusal} {t : State} (h : o = .next t) :
    (stateAfter o).isSome = true := by rw [h]; rfl

theorem eq_next {o : Host.Outcome State Fault Refusal} (d : State) (h : (stateAfter o).isSome = true) :
    o = .next ((stateAfter o).getD d) := by
  cases o with
  | next t => rfl
  | fault f => cases f
  | refused r => cases h

/-- The state a refusal carries. -/
def refusedState : Host.Outcome State Fault Refusal → Option State
  | .next _ => none
  | .fault _ => none
  | .refused r =>
    match r with
    | .notModelled _ => none
    | .reservedOpcode s => some s
    | .reservedBits s => some s
    | .truncated s => some s
    | .notLive s => some s
    | .badSampleRate s => some s
    | .bufferShort s => some s
    | .nanAtClamp s => some s

/-- Reason code (60 R262) and command index of a refusal. -/
def refusalCode (o : Host.Outcome State Fault Refusal) : Option (Nat × Nat) :=
  (refusedState o).bind fun s => s.refusal.map fun r => (r.reason.code, r.command)

/-- The state of program P1 of spec 95 before its render. -/
def voiceP1 : Voice where
  sampleRate := 0x42800000
  freq := { current := 0x41A00000, target := 0x41A00000, modulation := 0 }
  gain := { current := 0x3F800000, target := 0x3F800000, modulation := 0 }
  env := { stage := .attack, value := 0, attack := 0x3D800000, decay := 0x3D800000, sustain := 0x3F000000,
           release := 0x3D800000 }
  osc := { phase := 0, waveform := .square }
  lfo := { phase := 0, freq := 0 }
  routes := routeTable

/-- A Live block whose times are above every admissible floor. -/
def voiceMax : Voice :=
  { voiceP1 with
    sampleRate := 0x473B8000
    env := { stage := .idle, value := 0, attack := 0x7F7FFFFF, decay := 0x7F7FFFFF, sustain := 0x3F000000,
             release := 0x7F7FFFFF } }

/-- 95 V-PL-11 and V-PL-10: a NaN frequency; a NaN gain. -/
def voiceNaNFreq : Voice := { voiceP1 with freq := { voiceP1.freq with current := 0x7FC00000 } }

def voiceNaNGain : Voice := { voiceP1 with gain := { voiceP1.gain with target := 0x7FC00000 } }

/-- An infinite LFO phase; a decay whose product underflows, with sustain 1; an infinite gain target while Idle. -/
def voiceInfPhase : Voice := { voiceP1 with lfo := { phase := 0x7F800000, freq := 0 } }

def voiceNaNEnv : Voice :=
  { voiceP1 with
    sampleRate := 0x00000001
    env := { stage := .decay, value := 0x3F000000, attack := 0x3D800000, decay := 0x00000001, sustain := 0x3F800000,
             release := 0x3D800000 } }

def voiceInfGain : Voice :=
  { voiceP1 with
    gain := { current := 0, target := 0x7F800000, modulation := 0 }
    env := { voiceP1.env with stage := .idle } }

/-- A gain of zero; the gain -1.0 of 95 V-PL-5. -/
def voiceSilent : Voice :=
  { voiceP1 with sampleRate := 0x473B8000, gain := { current := 0, target := 0x80000000, modulation := 0 } }

def voiceNegative : Voice :=
  { voiceMax with gain := { current := 0xBF800000, target := 0xBF800000, modulation := 0 } }

/-- An LFO at an infinite rate (43 R190 (e)); one at 16 Hz (V-LFO-1). -/
def voiceInfLfo : Voice := { voiceP1 with lfo := { phase := 0, freq := 0x7F800000 } }

def voice16Hz : Voice := { voiceP1 with lfo := { phase := 0, freq := 0x41800000 } }

def live (v : Voice) : State :=
  { State.reset with lc := .live v, buffers := [{ base := 4096, len := 12 }, { base := 8192, len := 12 }] }

def withPort (s : State) (ws : List Word) : State := { s with port := ws }

/-- What a command leaves. -/
def after (i : Instr) (s : State) : State := (stateAfter (exec i s)).getD s

/-! ## Well-formedness (30 R106, R107, R108) -/

theorem test_wellFormed_command : wordsWellFormed [0x00000005, 0xFFFFFFFF] = true := by decide
theorem test_illFormed_empty : wordsWellFormed [] = false := by decide
theorem test_illFormed_reserved_opcode : wordsWellFormed [0x0000000B] = false := by decide
theorem test_illFormed_opcode_zero : wordsWellFormed [0x00000000] = false := by decide
theorem test_illFormed_reserved_bits : wordsWellFormed [0x00000105] = false := by decide
theorem test_illFormed_truncated : wordsWellFormed [0x00000007, 0, 0, 0] = false := by decide
theorem test_every_operand_is_wellFormed : (Instr.setWaveform 0xFFFFFFFF).wellFormed = true := by decide

/-! ## Decoding (30 R101 to R105, R114; 95 V-DEC) -/

/-- 30 R101, R102, R103, bit by bit: RSV zero, OPC 00000001, then 48000.0 = 0 10001110 01110111000000000000000. -/
theorem test_decode_create :
    decode [0b00000000000000000000000000000001, 0b01000111001110111000000000000000] =
      .command (.create 0x473B8000) [] := by decide
/-- 30 R102: OPC 00000010, then 48000 = 1011101110000000 binary. -/
theorem test_decode_render :
    decode [0b00000000000000000000000000000010, 0b00000000000000001011101110000000] = .command (.render 48000) [] := by
  decide
theorem test_decode_setGain : decode [0b11, 0x3F800000] = .command (.setGain 0x3F800000) [] := by decide
theorem test_decode_setFrequency : decode [0b100, 0x49742400] = .command (.setFrequency 0x49742400) [] := by decide
theorem test_decode_noteOn_leaves_the_rest : decode [0b101, 0xB] = .command .noteOn [0xB] := by decide
theorem test_decode_noteOff : decode [0b110] = .command .noteOff [] := by decide
/-- 30 R102: OPC 00000111, then attack, decay, sustain, release, here four words that differ. -/
theorem test_decode_setAdsr :
    decode [0b111, 0x3D4CCCCD, 0x3D4CCCCE, 0x3FC00000, 0x3D4CCCCF] =
      .command (.setAdsr 0x3D4CCCCD 0x3D4CCCCE 0x3FC00000 0x3D4CCCCF) [] := by decide
theorem test_decode_setWaveform : decode [0b1000, 3] = .command (.setWaveform 3) [] := by decide
theorem test_decode_setLfoRate : decode [0b1001, 0xC0400000] = .command (.setLfoRate 0xC0400000) [] := by decide
theorem test_decode_destroy : decode [0b1010] = .command .destroy [] := by decide
/-- 95 V-DEC-5: the opcode's check comes before the reserved bits'. -/
theorem test_decode_reserved_wins : decode [0x000001FF] = .refuse .reservedOpcode := by decide
/-- 95 V-DEC-7. -/
theorem test_decode_bit31 : decode [0x80000001, 0x42800000] = .refuse .reservedBits := by decide
/-- 95 V-DEC-9. -/
theorem test_decode_truncated : decode [0x00000007, 0, 0, 0] = .refuse .truncated := by decide
/-- The host's numbering of a row's bits: the second word counts on from bit 32. -/
theorem test_table_word : decodeTableWord 64 (0x473B8000 * 2 ^ 32 + 1) = some (.create 0x473B8000) := by decide

/-- 30 R112, R114: the examples, assembled. -/
theorem test_assemble_examples :
    assemble "create 48000.0\nset_adsr 0.0625, 0.0625, 0.5, 0.0625\nset_waveform square # by name\nnote_on" =
      some [0x00000001, 0x473B8000, 0x00000007, 0x3D800000, 0x3D800000, 0x3F000000, 0x3D800000, 0x00000008, 0x00000001,
        0x00000005] := by decide +kernel
/-- 70 R296: the boot sequence, assembled and decoded again. -/
theorem test_boot_sequence :
    (assemble "create 48000.0\nset_adsr 0.0625, 0.0625, 0.5, 0.0625\nset_lfo_rate 0.0\nset_waveform 0\nset_gain 1.0").bind
      (decodeAll 5) =
      some [.create 0x473B8000, .setAdsr 0x3D800000 0x3D800000 0x3F000000 0x3D800000, .setLfoRate 0, .setWaveform 0,
        .setGain 0x3F800000] := by decide +kernel
/-- 95 section 2.1 and V-ENV-18. -/
theorem test_assemble_floats :
    assemble "set_gain 0x80000000\nset_frequency nan\nset_frequency 1e6\nset_lfo_rate 1e-9" =
      some [3, 0x80000000, 4, 0x7FC00000, 4, 0x49742400, 9, 0x3089705F] := by decide +kernel
/-- 30 R113: the component operations cannot be written. -/
theorem test_assemble_internal : assemble "smooth" = none := by decide +kernel

/-! ## Constants as decimals (10 R49, 00 R14) -/

theorem test_constants :
    decimal false 1 3 = kSmooth ∧ decimal false 6283185307179586 15 = tau32 ∧ decimal false 7071 4 = kSqHi ∧
      fmul (decimal true 1 1) (decimal false 7071 4) = kSqLo ∧ decimal false 12247 4 = kTri ∧
      decimal false 12247 4 = kSaw := by decide +kernel
theorem test_constants_exact :
    decimal false 20 0 = fMin ∧ decimal false 20000 0 = fMax ∧ decimal false 440 0 = fReset ∧ decimal false 5 1 = half ∧
      decimal false 1 0 = one ∧ decimal false 2 0 = two ∧ decimal false 4 0 = four := by decide +kernel

/-! ## Components (95 sections 2.2 to 2.6) -/

/-- V-SM-2. -/
theorem test_smooth_step :
    smooth { current := 0x3A83126F, target := 0x3F800000, modulation := 0x3F800000 } kSmooth =
      { current := 0x3B0301A8, target := 0x3F800000, modulation := 0 } := by decide +kernel
/-- V-SM-5 and V-SM-6: `-0` becomes `+0`, a subnormal stays. -/
theorem test_smooth_corners :
    (smooth { current := 0x80000000, target := 0x80000000, modulation := 0 } kSmooth).current = 0 ∧
      (smooth { current := 1, target := 0, modulation := 0 } kSmooth).current = 1 := by decide +kernel
/-- V-ENV-1: the fourth advance of Attack reaches 1.0 and Decay. -/
theorem test_env_attack_ends :
    envAdvance 0x42800000 { voiceP1.env with value := 0x3F400000 } =
      { voiceP1.env with value := 0x3F800000, stage := .decay } := by decide +kernel
/-- V-ENV-7: the release step does not depend on the value. -/
theorem test_env_release_step :
    (envAdvance 0x42800000 (noteOffEvent { voiceP1.env with value := 0x3F666666 })).value = 0x3F466666 := by
  decide +kernel
/-- V-OSC-1 at 0x3F7FFFFF, Triangle and Saw. -/
theorem test_osc_below_one :
    oscSample { phase := 0x3F7FFFFF, waveform := .triangle } = 0xBF9CC2F6 ∧
      oscSample { phase := 0x3F7FFFFF, waveform := .saw } = 0x3F9CC2F7 := by decide +kernel
/-- 42 R173 and R174, the examples and corners (a) and (b). -/
theorem test_triangle_and_saw :
    oscSample { phase := 0x3EA00000, waveform := .triangle } = 0x3E9CC2F8 ∧
      oscSample { phase := 0x30800000, waveform := .triangle } = 0xBF9CC2F8 ∧
      oscSample { phase := 0x3F000000, waveform := .triangle } = 0x3F9CC2F8 ∧
      oscSample { phase := 0x3F400000, waveform := .saw } = 0x3F1CC2F8 ∧
      oscSample { phase := 0x3F000000, waveform := .saw } = 0 ∧
      oscSample { phase := 0, waveform := .saw } = 0xBF9CC2F8 := by decide +kernel
/-- V-OSC-1 at 0.5, Square, and V-PL-7: a NaN phase selects the low level. -/
theorem test_square_low :
    oscSample { phase := 0x3F000000, waveform := .square } = 0xBD90D067 ∧
      oscSample { phase := 0x7FC00000, waveform := .square } = 0xBD90D067 := by decide
/-- V-OSC-2: 3.0, 313.078125, -0.25, -1.5 and -2^-30. -/
theorem test_wrap :
    wrapIn .reduce 0x40400000 = 0 ∧ wrapIn .subtractOnce 0x40400000 = 0x40000000 ∧
      wrapIn .reduce 0xBE800000 = 0x3F400000 ∧ wrapIn .subtractOnce 0xBE800000 = 0xBE800000 ∧
      wrapIn .reduce 0x439C8A00 = 0x3DA00000 ∧ wrapIn .subtractOnce 0x439C8A00 = 0x439C0A00 ∧
      wrapIn .reduce 0xBFC00000 = 0x3F000000 ∧ wrapIn .reduce 0xB0800000 = 0 := by decide +kernel
/-- V-OSC-3. -/
theorem test_osc_advance :
    oscAdvance 0x42800000 { phase := 0x3F700000, waveform := .triangle } 0x41A00000 =
      (0xBF6B2474, { phase := 0x3E800000, waveform := .triangle }) := by decide +kernel
/-- V-RT-2 and V-RT-4. -/
theorem test_route :
    (route 0xBF800000 0x3F400000 voiceP1).freq.modulation = 0xBF800000 ∧
      (route 0xBF800000 0x3F400000 voiceP1).gain.modulation = 0x3F400000 ∧
      (route 0x80000000 0 voiceP1).freq.modulation = 0 := by decide +kernel

/-! ## Commands (95 section 2.8, programs P1 and P2), one step each -/

/-- V-CMD-4, on a Live block. -/
theorem test_create : exec (.create 0x42800000) (live voiceP1) =
    .next { live voiceP1 with lc := .live (initialVoice 0x42800000) } := by rfl
/-- V-CMD-2: `create +inf` at power-on, k = 0. -/
theorem test_create_infinite :
    refusalCode (step (withPort State.reset [0x00000001, 0x7F800000])) = some (5, 0) := by decide +kernel
/-- P1, samples 0 to 2. -/
theorem test_render_P1 :
    (after (.render 3) (live voiceP1)).history.map OutWrite.pattern = [0x3E350481, 0x3EB50481, 0xBD59389A] := by
  decide +kernel
/-- V-CMD-7: a short buffer. -/
theorem test_render_short :
    refusalCode (exec (.render 13) (live voiceP1)) = some (6, 0) := by decide +kernel
/-- 46 R232: gain -0, current and target, the modulation kept. -/
theorem test_setGain :
    (after (.setGain 0x80000000) (live { voiceP1 with gain := { current := 1, target := 2, modulation := 3 } })).lc =
      .live { voiceP1 with gain := { current := 0x80000000, target := 0x80000000, modulation := 3 } } := by decide
/-- V-CMD-11. -/
theorem test_setFrequency :
    (after (.setFrequency 0x49742400) (live voiceP1)).lc =
      .live { voiceP1 with freq := { current := 0x49742400, target := 0x49742400, modulation := 0 } } := by decide
/-- V-ENV-6: the value is kept. -/
theorem test_noteOn :
    (after .noteOn (live { voiceP1 with env := { voiceP1.env with stage := .release, value := 0x3F400000 } })).lc =
      .live { voiceP1 with env := { voiceP1.env with stage := .attack, value := 0x3F400000 } } := by decide
theorem test_noteOff :
    (after .noteOff (live voiceP1)).lc = .live { voiceP1 with env := { voiceP1.env with stage := .release } } := by
  decide
/-- V-ENV-18 and V-ENV-19: times at or below the floor are raised to it, the largest time and the sustain -0 are kept. -/
theorem test_setAdsr :
    exec (.setAdsr 0x7F7FFFFF 0xBF800000 0x80000000 0) (live voiceP1) = .next (live { voiceP1 with
      env := { voiceP1.env with attack := 0x7F7FFFFF, decay := adsrMinTime, sustain := 0x80000000,
                                release := adsrMinTime } }) := by
  have hneg : ∀ x : Word, isNaN x = false → units x ≤ 0 → floorTime x = some adsrMinTime := fun x hn hx => by
    have h : fgt x adsrMinTime = false := by
      rw [← Bool.not_eq_true, fgt, flt_iff]
      have := adsrMinTime_pos
      omega
    simp [floorTime, hn, h]
  have hmax : floorTime 0x7F7FFFFF = some 0x7F7FFFFF := by
    by_cases h : fgt 0x7F7FFFFF adsrMinTime = true
    · rw [floorTime, if_neg (by decide), if_pos h]
    · have h1 := flt_false_of isNaN_adsrMinTime (show isNaN 0x7F7FFFFF = false by decide) (by simpa [fgt] using h)
      have h2 := (fle_iff.1 adsrMinTime_le_max).2.2
      have h3 : adsrMinTime = 0x7F7FFFFF := eq_of_units (le_antisymm h2 h1) (ne_of_gt adsrMinTime_pos)
      simp only [floorTime, h3]
      decide
  refine execSetAdsr_eq_next.2 ⟨voiceP1, _, rfl, ?_, rfl⟩
  simp only [storeShape, hmax, hneg 0xBF800000 (by decide) (by decide +kernel), hneg 0 (by decide) (by decide),
    show clampSustain 0x80000000 = some 0x80000000 by decide]
/-- V-ENV-20: the first NaN operand is the site. -/
theorem test_setAdsr_nan_site : firstNaN 0x3DCCCCCD 0x7FC00000 0x7FC00000 0x3DCCCCCD = some .decay := by decide
/-- V-CMD-9: id 0xFFFFFFFF selects Sine. -/
theorem test_setWaveform :
    (after (.setWaveform 0xFFFFFFFF) (live voiceP1)).lc =
      .live { voiceP1 with osc := { phase := 0, waveform := .sine } } := by decide
/-- V-CMD-13. -/
theorem test_setLfoRate :
    (after (.setLfoRate 0xC0400000) (live voiceP1)).lc =
      .live { voiceP1 with lfo := { phase := 0, freq := 0xC0400000 } } := by decide
theorem test_destroy : (after .destroy (live voiceP1)).lc = .unconstructed := by decide
/-- V-DEC-11: note_off at power-on, the reserved word after it never decoded. -/
theorem test_not_live : refusalCode (step (withPort State.reset [0x00000006, 0x0000000B])) = some (4, 0) := by decide
/-- V-DEC-12: the decoder's check comes before the lifecycle's. -/
theorem test_truncated_before_not_live :
    refusalCode (step (withPort State.reset [0x00000002])) = some (3, 0) := by decide
/-- The host's word placed at reset: create runs as the first command. -/
theorem test_withFetchWord :
    (stateAfter (step (State.reset.withFetchWord 64 (0x42800000 * 2 ^ 32 + 1)))).map (fun t => t.lc.code) = some 1 := by
  decide +kernel

/-! ## Witnesses: a state and operands that meet the hypotheses of each statement, at the ends of its ranges -/

theorem voiceMax_inv : VoiceInv voiceMax where
  sampleRate := by decide
  attack := adsrMinTime_le_max
  decay := adsrMinTime_le_max
  release := adsrMinTime_le_max
  sustain := by decide
  value := by decide
  idle := fun _ => rfl
  freq := by decide
  gain := by decide
  routes := rfl

theorem voiceMax_renderable : Renderable voiceMax where
  inv := voiceMax_inv
  freqCurrent := by decide
  freqTarget := by decide
  gainCurrent := by decide
  gainTarget := by decide
  lfoPhase := by decide
  lfoRate := by decide
  decayProduct := by decide +kernel
  releaseProduct := by decide +kernel

theorem live_inv : StateInv (live voiceMax) where
  voice := fun v h => by
    obtain rfl : voiceMax = v := Lifecycle.live.inj h
    exact voiceMax_inv
  memory := rfl
  history := fun w h => by cases h
  ordered := .nil

/-- The same with two entries in the history, of one render that has ended. -/
theorem live_history_inv :
    StateInv { live voiceMax with history := historyOf 0 [0, 0x80000000], renderIndex := 1 } :=
  { live_inv with history := by decide, ordered := by decide }

/-- Every witness that a Live block is Live. -/
theorem live_lc (v : Voice) : (live v).lc = .live v := rfl

/-- A render of `n` frames of a block without sines ends in a next state. -/
theorem next_of_some {i : Instr} {s : State} (h : (stateAfter (exec i s)).isSome = true) : exec i s = .next (after i s) :=
  eq_next s h

theorem witness_CommandStreamsParseUniquely : decodeAll 2 [5, 6] = some [.noteOn, .noteOff] := by decide
theorem witness_DecoderAcceptsExactlyWellFormedWords : decode [5, 7] = .command .noteOn [7] := by decide
theorem witness_ReservedOpcodeIsRefused :
    (withPort State.reset [0x00000000]).refusal = none ∧ (0x00000000 : Word).extractLsb' 0 8 = 0 ∧
      0x0B ≤ (0x0000000B : Word).extractLsb' 0 8 ∧ 0x0B ≤ (0x000001FF : Word).extractLsb' 0 8 := by decide
theorem witness_ReservedBitsAreRefused :
    (withPort State.reset [0x80000001]).refusal = none ∧ 0x01 ≤ (0x80000001 : Word).extractLsb' 0 8 ∧
      (0x80000001 : Word).extractLsb' 8 24 ≠ 0 ∧ (0x0000010A : Word).extractLsb' 0 8 ≤ 0x0A ∧
      (0x0000010A : Word).extractLsb' 8 24 ≠ 0 ∧ 0x0B ≤ (0x0000010B : Word).extractLsb' 0 8 ∧
      (0x00000100 : Word).extractLsb' 0 8 = 0 := by decide
theorem witness_TruncatedCommandIsRefused :
    0 < 4 ∧ 4 < (encode (.setAdsr 1 2 3 4)).length ∧
      (withPort State.reset [7, 1, 2, 3]).port = (encode (.setAdsr 1 2 3 4)).take 4 ∧
      (withPort State.reset [7, 1, 2, 3]).refusal = none ∧ 1 < (encode (.create 5)).length := by decide
theorem witness_StepRunsDecodedCommand :
    decode (withPort (live voiceP1) [5, 6]).port = .command .noteOn [6] ∧
      exec .noteOn (withPort (live voiceP1) [5, 6]) = .next (after .noteOn (withPort (live voiceP1) [5, 6])) ∧
      exec .noteOn (withPort State.reset [5]) =
        .refused (.notLive ((withPort State.reset [5]).marked .notLive none none)) :=
  ⟨by decide, rfl, rfl⟩
theorem witness_EndedRunsTakeNoStep :
    State.reset.refusal = none ∧ State.reset.port = [] ∧ (State.reset.marked .notLive none none).refusal ≠ none := by
  decide
theorem witness_OnlyRefusalsSetTheMark :
    exec .noteOn (live voiceP1) = .next (after .noteOn (live voiceP1)) ∧
      step (withPort (live voiceP1) [5]) = .next ((after .noteOn (withPort (live voiceP1) [5])).retire []) ∧
      step (withPort State.reset [0]) =
        .refused (.reservedOpcode ((withPort State.reset [0]).marked .reservedOpcode none none)) ∧
      step (State.reset.marked .truncated none none) = .refused (.truncated (State.reset.marked .truncated none none)) :=
  ⟨rfl, rfl, rfl, rfl⟩
theorem witness_NotLiveCommandsAreRefused :
    State.reset.lc = .unconstructed ∧ decode (withPort State.reset [0x0000000A]).port = .command .destroy [] ∧
      ∀ sr, Instr.destroy ≠ .create sr := ⟨rfl, by decide, (fun _ h => nomatch h)⟩
theorem witness_OnlyDestroyUnconstructs :
    exec .destroy (live voiceP1) = .next { live voiceP1 with lc := .unconstructed } := rfl
theorem witness_CreateGivesEveryFieldItsResetValue :
    (0x00000001 : Word) ≤ 0x00000001 ∧ (0x00000001 : Word) ≤ 0x7F7FFFFF ∧ (0x7F7FFFFF : Word) ≤ 0x7F7FFFFF := by decide
theorem witness_CreateRefusesBadSampleRates :
    ((0 : Word) = 0 ∨ (0x7F7FFFFF : Word) < 0) ∧ (0x7F7FFFFF : Word) < 0x7F800000 ∧ (0x7F7FFFFF : Word) < 0x80000000 ∧
      (0x7F7FFFFF : Word) < 0xFFFFFFFF := by decide
theorem witness_setters : ∃ s v, State.lc s = .live v := ⟨live voiceP1, voiceP1, rfl⟩
theorem witness_SetAdsrFloorsAndClamps :
    (live voiceP1).lc = .live voiceP1 ∧ isNaN 0 = false ∧ isNaN 0x7F800000 = false ∧ isNaN 0x80000000 = false := by decide
theorem witness_SetAdsrRefusesNaN :
    (live voiceP1).lc = .live voiceP1 ∧ isNaN 0x7F800001 = true ∧ isNaN 0xFFFFFFFF = true ∧ isNaN 0x7F800000 = false := by
  decide
theorem witness_WaveformIsSelectedById : (4 : Word) ≤ 4 ∧ (4 : Word) ≤ 0xFFFFFFFF ∧ ¬(4 : Word) ≤ 3 := by decide
theorem witness_RepeatedSettersAreIdempotent :
    (∀ sr, Instr.noteOff ≠ .create sr) ∧ (∀ n, Instr.noteOff ≠ .render n) ∧ Instr.noteOff ≠ .destroy ∧
      exec .noteOff (live voiceP1) = .next (after .noteOff (live voiceP1)) :=
  ⟨(fun _ h => nomatch h), (fun _ h => nomatch h), by decide, rfl⟩
theorem witness_OnlyRenderWritesOutside :
    (∀ n, Instr.setWaveform 3 ≠ .render n) ∧
      exec (.setWaveform 3) (live voiceP1) = .next (after (.setWaveform 3) (live voiceP1)) :=
  ⟨(fun _ h => nomatch h), rfl⟩
theorem witness_PhasesMoveOnlyInRender :
    (∀ n, Instr.noteOn ≠ .render n) ∧ (∀ sr, Instr.noteOn ≠ .create sr) ∧
    exec .noteOn (live voiceP1) = .next (after .noteOn (live voiceP1)) ∧
      (after .noteOn (live voiceP1)).lc = .live { voiceP1 with env := { voiceP1.env with stage := .attack } } ∧
      exec (.create 1) (live voiceP1) = .next { live voiceP1 with lc := .live (initialVoice 1) } :=
  ⟨(fun _ h => nomatch h), (fun _ h => nomatch h), rfl, rfl, rfl⟩
theorem witness_SampleRateAndRoutesAreFixed :
    (∀ sr, Instr.noteOn ≠ .create sr) ∧ exec .noteOn (live voiceP1) = .next (after .noteOn (live voiceP1)) ∧
      ∃ v, (after .noteOn (live voiceP1)).lc = .live v := ⟨(fun _ h => nomatch h), rfl, _, rfl⟩

/-- For the statements about a render that answers a next state, of zero, some and all frames of its buffer. -/
theorem witness_render_next :
    exec (.render 0) (live voiceP1) = .next (after (.render 0) (live voiceP1)) ∧
      exec (.render 3) (live voiceP1) = .next (after (.render 3) (live voiceP1)) ∧
      exec (.render 12) (live voiceP1) = .next (after (.render 12) (live voiceP1)) :=
  ⟨next_of_some (by decide +kernel), next_of_some (by decide +kernel), next_of_some (by decide +kernel)⟩
theorem witness_RenderZeroOnlyTakesTheBuffer :
    (live voiceP1).lc = .live voiceP1 ∧ (live voiceP1).buffer.base % 4 = 0 ∧ State.reset.buffer.base % 4 = 0 := by decide
theorem witness_UnfitBuffersAreRefused :
    (live voiceP1).lc = .live voiceP1 ∧ (live voiceP1).buffer.len < (13 : Word).toNat ∧
      ({ live voiceP1 with buffers := [{ base := 4097, len := 12 }] } : State).buffer.base % 4 ≠ 0 := by decide
theorem witness_SplitRendersEqualOneRender :
    (1 : Word).toNat + (2 : Word).toNat < 2 ^ 32 ∧
      exec (.render 1) (live voiceP1) = .next (after (.render 1) (live voiceP1)) ∧
      exec (.render 2) (after (.render 1) (live voiceP1)) =
        .next (after (.render 2) (after (.render 1) (live voiceP1))) ∧
      exec (.render (1 + 2)) (live voiceP1) = .next (after (.render (1 + 2)) (live voiceP1)) :=
  ⟨by decide, next_of_some (by decide +kernel), next_of_some (by decide +kernel), next_of_some (by decide +kernel)⟩
theorem witness_RendersCompleteFromRenderableStates :
    (live voiceMax).lc = .live voiceMax ∧ Renderable voiceMax ∧ (12 : Word).toNat ≤ (live voiceMax).buffer.len ∧
      (live voiceMax).buffer.base % 4 = 0 := ⟨rfl, voiceMax_renderable, by decide, by decide⟩
theorem witness_OneFrameFollowsTheSampleStep :
    voiceP1.routes = routeTable ∧ 1 ≤ (live voiceP1).buffer.len ∧
      clamp (fadd (controlSteps voiceP1).freq.current (controlSteps voiceP1).freq.modulation) 0x41A00000 0x469C4000 =
        some 0x41A00000 ∧
      clamp (fmul (controlSteps voiceP1).gain.current (controlSteps voiceP1).gain.modulation) 0 0x3F800000 =
        some 0x3E800000 := by decide +kernel
/-- A NaN frequency, a NaN gain, an infinite LFO phase, a NaN envelope value (41 R147: decay product 2^-149 * 2^-149, sustain
1), and a gain product of an infinity and a zero. -/
theorem witness_NaNParametersRefuseAtTheirClamps :
    (12 : Word) ≠ 0 ∧ (12 : Word).toNat ≤ (live voiceNaNFreq).buffer.len ∧ (live voiceNaNFreq).buffer.base % 4 = 0 ∧
      isNaN voiceNaNFreq.freq.current = true ∧ isNaN voiceNaNGain.gain.target = true ∧
      isNaN (fadd (controlSteps voiceNaNGain).freq.current (controlSteps voiceNaNGain).freq.modulation) = false ∧
      voiceInfPhase.routes = routeTable ∧ isFinite voiceInfPhase.lfo.phase = false ∧
      isNaN (lfoAdvance voiceInfPhase.sampleRate voiceInfPhase.lfo).1 = true ∧
      voiceNaNEnv.routes = routeTable ∧ isNaN (envAdvance voiceNaNEnv.sampleRate voiceNaNEnv.env).value = true ∧
      isNaN (fadd (controlSteps voiceNaNEnv).freq.current (controlSteps voiceNaNEnv).freq.modulation) = false ∧
      isNaN (fmul (controlSteps voiceInfGain).gain.current (controlSteps voiceInfGain).gain.modulation) = true ∧
      isNaN (fadd (controlSteps voiceInfGain).freq.current (controlSteps voiceInfGain).freq.modulation) = false := by
  have hr : isNaN (fsub 0x3F000000 (fdiv (fsub one 0x3F800000) (fmul 0x00000001 0x00000001))) = true :=
    isNaN_fsub.2 (.inr (.inl (isNaN_fdiv.2 (.inr (.inr (.inr (by decide +kernel)))))))
  have he : (envAdvance voiceNaNEnv.sampleRate voiceNaNEnv.env).value =
      fsub 0x3F000000 (fdiv (fsub one 0x3F800000) (fmul 0x00000001 0x00000001)) := by
    have hle : fle (fsub 0x3F000000 (fdiv (fsub one 0x3F800000) (fmul 0x00000001 0x00000001))) 0x3F800000 = false := by
      rw [← Bool.not_eq_true, fle_iff, hr]
      simp
    simp only [envAdvance, voiceNaNEnv, advanceDecay, hle, Bool.false_eq_true, if_false]
  exact ⟨by decide, by decide, by decide, by decide, by decide, by decide +kernel, rfl, by decide,
    sineWave_nan (by decide), rfl, he ▸ hr, by decide +kernel,
    isNaN_fmul.2 (.inr (.inr (by decide +kernel))), by decide +kernel⟩
/-- At frame 0, with a NaN frequency, and at frame 1, with an infinite LFO rate (43 R190 (e)). -/
theorem witness_RefusedRenderKeepsEarlierSlots :
    (∃ f, exec (.render 1) (live voiceNaNFreq) = .refused (.nanAtClamp f)) ∧
      ∃ f, exec (.render 2) (live voiceInfLfo) = .refused (.nanAtClamp f) ∧
        f.refusal.bind RefusalRecord.frame = some 1 := by
  constructor
  · have h : sampleStep voiceNaNFreq = .nanAt .freqClamp (controlSteps voiceNaNFreq) := by
      refine sampleStep_eq_nanAt.2 ⟨rfl, .inl ⟨rfl, effectiveFrequency_eq_none.2 ?_⟩⟩
      rw [isNaN_fadd, controlSteps_freq_current]
      exact .inl (isNaN_fadd.2 (.inl (by decide)))
    exact ⟨_, execRender_eq_nanAtClamp.2 ⟨_, 0, _, [], _, _, rfl, by decide, by decide, rfl, h, rfl⟩⟩
  · have h1 := (sampleStep_eq_sample (v := voiceInfLfo)).2
      ⟨0x41A00000, 0x3E800000, by decide +kernel, by decide +kernel, rfl, rfl⟩
    have hp : isNaN (sineWave (advancePhase 0 0x7F800000 0x42800000)) = true :=
      sineWave_nan (wrap_not_finite (by decide +kernel))
    exact ⟨_, execRender_eq_nanAtClamp.2 ⟨_, 1, _, _, _, _, rfl, by decide, by decide,
      renderSamples_succ.2 ⟨_, _, _, h1, rfl, rfl⟩, sampleStep_nan_lfo rfl (by rw [controlSteps_lfo]; exact hp), rfl⟩,
      rfl⟩
theorem witness_EffectiveValuesAreClamped :
    effectiveFrequency { voiceP1 with freq := { voiceP1.freq with current := 0x40A00000 } } = some 0x41A00000 ∧
      effectiveFrequency { voiceP1 with freq := { voiceP1.freq with current := 0x7F7FFFFF } } = some 0x469C4000 ∧
      effectiveGain { voiceP1 with gain := { current := 0x40000000, target := 0, modulation := 0x3F800000 } } =
        some 0x3F800000 ∧
      effectiveGain { voiceP1 with gain := { current := 0x80000000, target := 0, modulation := 0x3F800000 } } =
        some 0x80000000 ∧
      isNaN (fadd voiceP1.freq.current voiceP1.freq.modulation) = false ∧
      isNaN (fmul voiceP1.gain.current voiceP1.gain.modulation) = false := by decide +kernel
theorem witness_BuffersAreNeverRead :
    exec .noteOn (live voiceP1) = .next (after .noteOn (live voiceP1)) ∧
      exec (.render 3) (live voiceP1) = .next (after (.render 3) (live voiceP1)) :=
  ⟨rfl, next_of_some (by decide +kernel)⟩

theorem witness_SmoothingHoldsSettledParameters :
    isFinite 0x80000000 = true ∧ feq 0x80000000 0 = true ∧ isFinite 0x7F7FFFFF = true ∧
      feq 0x7F7FFFFF 0x7F7FFFFF = true := by decide
theorem witness_SmoothingNeverPassesTheTarget :
    isFinite (fsub 0x3F800000 0x3F7FFE0C) = true ∧ fle 0x3F7FFE0C 0x3F800000 = true ∧ isFinite (fsub 0 1) = true ∧
      fle 0 1 = true := by decide +kernel
theorem witness_SmoothingOfNonFiniteParameters :
    isNaN 0x7F800001 = true ∧ isInf 0xFF800000 = true ∧ isFinite 0x7F7FFFFF = true ∧ isInf 0x7F800000 = true := by decide
/-- Attack below and at 1.0, Decay above and at the sustain, Release above and at 0 (V-ENV-1, V-ENV-2, V-ENV-3). -/
theorem witness_EnvelopeFollowsTheTransitionTable :
    fle one (fadd 0x3F400000 (fdiv one (fmul 0x3D800000 0x42800000))) = true ∧
      fle one (fadd 0x3F000000 (fdiv one (fmul 0x3D800000 0x42800000))) = false ∧
      fle (fsub 0x3F200000 (fdiv (fsub one 0x3F000000) (fmul 0x3D800000 0x42800000))) 0x3F000000 = true ∧
      fle (fsub 0x3F800000 (fdiv (fsub one 0x3F000000) (fmul 0x3D800000 0x42800000))) 0x3F000000 = false ∧
      fle (fsub 0x3E000000 (fdiv 0x3F000000 (fmul 0x3D800000 0x42800000))) 0 = true ∧
      fle (fsub 0x3F000000 (fdiv 0x3F000000 (fmul 0x3D800000 0x42800000))) 0 = false := by decide +kernel
theorem witness_EnvelopeValueStaysInUnit : VoiceInv voiceMax := voiceMax_inv
/-- V-ENV-11. -/
theorem witness_ReleaseWithZeroSustainNeverEnds :
    isZero 0 = true ∧ isNaN (fmul 0x3D800000 0x42800000) = false ∧ isZero (fmul 0x3D800000 0x42800000) = false ∧
      isFinite 0x3F400000 = true ∧ flt 0 0x3F400000 = true := by decide +kernel
/-- Square's two ranges at their ends (42 R172 (a), (c)), Triangle's at 2^-26. -/
theorem witness_WaveformsStayInTheirBounds :
    inCycle 0 = true ∧ inCycle 0x80000000 = true ∧ inCycle 0x3F7FFFFF = true ∧ (0x32800000 : Word) ≤ 0x32800000 ∧
      oscSample { phase := 0x3EFFFFFF, waveform := .square } = 0x3F350481 ∧
      oscSample { phase := 0x3F000000, waveform := .square } = 0xBD90D067 ∧
      oscSample { phase := 0x7FFFFFFF, waveform := .square } = 0xBD90D067 ∧
      oscSample { phase := 0x80000000, waveform := .square } = 0x3F350481 ∧
      oscSample { phase := 0xFF800000, waveform := .square } = 0x3F350481 ∧
      oscSample { phase := 0xFF800001, waveform := .square } = 0xBD90D067 := by decide +kernel
theorem witness_ReduceWrapsIntoTheCycle :
    isFinite 0x7F7FFFFF = true ∧ isFinite 0xB0800000 = true ∧ fle 0x3F800000 0x3F800000 = true ∧
      fle 0x3F800000 0x7F7FFFFF = true ∧ flt 0x80000001 0 = true ∧ flt 0xFF7FFFFF 0 = true ∧
      isFinite 0xFF800000 = false ∧ isFinite 0x7F800001 = false := by decide
theorem witness_WrapModesAgreeInTheNormalDomain :
    fle 0 0x3F7FFFFF = true ∧ flt 0x3F7FFFFF 0x40000000 = true ∧ flt 0x3F7FFFFF 0x3F800000 = true ∧
      fle 0 0x3FFFFFFF = true ∧ flt 0x3FFFFFFF 0x40000000 = true ∧ fle 0x3F800000 0x3FFFFFFF = true ∧
      fle 0x3F800000 0x3F800000 = true := by decide
theorem witness_NormalDomainKeepsThePhaseInTheCycle :
    inCycle 0x3F7FFFFF = true ∧ normalRate 0x469C4000 0x469C4001 = true ∧ normalRate 0 0x00000001 = true := by decide
theorem witness_NaNPhaseStaysNaN : isNaN 0xFFC00000 = true := by decide
theorem witness_SineHasItsNamedProperties : isFinite 0x7F7FFFFF = true ∧ isFinite 0xFF800000 = false := by decide
theorem witness_RouterMovesEachSourceToItsParameter :
    voiceP1.routes = routeTable ∧ voiceP1.freq.modulation = 0 ∧ voiceP1.gain.modulation = 0 ∧ isNaN 0x80000000 = false ∧
      isNaN 0x3F800000 = false ∧ isNaN 0x7F800001 = true ∧ isNaN 0xFFC00000 = true := by decide

/-- An infinite operand; a sum on the overflow threshold and one below it; an exact zero; and 1 + 2^-24, midway between 1 and
1 + 2^-23. -/
theorem witness_AdditionRoundsToNearestEven :
    isInf 0xFF800000 = true ∧ isNaN (fadd 0xFF800000 0x7F7FFFFF) = false ∧ isNaN (fadd 0x7F7FFFFF 0xFF800000) = false ∧
      fadd 0x7F7FFFFF 0x73000000 = 0x7F800000 ∧ fadd 0xFF7FFFFF 0xF3000000 = 0xFF800000 ∧
      isFinite (fadd 0x7F7FFFFF 0x72FFFFFF) = true ∧ units 0x3F800000 + units 0xBF800000 = 0 ∧
      isFinite (fadd 0x3F800000 0x33800000) = true ∧
      |units (fadd 0x3F800000 0x33800000) - (units 0x3F800000 + units 0x33800000)| =
        |units 0x3F800001 - (units 0x3F800000 + units 0x33800000)| ∧
      units 0x3F800001 ≠ units (fadd 0x3F800000 0x33800000) := by decide +kernel
/-- An infinite factor; and (1 + 2^-23) * 1.5, midway between two neighbours. -/
theorem witness_MultiplicationRoundsToNearestEven :
    isInf 0x7F800000 = true ∧ isNaN (fmul 0x7F800000 0x80000001) = false ∧
      isFinite (fmul 0x3F800001 0x3FC00000) = true ∧
      |units (fmul 0x3F800001 0x3FC00000) * 2 ^ 149 - units 0x3F800001 * units 0x3FC00000| =
        |units 0x3FC00001 * 2 ^ 149 - units 0x3F800001 * units 0x3FC00000| ∧
      units 0x3FC00001 ≠ units (fmul 0x3F800001 0x3FC00000) := by decide +kernel
/-- An infinite dividend, an infinite divisor, a zero divisor; and 3 * 2^-149 over 2, midway between two subnormals. -/
theorem witness_DivisionRoundsToNearestEven :
    isInf 0x7F800000 = true ∧ isFinite 0x80000000 = true ∧ isZero 0x00000001 = false ∧ isZero 0x80000000 = true ∧
      isNaN (fdiv 0x00000001 0x80000000) = false ∧
      isFinite (fdiv 3 0x40000000) = true ∧ isZero 0x40000000 = false ∧
      |units (fdiv 3 0x40000000) * units 0x40000000 - units 3 * 2 ^ 149| =
        |units 1 * units 0x40000000 - units 3 * 2 ^ 149| ∧
      units 1 ≠ units (fdiv 3 0x40000000) := by decide +kernel
theorem witness_FloorIsTheLargestIntegralBelow :
    isFinite 0xBF000000 = true ∧ isFinite 0x80000000 = true ∧ isInf 0xFF800000 = true ∧ isNaN 0x7F800001 = true := by decide
theorem witness_EveryStepKeepsTheInvariant :
    StateInv (live voiceMax) ∧
      StateInv { live voiceMax with history := historyOf 0 [0, 0x80000000], renderIndex := 1 } ∧
      step (live voiceMax) = .next (live voiceMax) ∧
      exec (.render 12) (live voiceMax) = .next (after (.render 12) (live voiceMax)) :=
  ⟨live_inv, live_history_inv, rfl, next_of_some (by decide +kernel)⟩
theorem witness_EveryStepKeepsThePhases :
    PhaseInv (live voiceP1) ∧ step (live voiceP1) = .next (live voiceP1) :=
  ⟨fun _ v h => by obtain rfl : voiceP1 = v := Lifecycle.live.inj h; decide, rfl⟩
/-- The voice is Idle with the fixed routes; the least rate above 20000 meets the premise too. -/
theorem witness_OutputNeverExceedsTheNormalization :
    inCycle voiceMax.osc.phase = true ∧ flt fMax voiceMax.sampleRate = true ∧ flt fMax 0x469C4001 = true ∧
      voiceMax.env.stage = .idle ∧ voiceMax.routes = routeTable ∧
      exec (.render 3) (live voiceMax) = .next (after (.render 3) (live voiceMax)) :=
  ⟨by decide, by decide, by decide, rfl, rfl, next_of_some (by decide +kernel)⟩
theorem witness_SilenceAtZeroGainOrIdle :
    isZero 0x80000000 = true ∧
      exec (.render 3) (live voiceSilent) = .next (after (.render 3) (live voiceSilent)) ∧
      VoiceInv voiceNegative ∧ fle voiceNegative.gain.current 0 = true ∧
      feq voiceNegative.gain.current voiceNegative.gain.target = true ∧
      inCycle voiceNegative.osc.phase = true ∧ flt fMax voiceNegative.sampleRate = true ∧
      exec (.render 3) (live voiceNegative) = .next (after (.render 3) (live voiceNegative)) :=
  ⟨by decide, next_of_some (by decide +kernel), { voiceMax_inv with gain := by decide }, by decide, by decide, by decide,
    by decide, next_of_some (by decide +kernel)⟩
/-- Two frames complete at an LFO rate of 16 Hz, whatever the sine is: its value at phase 0.25 is finite. -/
theorem render_at_16Hz :
    exec (.render 2) (after (.setLfoRate 0x41800000) (live voiceP1)) =
      .next (after (.render 2) (after (.setLfoRate 0x41800000) (live voiceP1))) := by
  have hs : after (.setLfoRate 0x41800000) (live voiceP1) = live voice16Hz := rfl
  have h1 := (sampleStep_eq_sample (v := voice16Hz)).2
    ⟨0x41A00000, 0x3E800000, by decide +kernel, by decide +kernel, rfl, rfl⟩
  obtain ⟨v1, hv1, hr, hc, hl, hg⟩ : ∃ v1, sampleStep voice16Hz = .sample v1 (fmul (oscSample voice16Hz.osc) 0x3E800000) ∧
      v1.routes = routeTable ∧ isFinite (smooth v1.freq kSmooth).current = true ∧
      isFinite (fmul v1.lfo.phase tau32) = true ∧ effectiveGain (controlSteps v1) = some 0x3F000000 :=
    ⟨_, h1, rfl, by decide +kernel, by decide +kernel, by decide +kernel⟩
  obtain ⟨f, hf⟩ := effectiveFrequency_isSome hr hc (sineWave_isFinite hl)
  have h2 := sampleStep_eq_sample.2 ⟨f, _, hf, hg, rfl, rfl⟩
  have h3 := (execRender_eq_next (n := 2) (s := live voice16Hz)).2 ⟨_, _, _, rfl, by decide,
    renderSamples_succ.2 ⟨_, _, _, hv1, renderSamples_succ.2 ⟨_, _, _, h2, rfl, rfl⟩, rfl⟩, rfl⟩
  rw [hs]
  exact next_of_some (i := .render 2) (stateAfter_isSome h3)

theorem witness_RatesDoNotShowInEarlierSlots :
    (live voiceP1).lc = .live voiceP1 ∧ voiceP1.routes = routeTable ∧
      exec (.setFrequency 0x41800000) (live voiceP1) = .next (after (.setFrequency 0x41800000) (live voiceP1)) ∧
      exec (.render 1) (live voiceP1) = .next (after (.render 1) (live voiceP1)) ∧
      exec (.render 1) (after (.setFrequency 0x41800000) (live voiceP1)) =
        .next (after (.render 1) (after (.setFrequency 0x41800000) (live voiceP1))) ∧
      exec (.setLfoRate 0x41800000) (live voiceP1) = .next (after (.setLfoRate 0x41800000) (live voiceP1)) ∧
      exec (.render 2) (live voiceP1) = .next (after (.render 2) (live voiceP1)) ∧
      exec (.render 2) (after (.setLfoRate 0x41800000) (live voiceP1)) =
        .next (after (.render 2) (after (.setLfoRate 0x41800000) (live voiceP1))) :=
  ⟨rfl, rfl, rfl, next_of_some (by decide +kernel), next_of_some (by decide +kernel), rfl,
    next_of_some (by decide +kernel), render_at_16Hz⟩
theorem witness_LfoAndEnvelopeRunOnTheirOwn :
    exec (.render 2) (live { voiceP1 with gain := { current := 0, target := 0, modulation := 0 } }) =
        .next (after (.render 2) (live { voiceP1 with gain := { current := 0, target := 0, modulation := 0 } })) ∧
      exec (.render 2) (live voiceP1) = .next (after (.render 2) (live voiceP1)) :=
  ⟨next_of_some (by decide +kernel), next_of_some (by decide +kernel)⟩

end Sys2Proof.Tests
end

section
/-! PROOFS. Binary32 arithmetic (spec 00 R11 to R13, R16). One rounding gives a nearest binary32, the even one of two that are
equally near; the sum, the product and the quotient inherit it from the exact value that each of them rounds. -/

namespace Sys2Proof.Machine

/-! ## One rounding is to nearest, ties to even -/

/-- The distance from `num / den` to its rounding is at most one half, and one half only at an even result. -/
theorem roundHalfEven_error {num den : Nat} (hd : 0 < den) :
    2 * |(roundHalfEven num den * den : Int) - num| ≤ den ∧
      (2 * |(roundHalfEven num den * den : Int) - num| = den → roundHalfEven num den % 2 = 0) := by
  have hr : num % den < den := Nat.mod_lt num hd
  have hnum : (num : Int) = num / den * den + num % den := by exact_mod_cast (Nat.div_add_mod' num den).symm
  unfold roundHalfEven
  simp only
  split
  · have herr : ((num / den + 1 : Nat) * den : Int) - num = den - num % den := by
      push_cast; linear_combination -hnum
    rw [herr, abs_of_nonneg (by omega)]
    omega
  · have herr : ((num / den : Nat) * den : Int) - num = -(num % den) := by
      push_cast; linear_combination -hnum
    rw [herr, abs_neg, abs_of_nonneg (by omega)]
    omega

/-- Rounding half to even gives a nearest whole number, and an even one where another is as near. -/
theorem roundHalfEven_nearest {num den : Nat} (hd : 0 < den) (k : Int) :
    |(roundHalfEven num den * den : Int) - num| ≤ |k * den - num| ∧
      (|(roundHalfEven num den * den : Int) - num| = |k * den - num| → k ≠ roundHalfEven num den →
        roundHalfEven num den % 2 = 0) := by
  obtain ⟨herr, heven⟩ := roundHalfEven_error (num := num) hd
  generalize roundHalfEven num den = n at *
  by_cases hk : k = n
  · subst hk; simp
  · have hapart : (den : Int) ≤ |k * den - n * den| := by
      rw [← sub_mul, abs_mul, Nat.abs_cast]
      exact le_mul_of_one_le_left (by omega) (Int.one_le_abs (sub_ne_zero.2 hk))
    have htri := abs_sub_le (k * den : Int) num (n * den)
    rw [abs_sub_comm (num : Int)] at htri
    exact ⟨by omega, fun h _ => heven (by omega)⟩

/-- A magnitude that rounds below infinity: its value and its last bit are those of the rounded significand. -/
theorem roundMag_significand {num den : Nat} (hd : 0 < den) (hfin : roundMag num den < infMag) :
    magUnits (roundMag num den) =
        roundHalfEven num (den * 2 ^ spacingExp (num / den)) * 2 ^ spacingExp (num / den) ∧
      roundMag num den % 2 = roundHalfEven num (den * 2 ^ spacingExp (num / den)) % 2 := by
  have hmag : roundMag num den =
      spacingExp (num / den) * 2 ^ 23 + roundHalfEven num (den * 2 ^ spacingExp (num / den)) := by
    unfold roundMag at hfin ⊢
    simp only at hfin ⊢
    omega
  rw [hmag]
  exact ⟨magUnits_roundHalfEven hd, by omega⟩

/-- A signed value of magnitude bits `m` is a whole number of spacings `2^s`, or lies below the block of that spacing. -/
theorem dvd_or_lt_of_natAbs {m s : Nat} {u : Int} (hu : u.natAbs = magUnits m) :
    (2 ^ s : Int) ∣ u ∨ u < 2 ^ 23 * 2 ^ s := by
  by_cases hm : 2 ^ (s + 23) ≤ magUnits m
  · left
    have hdvd := Int.natCast_dvd.2 (hu ▸ dvd_magUnits hm)
    exact_mod_cast hdvd
  · right
    have hle : u ≤ magUnits m := hu ▸ Int.le_natAbs
    have hlt : (magUnits m : Int) < 2 ^ (s + 23) := by exact_mod_cast not_le.1 hm
    rw [pow_add, mul_comm] at hlt
    exact hle.trans_lt hlt

/-- A finite rounded magnitude is as near to `num / den` as any signed value `u` of a binary32, and even where another is
as near: the values not below the block's beginning are whole numbers of its spacing, and the others are farther than that
beginning. -/
theorem roundMag_nearest {num den m : Nat} {u : Int} (hd : 0 < den) (hfin : roundMag num den < infMag)
    (hu : u.natAbs = magUnits m) :
    |(magUnits (roundMag num den) * den : Int) - num| ≤ |u * den - num| ∧
      (|(magUnits (roundMag num den) * den : Int) - num| = |u * den - num| → u ≠ magUnits (roundMag num den) →
        roundMag num den % 2 = 0) := by
  obtain ⟨hval, hpar⟩ := roundMag_significand hd hfin
  have hblock := @spacingExp_le (num / den)
  rw [hval, hpar]
  generalize spacingExp (num / den) = s at *
  have hnear := roundHalfEven_nearest (num := num) (den := den * 2 ^ s) (by positivity)
  generalize roundHalfEven num (den * 2 ^ s) = n at *
  have hscale (k : Int) : k * (den * 2 ^ s : Nat) = k * 2 ^ s * den := by push_cast; ring
  simp only [hscale] at hnear
  push_cast
  by_cases hdvd : (2 ^ s : Int) ∣ u
  · obtain ⟨k, rfl⟩ := hdvd
    rw [mul_comm (2 ^ s) k]
    obtain ⟨hle, htie⟩ := hnear k
    exact ⟨hle, fun h hne => htie h fun hk => hne (by rw [hk])⟩
  · have hs0 : s ≠ 0 := fun h0 => hdvd (by simp [h0])
    have hsmall := (dvd_or_lt_of_natAbs (s := s) hu).resolve_left hdvd
    have hfar : u * den < 2 ^ 23 * 2 ^ s * den := mul_lt_mul_of_pos_right hsmall (by exact_mod_cast hd)
    have hbegin : (2 ^ 23 * 2 ^ s * den : Int) ≤ num := by
      have hnat := (Nat.le_div_iff_mul_le hd).1 (hblock hs0)
      rw [pow_add, mul_comm (2 ^ s)] at hnat
      exact_mod_cast hnat
    have hle := (hnear (2 ^ 23)).1
    rw [abs_of_nonpos (sub_nonpos.2 hbegin)] at hle
    rw [abs_of_neg (a := u * den - num) (by linarith)]
    exact ⟨by linarith, fun h => by linarith⟩

/-- `r` is a nearest binary32 to the exact value `num / den`, in units, and the last bit of its magnitude is even where
another value is as near (00 R11). Both sides of the comparison are multiplied by the divisor. -/
def NearestEven (r : Word) (num den : Int) : Prop :=
  ∀ w, isFinite w = true →
    |units r * den - num| ≤ |units w * den - num| ∧
      (|units r * den - num| = |units w * den - num| → units w ≠ units r → magBits r % 2 = 0)

theorem NearestEven.neg {r : Word} {num den : Int} (h : NearestEven r num den) : NearestEven r (-num) (-den) := by
  have hneg (u : Int) : |u * -den - -num| = |u * den - num| := by rw [← abs_neg]; congr 1; ring
  intro w hw
  rw [hneg, hneg]
  exact h w hw

/-- The negated value is nearest to the negated quotient. -/
theorem NearestEven.fneg {r : Word} {num den : Int} (h : NearestEven r num den) :
    NearestEven (fneg r) (-num) den := by
  have hneg (x y : Int) (h : x = -y) : |x * den - -num| = |y * den - num| := by rw [← abs_neg, h]; congr 1; ring
  intro w hw
  obtain ⟨hle, htie⟩ := h (Machine.fneg w) (by simpa using hw)
  rw [hneg _ _ (units_fneg r), hneg (units w) (units (Machine.fneg w)) (by simp), magBits_fneg]
  exact ⟨hle, fun heq hne => htie heq fun hc => hne (by rw [units_fneg] at hc ⊢; omega)⟩

/-- A finite rounded quotient is nearest to the exact signed quotient. -/
theorem nearestEven_round {neg : Bool} {num den : Nat} (hd : 0 < den)
    (hfin : isFinite (pack neg (roundMag num den)) = true) :
    NearestEven (pack neg (roundMag num den)) (if neg then -(num : Int) else num) den := by
  have hlt := roundMag_lt num den
  rw [isFinite_iff, magBits_pack _ hlt] at hfin
  have hpos : NearestEven (pack false (roundMag num den)) num den := fun w _ => by
    rw [units_pack _ hlt, magBits_pack _ hlt]
    exact roundMag_nearest hd hfin (natAbs_units w)
  cases neg
  · exact hpos
  · have hflip : fneg (pack false (roundMag num den)) = pack true (roundMag num den) := by
      rw [fneg, signBit_pack _ hlt, magBits_pack _ hlt, Bool.not_false]
    rw [← hflip]
    exact hpos.fneg

/-- The overflow threshold of 00 R11 for a rounded quotient, on its exact numerator `z`. -/
theorem isFinite_round_iff_abs {neg : Bool} {z : Int} {den : Nat} (hd : 0 < den) :
    isFinite (pack neg (roundMag z.natAbs den)) = true ↔ |z| < (2 ^ 25 - 1) * 2 ^ 252 * den := by
  rw [isFinite_round hd, ← mul_assoc, Int.abs_eq_natAbs, ← Int.ofNat_lt]
  push_cast
  norm_num

/-! ## The operations (00 R11)

The laws of an operation on every operand: on infinities and zeros by its own rules, on finite operands as one rounding. -/

section Operations
variable {a b : Word}

theorem isInf_or_isFinite (h : isNaN a = false) : isInf a = true ∨ isFinite a = true :=
  (word_cases a).resolve_left (by simp [h])

theorem fadd_finite_iff (ha : isFinite a = true) (hb : isFinite b = true) :
    isFinite (fadd a b) = true ↔ |units a + units b| < (2 ^ 25 - 1) * 2 ^ 252 := by
  rw [fadd_finite ha hb, roundInt, isFinite_round_iff_abs one_pos, Nat.cast_one, mul_one]

/-- A sum that overflows is the infinity of the exact sum's sign. -/
theorem fadd_overflow (ha : isFinite a = true) (hb : isFinite b = true) (h : isFinite (fadd a b) = false) :
    fadd a b = pack (decide (units a + units b < 0)) infMag := by
  rw [fadd_finite ha hb] at h ⊢
  have h0 : units a + units b ≠ 0 := fun h0 => by
    rw [h0, roundInt_zero, isZero_isFinite (isZero_pack_zero _)] at h
    cases h
  rw [roundInt] at h ⊢
  rw [round_not_finite h, if_neg h0]

theorem fadd_of_units_eq_zero (ha : isFinite a = true) (hb : isFinite b = true) (h : units a + units b = 0) :
    fadd a b = pack (signBit a && signBit b) 0 := by
  rw [fadd_finite ha hb, h, roundInt_zero]

theorem nearestEven_fadd (ha : isFinite a = true) (hb : isFinite b = true) (h : isFinite (fadd a b) = true) :
    NearestEven (fadd a b) (units a + units b) 1 := by
  rw [fadd_finite ha hb, roundInt] at h ⊢
  have hnear := nearestEven_round one_pos h
  rwa [roundInt_sign, Nat.cast_one] at hnear

/-- When a sum is a number (`isNaN_fadd` seen from its other side). -/
theorem not_isNaN_fadd : isNaN (fadd a b) = false ↔
    isNaN a = false ∧ isNaN b = false ∧ (isInf a = true → isInf b = true → signBit a = signBit b) := by
  rw [← Bool.not_eq_true, isNaN_fadd]
  push Not
  simp only [ne_eq, Bool.not_eq_true]

theorem fadd_of_isInf_left (ha : isInf a = true) (h : isNaN (fadd a b) = false) : fadd a b = a := by
  obtain ⟨hna, hnb, hsign⟩ := not_isNaN_fadd.1 h
  cases hib : isInf b
  · simp [fadd, hna, hnb, ha, hib]
  · simp [fadd, hna, hnb, ha, hsign ha hib]

theorem fadd_of_isInf_right (hb : isInf b = true) (h : isNaN (fadd a b) = false) : fadd a b = b := by
  obtain ⟨hna, hnb, hsign⟩ := not_isNaN_fadd.1 h
  cases hia : isInf a
  · simp [fadd, hna, hnb, hb, hia]
  · rw [fadd_of_isInf_left hia h]
    exact eq_of_parts (hsign hia hb) (by rw [isInf_iff.1 hia, isInf_iff.1 hb])

/-- When a product is a number (`isNaN_fmul` seen from its other side). -/
theorem not_isNaN_fmul : isNaN (fmul a b) = false ↔ isNaN a = false ∧ isNaN b = false ∧
    (isInf a = true ∨ isInf b = true → isZero a = false ∧ isZero b = false) := by
  rw [← Bool.not_eq_true, isNaN_fmul]
  push Not
  simp only [ne_eq, Bool.not_eq_true]

/-- An infinite product is the infinity of the two signs, where it is no NaN. -/
theorem fmul_of_isInf (hinf : isInf a = true ∨ isInf b = true) (h : isNaN (fmul a b) = false) :
    fmul a b = pack (signBit a != signBit b) infMag := by
  obtain ⟨hna, hnb, hzero⟩ := not_isNaN_fmul.1 h
  obtain ⟨hza, hzb⟩ := hzero hinf
  simp [fmul, hna, hnb, hinf, hza, hzb]

theorem fmul_finite_iff (ha : isFinite a = true) (hb : isFinite b = true) :
    isFinite (fmul a b) = true ↔ |units a * units b| < (2 ^ 25 - 1) * 2 ^ 252 * 2 ^ 149 := by
  rw [fmul_finite ha hb, ← natAbs_units, ← natAbs_units, ← Int.natAbs_mul, isFinite_round_iff_abs (by positivity),
    Nat.cast_pow, Nat.cast_ofNat]

theorem nearestEven_fmul (ha : isFinite a = true) (hb : isFinite b = true) (h : isFinite (fmul a b) = true) :
    NearestEven (fmul a b) (units a * units b) (2 ^ 149) := by
  rw [fmul_finite ha hb] at h ⊢
  have hnear := nearestEven_round (by positivity) h
  rwa [units_mul, Nat.cast_pow, Nat.cast_ofNat] at hnear

theorem signBit_fmul_of_not_isNaN (h : isNaN (fmul a b) = false) : signBit (fmul a b) = (signBit a != signBit b) := by
  obtain ⟨hna, hnb, -⟩ := not_isNaN_fmul.1 h
  rcases isInf_or_isFinite hna with ha | ha
  · rw [fmul_of_isInf (.inl ha) h, signBit_pack _ infMag_lt]
  · rcases isInf_or_isFinite hnb with hb | hb
    · rw [fmul_of_isInf (.inr hb) h, signBit_pack _ infMag_lt]
    · exact signBit_fmul ha hb

theorem fdiv_of_isInf_left (ha : isInf a = true) (hb : isFinite b = true) :
    fdiv a b = pack (signBit a != signBit b) infMag := by
  simp [fdiv, isInf_not_isNaN ha, isFinite_not_isNaN hb, ha, isFinite_not_isInf hb]

theorem fdiv_of_isInf_right (ha : isFinite a = true) (hb : isInf b = true) :
    fdiv a b = pack (signBit a != signBit b) 0 := by
  simp [fdiv, isFinite_not_isNaN ha, isInf_not_isNaN hb, hb, isFinite_not_isInf ha]

theorem fdiv_of_isZero_right (ha : isFinite a = true) (hza : isZero a = false) (hb : isZero b = true) :
    fdiv a b = pack (signBit a != signBit b) infMag := by
  have hfb := isZero_isFinite hb
  simp [fdiv, isFinite_not_isNaN ha, isFinite_not_isNaN hfb, isFinite_not_isInf ha, isFinite_not_isInf hfb, hza, hb]

theorem magUnits_pos_of_not_isZero (hb : isZero b = false) : 0 < magUnits (magBits b) := by
  rw [Nat.pos_iff_ne_zero, Ne, magUnits_eq_zero, ← isZero_iff_mag, hb]
  exact Bool.false_ne_true

theorem fdiv_finite_iff (ha : isFinite a = true) (hb : isFinite b = true) (h0 : isZero b = false) :
    isFinite (fdiv a b) = true ↔ |units a| * 2 ^ 149 < (2 ^ 25 - 1) * 2 ^ 252 * |units b| := by
  have hnum : magUnits (magBits a) * 2 ^ 149 = (units a * 2 ^ 149).natAbs := by
    rw [Int.natAbs_mul, natAbs_units]; rfl
  rw [fdiv_finite ha hb h0, hnum, isFinite_round_iff_abs (magUnits_pos_of_not_isZero h0), abs_mul, ← natAbs_units b,
    Int.natCast_natAbs, abs_of_pos (a := (2 ^ 149 : Int)) (by positivity)]

/-- The exact quotient is the one rounded: the magnitude of the dividend with the sign of the quotient, over the magnitude of
the divisor. A negative divisor turns both parts. -/
theorem nearestEven_fdiv (ha : isFinite a = true) (hb : isFinite b = true) (h0 : isZero b = false)
    (h : isFinite (fdiv a b) = true) : NearestEven (fdiv a b) (units a * 2 ^ 149) (units b) := by
  rw [fdiv_finite ha hb h0] at h ⊢
  have hnear := nearestEven_round (magUnits_pos_of_not_isZero h0) h
  generalize pack _ (roundMag _ _) = r at hnear
  cases hsb : signBit b
  · have hden : (magUnits (magBits b) : Int) = units b := by simp [units, hsb]
    convert hnear using 1
    · cases hsa : signBit a <;> simp [units, hsa, hsb]
    · exact hden.symm
  · have hden : -(magUnits (magBits b) : Int) = units b := by simp [units, hsb]
    convert hnear.neg using 1
    · cases hsa : signBit a <;> simp [units, hsa, hsb]
    · exact hden.symm

theorem signBit_fdiv_of_not_isNaN (h : isNaN (fdiv a b) = false) : signBit (fdiv a b) = (signBit a != signBit b) := by
  rw [← Bool.not_eq_true, isNaN_fdiv] at h
  push Not at h
  simp only [ne_eq, Bool.not_eq_true] at h
  obtain ⟨hna, hnb, hinfs, hzeros⟩ := h
  rcases isInf_or_isFinite hna with ha | ha
  · have hb := (isInf_or_isFinite hnb).resolve_left (by simp [hinfs ha])
    rw [fdiv_of_isInf_left ha hb, signBit_pack _ infMag_lt]
  · rcases isInf_or_isFinite hnb with hb | hb
    · rw [fdiv_of_isInf_right ha hb, signBit_pack _ (Nat.two_pow_pos 31)]
    · cases hzb : isZero b
      · rw [fdiv_finite ha hb hzb, signBit_pack _ (roundMag_lt _ _)]
      · have hza : isZero a = false := by
          by_contra hza
          simp [hzeros hb (by simpa using hza)] at hzb
        rw [fdiv_of_isZero_right ha hza hzb, signBit_pack _ infMag_lt]

@[simp] theorem isInf_pack_infMag (neg : Bool) : isInf (pack neg infMag) = true := by
  rw [isInf_iff, magBits_pack _ infMag_lt]

end Operations

/-! ## The obligations on arithmetic -/

/-- Settles O49: a sum rounds the exact sum of its operands' units once, over the divisor 1. -/
theorem additionRoundsToNearestEven : Obligations.AdditionRoundsToNearestEven := by
  intro a b
  refine ⟨isNaN_fadd, fadd_of_isInf_left, fadd_of_isInf_right,
    fun ha hb => ⟨fadd_finite_iff ha hb, fun h => ?_, fun h => ?_⟩,
    fun w ha hb h hw => ?_, rfl⟩
  · rw [fadd_overflow ha hb h]
    by_cases hneg : units a + units b < 0
    · rw [if_pos hneg, decide_eq_true hneg]; rfl
    · rw [if_neg hneg, decide_eq_false hneg]; rfl
  · rw [fadd_of_units_eq_zero ha hb h]
    cases signBit a && signBit b <;> rfl
  · simpa only [mul_one] using nearestEven_fadd ha hb h w hw

/-- Settles O50: a product rounds the exact product of its operands' units once, over the divisor 2^149. -/
theorem multiplicationRoundsToNearestEven : Obligations.MultiplicationRoundsToNearestEven := by
  intro a b
  refine ⟨isNaN_fmul, signBit_fmul_of_not_isNaN, fun hinf h => ?_, fmul_finite_iff,
    fun w ha hb h hw => nearestEven_fmul ha hb h w hw⟩
  rw [fmul_of_isInf hinf h, isInf_pack_infMag]

/-- Settles O51: a quotient rounds the scaled dividend once, over the divisor; infinities and a zero divisor have rules of their
own. -/
theorem divisionRoundsToNearestEven : Obligations.DivisionRoundsToNearestEven := by
  intro a b
  refine ⟨isNaN_fdiv, signBit_fdiv_of_not_isNaN, fun ha hb => ?_, fun ha hza hb => ?_, fun ha hb => ?_, fdiv_finite_iff,
    fun w ha hb h0 h hw => nearestEven_fdiv ha hb h0 h w hw⟩
  · rw [fdiv_of_isInf_left ha hb, isInf_pack_infMag]
  · rw [fdiv_of_isZero_right ha hza hb, isInf_pack_infMag]
  · rw [fdiv_of_isInf_right ha hb, isZero_pack_zero]

/-! ## Floor, comparisons and the sine (00 R12, R13, R16) -/

theorem ffloor_of_not_isFinite {x : Word} (h : isFinite x = false) : ffloor x = x := by simp [ffloor, h]

/-- Settles O52: floor is exact on a finite operand, and the order of patterns is that of the exact values. -/
theorem floorIsTheLargestIntegralBelow : Obligations.FloorIsTheLargestIntegralBelow := by
  intro x y
  refine ⟨fun hx => ?_, fun hx => ffloor_of_not_isFinite (isInf_not_isFinite hx), fun hx => ?_,
    ⟨signBit_fabs x, magBits_fabs x⟩, ⟨signBit_fneg x, magBits_fneg x⟩, flt_iff, fle_iff, feq_iff, rfl, rfl⟩
  · obtain ⟨hnan, hunits⟩ := units_ffloor hx
    exact ⟨hnan, units x / 2 ^ 149, hunits, Int.ediv_mul_le _ (by norm_num), Int.lt_ediv_add_one_mul_self _ (by norm_num)⟩
  · rwa [ffloor_of_not_isFinite (isNaN_not_isFinite hx)]

/-- A value whose magnitude is at most that of a positive number `c` lies between `-c` and `c`. -/
theorem fle_of_magBits_le {x c : Word} (hc : isNaN c = false) (hs : signBit c = false) (h : magBits x ≤ magBits c) :
    fle (fneg c) x = true ∧ fle x c = true := by
  have hx : isNaN x = false := isNaN_eq_false.2 (h.trans (isNaN_eq_false.1 hc))
  have habs : |units x| ≤ units c := by
    rw [Int.abs_eq_natAbs, natAbs_units]
    simpa [units, hs] using h
  obtain ⟨hlo, hhi⟩ := abs_le.1 habs
  exact ⟨fle_iff.2 ⟨by simpa using hc, hx, by simpa using hlo⟩, fle_iff.2 ⟨hx, hc, hhi⟩⟩

/-- Settles O47: P1 and P3 as the model's sine has them, P2 from its bound on the magnitude. -/
theorem sineHasItsNamedProperties : Obligations.SineHasItsNamedProperties :=
  ⟨sin32_zero (by decide), sin32_zero (by decide),
    fun _ hx => fle_of_magBits_le (c := one) (by decide) (by decide) (sin32_range hx), fun _ hx => sin32_nan hx⟩

end Sys2Proof.Machine
end

section
/-! PROOFS. The state (spec 10 R31 to R47, R52, R55, 46 R240). What a command can do to the Live fields, said once; the ranges
each component keeps; and from both the invariants that every step keeps. -/

namespace Sys2Proof.Machine

/-! ## What a command does to the Live fields -/

/-- The setters of spec 46: the command, the Live fields it finds and the Live fields it leaves. -/
inductive Sets : Instr → Voice → Voice → Prop
  | gain (v : Voice) (x : Word) : Sets (.setGain x) v { v with gain := setAbsolute v.gain x }
  | frequency (v : Voice) (x : Word) : Sets (.setFrequency x) v { v with freq := setAbsolute v.freq x }
  | noteOn (v : Voice) : Sets .noteOn v { v with env := noteOnEvent v.env }
  | noteOff (v : Voice) : Sets .noteOff v { v with env := noteOffEvent v.env }
  | adsr {v : Voice} {a d su r : Word} {e : Envelope} (h : storeShape v.env a d su r = some e) :
      Sets (.setAdsr a d su r) v { v with env := e }
  | waveform (v : Voice) (x : Word) :
      Sets (.setWaveform x) v { v with osc := { v.osc with waveform := waveformOfId x.toNat } }
  | lfoRate (v : Voice) (x : Word) : Sets (.setLfoRate x) v { v with lfo := { v.lfo with freq := x } }

/-- `exec_eq_next` with its list of setters as one relation. -/
theorem exec_cases {i : Instr} {s t : State} (h : exec i s = .next t) :
    (∃ sr, i = .create sr ∧ validSampleRate sr = true ∧ t = { s with lc := .live (initialVoice sr) }) ∨
    (i = .destroy ∧ t = { s with lc := .unconstructed }) ∨
    (∃ n v v' ys, i = .render n ∧ s.lc = .live v ∧ renderSamples n.toNat v = some (v', ys) ∧
      t = ((writeAll s.buffer.base 0 ys s).withVoice v').endRender) ∨
    ∃ v v', s.lc = .live v ∧ t = s.withVoice v' ∧ Sets i v v' := by
  rcases exec_eq_next h with hcreate | ⟨hi, -, ht⟩ | ⟨n, v, v', ys, hi, hv, -, hys, ht⟩ | ⟨v, v', hv, ht, hset⟩
  · exact .inl hcreate
  · exact .inr (.inl ⟨hi, ht⟩)
  · exact .inr (.inr (.inl ⟨n, v, v', ys, hi, hv, hys, ht⟩))
  · refine .inr (.inr (.inr ⟨v, v', hv, ht, ?_⟩))
    rcases hset with ⟨x, rfl, rfl⟩ | ⟨x, rfl, rfl⟩ | ⟨rfl, rfl⟩ | ⟨rfl, rfl⟩ | ⟨a, d, su, r, e, rfl, he, rfl⟩ |
      ⟨x, rfl, rfl⟩ | ⟨x, rfl, rfl⟩
    · exact .gain v x
    · exact .frequency v x
    · exact .noteOn v
    · exact .noteOff v
    · exact .adsr he
    · exact .waveform v x
    · exact .lfoRate v x

/-- Where the Live fields after a command come from: create, a render, or a setter. -/
theorem exec_live_cases {i : Instr} {s t : State} {v' : Voice} (h : exec i s = .next t) (ht : t.lc = .live v') :
    (∃ sr, i = .create sr ∧ validSampleRate sr = true ∧ v' = initialVoice sr) ∨
    ∃ v, s.lc = .live v ∧
      ((∃ n ys, i = .render n ∧ renderSamples n.toNat v = some (v', ys)) ∨ Sets i v v') := by
  rcases exec_cases h with ⟨sr, hi, hsr, rfl⟩ | ⟨-, rfl⟩ | ⟨n, v, w, ys, hi, hv, hys, rfl⟩ | ⟨v, w, hv, rfl, hset⟩
  · exact .inl ⟨sr, hi, hsr, (Lifecycle.live.inj ht).symm⟩
  · cases ht
  · obtain rfl : w = v' := Lifecycle.live.inj ht
    exact .inr ⟨v, hv, .inl ⟨n, ys, hi, hys⟩⟩
  · obtain rfl : w = v' := Lifecycle.live.inj ht
    exact .inr ⟨v, hv, .inr hset⟩

theorem Sets.ne_destroy {i : Instr} {v v' : Voice} (h : Sets i v v') : i ≠ .destroy := by
  rintro rfl
  cases h

/-- What no setter writes (10 R32, R47, 92 D25). -/
theorem Sets.frame {i : Instr} {v v' : Voice} (h : Sets i v v') :
    v'.sampleRate = v.sampleRate ∧ v'.routes = v.routes ∧ v'.osc.phase = v.osc.phase ∧ v'.lfo.phase = v.lfo.phase := by
  cases h <;> exact ⟨rfl, rfl, rfl, rfl⟩

/-! ## The smoother keeps a settled parameter settled (40 R130) -/

theorem settled_iff {p : Smoothed} :
    settled p = true ↔ (isFinite p.current = true → isFinite p.target = true → units p.current = units p.target) := by
  cases hc : isFinite p.current
  · simp [settled, hc]
  · cases ht : isFinite p.target
    · simp [settled, ht]
    · simp [settled, hc, ht, feq_iff, isFinite_not_isNaN]

theorem settled_setAbsolute (p : Smoothed) (x : Word) : settled (setAbsolute p x) = true :=
  settled_iff.2 fun _ _ => rfl

/-- A sum whose first operand is infinite or NaN is not finite. -/
theorem fadd_not_finite {a b : Word} (ha : isFinite a = false) : isFinite (fadd a b) = false := by
  cases hn : isNaN (fadd a b)
  · obtain ⟨hna, -, -⟩ := not_isNaN_fadd.1 hn
    have hinf := (isInf_or_isFinite hna).resolve_right (by simp [ha])
    rw [fadd_of_isInf_left hinf hn, ha]
  · exact isNaN_not_isFinite hn

/-- Adding a zero does not change a finite value. -/
theorem units_fadd_zero {a b : Word} (ha : isFinite a = true) (hb : isZero b = true) : units (fadd a b) = units a := by
  rw [fadd_finite ha (isZero_isFinite hb), units_of_isZero hb, add_zero]
  exact units_roundInt_of_eq (isFinite_not_isNaN ha) rfl

/-- A finite current value equals its target, so the difference is a zero; one that is not finite stays so. -/
theorem settled_smooth {p : Smoothed} {c : Word} (hc : isFinite c = true) (h : settled p = true) :
    settled (smooth p c) = true := by
  rw [settled_iff] at h ⊢
  intro hcur htar
  cases hp : isFinite p.current
  · exact absurd hcur (by simp [smooth, fadd_not_finite hp])
  · have hzero := fmul_isZero_left (fsub_isZero htar hp (h hp htar).symm) hc
    exact (units_fadd_zero hp hzero).trans (h hp htar)

/-! ## The envelope's value stays in [0, 1] (41 R141 to R147) -/

/-- The product of a stored time and the sample rate is a number without sign; it may underflow or overflow. -/
theorem time_product {time sr : Word} (ht : fle adsrMinTime time = true) (hsr : validSampleRate sr = true) :
    isNaN (fmul time sr) = false ∧ signBit (fmul time sr) = false := by
  obtain ⟨hnt, hst, hpt⟩ := time_facts ht
  obtain ⟨hfs, hss, hps⟩ := validSampleRate_facts hsr
  have nonzero {x : Word} (hx : 0 < units x) : isZero x = false := by
    rw [← Bool.not_eq_true, isZero_iff]
    exact hx.ne'
  have hn := not_isNaN_fmul.2 ⟨hnt, isFinite_not_isNaN hfs, fun _ => ⟨nonzero hpt, nonzero hps⟩⟩
  exact ⟨hn, fmul_sign hst hss hn⟩

/-- A finite value that is not negative over such a product: a number that is not negative, unless the product is a zero. -/
theorem fdiv_product_cases {x p : Word} (hx : isFinite x = true) (h0 : 0 ≤ units x) (hp : isNaN p = false)
    (hs : signBit p = false) :
    (isNaN (fdiv x p) = false ∧ 0 ≤ units (fdiv x p)) ∨ (isNaN (fdiv x p) = true ∧ isZero p = true) := by
  cases hn : isNaN (fdiv x p)
  · exact .inl ⟨rfl, fdiv_nonneg h0 hs hn⟩
  · rcases isNaN_fdiv.1 hn with h | h | ⟨h, -⟩ | ⟨-, -, h⟩
    · simp [isFinite_not_isNaN hx] at h
    · simp [hp] at h
    · simp [isFinite_not_isInf hx] at h
    · exact .inr ⟨rfl, h⟩

/-- The value Attack reaches: it rises by `inc` up to 1.0 (41 R142). -/
def riseToOne (value inc : Word) : Word := if fge (fadd value inc) one then one else fadd value inc

/-- The value Decay and Release reach: it falls by `dec` down to `low` (41 R143, R145). -/
def fallTo (low value dec : Word) : Word := if fle (fsub value dec) low then low else fsub value dec

theorem advanceAttack_value (sr : Word) (e : Envelope) :
    (advanceAttack sr e).value = riseToOne e.value (fdiv one (fmul e.attack sr)) := by
  unfold advanceAttack riseToOne
  simp only
  split <;> rfl

theorem advanceDecay_value (sr : Word) (e : Envelope) :
    (advanceDecay sr e).value = fallTo e.sustain e.value (fdiv (fsub one e.sustain) (fmul e.decay sr)) := by
  unfold advanceDecay fallTo
  simp only
  split <;> rfl

theorem advanceRelease_value (sr : Word) (e : Envelope) :
    (advanceRelease sr e).value = fallTo plusZero e.value (fdiv e.sustain (fmul e.release sr)) := by
  unfold advanceRelease fallTo
  simp only
  split <;> rfl

theorem inUnit_plusZero : inUnit plusZero = true := by decide

theorem inUnit_one : inUnit one = true := by decide

theorem inUnit_riseToOne {value inc : Word} (hv : inUnit value = true) (hn : isNaN inc = false) (h0 : 0 ≤ units inc) :
    inUnit (riseToOne value inc) = true := by
  obtain ⟨hna, hle⟩ := le_fadd_of_nonneg (inUnit_isFinite hv) hn h0
  obtain ⟨-, hv0, -⟩ := inUnit_iff.1 hv
  cases hge : fge (fadd value inc) one
  · have hlt := fle_false_of isNaN_one hna hge
    rw [units_one] at hlt
    rw [riseToOne, if_neg (by simp [hge])]
    exact inUnit_iff.2 ⟨hna, hv0.trans hle, hlt.le⟩
  · rw [riseToOne, if_pos hge]
    exact inUnit_one

theorem inUnit_fallTo {low value dec : Word} (hl : inUnit low = true) (hv : inUnit value = true)
    (hn : isNaN dec = false) (h0 : 0 ≤ units dec) : inUnit (fallTo low value dec) = true := by
  obtain ⟨hns, hle⟩ := fsub_le_of_nonneg (inUnit_isFinite hv) hn h0
  obtain ⟨-, -, hv1⟩ := inUnit_iff.1 hv
  obtain ⟨hnl, hl0, -⟩ := inUnit_iff.1 hl
  cases hfl : fle (fsub value dec) low
  · have hlt := fle_false_of hns hnl hfl
    rw [fallTo, if_neg (by simp [hfl])]
    exact inUnit_iff.2 ⟨hns, hl0.trans hlt.le, hle.trans hv1⟩
  · rw [fallTo, if_pos hfl]
    exact hl

/-- No NaN is at or below the floor of a fall, so a NaN decrement makes the value a NaN (41 R147). -/
theorem isNaN_fallTo {low value dec : Word} (hn : isNaN dec = true) : isNaN (fallTo low value dec) = true := by
  have hs : isNaN (fsub value dec) = true := isNaN_fsub.2 (.inr (.inl hn))
  have hfl : fle (fsub value dec) low = false := by simp [fle, hs]
  rw [fallTo, if_neg (by simp [hfl]), hs]

/-- Decay and Release in one: the value falls into [0, 1], or is a NaN where the product is a zero (41 R147). -/
theorem fallTo_cases {low value x p : Word} (hl : inUnit low = true) (hv : inUnit value = true)
    (hx : isFinite x = true) (h0 : 0 ≤ units x) (hp : isNaN p = false) (hs : signBit p = false) :
    inUnit (fallTo low value (fdiv x p)) = true ∨
      (isNaN (fallTo low value (fdiv x p)) = true ∧ isZero p = true) := by
  rcases fdiv_product_cases hx h0 hp hs with ⟨hn, hd⟩ | ⟨hn, hz⟩
  · exact .inl (inUnit_fallTo hl hv hn hd)
  · exact .inr ⟨isNaN_fallTo hn, hz⟩

/-- What Decay falls by, before the division: 1.0 less a sustain in [0, 1]. -/
theorem one_sub_sustain {su : Word} (h : inUnit su = true) : isFinite (fsub one su) = true ∧ 0 ≤ units (fsub one su) := by
  obtain ⟨-, h0, h1⟩ := inUnit_iff.1 h
  have hf := inUnit_isFinite h
  have hlo : units plusZero ≤ units (fsub one su) := le_fsub isFinite_one hf isNaN_plusZero (by simpa using h1)
  have hhi : units (fsub one su) ≤ units one := fsub_le isFinite_one hf isNaN_one (by simpa using h0)
  exact ⟨isFinite_of_bounds isFinite_plusZero isFinite_one hlo hhi, by simpa using hlo⟩

/-- Settles O40: the rise of Attack and the falls of Decay and Release stay between the value and their bound. -/
theorem envelopeValueStaysInUnit : Obligations.EnvelopeValueStaysInUnit := by
  intro v hv
  obtain ⟨hsn, hs0, -⟩ := inUnit_iff.1 hv.sustain
  unfold envAdvance
  cases hst : v.env.stage with
  | idle => exact .inl inUnit_plusZero
  | attack =>
    left
    obtain ⟨hp, hsign⟩ := time_product hv.attack hv.sampleRate
    have hone : isZero one = false := by decide
    have hn : isNaN (fdiv one (fmul v.env.attack v.sampleRate)) = false := by
      rw [← Bool.not_eq_true, isNaN_fdiv]
      simp [hp, hone, isFinite_not_isInf]
    simp only [advanceAttack_value]
    exact inUnit_riseToOne hv.value hn (fdiv_nonneg (by simp) hsign hn)
  | decay =>
    obtain ⟨hp, hsign⟩ := time_product hv.decay hv.sampleRate
    obtain ⟨hf, h0⟩ := one_sub_sustain hv.sustain
    simp only [advanceDecay_value]
    exact (fallTo_cases hv.sustain hv.value hf h0 hp hsign).imp_right fun ⟨hn, hz⟩ => ⟨hn, .inl ⟨trivial, hz⟩⟩
  | sustain => exact .inl hv.sustain
  | release =>
    obtain ⟨hp, hsign⟩ := time_product hv.release hv.sampleRate
    simp only [advanceRelease_value]
    exact (fallTo_cases inUnit_plusZero hv.value (inUnit_isFinite hv.sustain) hs0 hp hsign).imp_right
      fun ⟨hn, hz⟩ => ⟨hn, .inr ⟨trivial, hz⟩⟩

/-- An advance that ends in Idle leaves the value +0: only Idle and the end of Release do (41 R141, R145). -/
theorem envAdvance_idle {sr : Word} {e : Envelope} (h : (envAdvance sr e).stage = .idle) :
    (envAdvance sr e).value = plusZero := by
  cases hst : e.stage with
  | idle => simp [envAdvance, hst, advanceIdle]
  | attack =>
    simp only [envAdvance, hst, advanceAttack] at h
    split at h <;> simp at h
  | decay =>
    simp only [envAdvance, hst, advanceDecay] at h
    split at h <;> simp at h
  | sustain => simp [envAdvance, hst, advanceSustain] at h
  | release =>
    simp only [envAdvance, hst, advanceRelease] at h ⊢
    split at h
    · rename_i hle
      rw [if_pos hle]
    · simp at h

/-! ## The invariant of the Live fields -/

theorem sustainReset_inUnit : inUnit sustainReset = true := by
  unfold sustainReset
  cases h : clampSustain Config.sustainResetBits with
  | none => exact inUnit_plusZero
  | some y => exact clampSustain_inUnit h

theorem initialVoice_inv {sr : Word} (h : validSampleRate sr = true) : VoiceInv (initialVoice sr) where
  sampleRate := h
  attack := openTime_ge _
  decay := openTime_ge _
  release := openTime_ge _
  sustain := sustainReset_inUnit
  value := inUnit_plusZero
  idle _ := rfl
  freq := settled_iff.2 fun _ _ => rfl
  gain := settled_iff.2 fun _ _ => rfl
  routes := rfl

/-- A setter keeps the invariant: a parameter it sets is settled, a stage it enters is not Idle, a shape it stores is floored
and clamped. -/
theorem Sets.keeps_inv {i : Instr} {v v' : Voice} (h : Sets i v v') (hv : VoiceInv v) : VoiceInv v' := by
  cases h with
  | gain x => exact { hv with gain := settled_setAbsolute _ _ }
  | frequency x => exact { hv with freq := settled_setAbsolute _ _ }
  | noteOn => exact { hv with idle := fun h => by cases h }
  | noteOff => exact { hv with idle := fun h => by cases h }
  | adsr he =>
    obtain ⟨a', d', su', r', ha, hd, hsu, hr, rfl⟩ := storeShape_eq_some he
    exact { hv with
      attack := floorTime_ge ha
      decay := floorTime_ge hd
      sustain := clampSustain_inUnit hsu
      release := floorTime_ge hr }
  | waveform x => exact { hv with }
  | lfoRate x => exact { hv with }

/-- The envelope's value goes into the gain product, so where the gain clamp answers it is no NaN (45 R210, R212). -/
theorem envAdvance_value_not_isNaN {v : Voice} {g : Word} (hr : v.routes = routeTable)
    (h : effectiveGain (controlSteps v) = some g) : isNaN (envAdvance v.sampleRate v.env).value = false := by
  rw [← Bool.not_eq_true]
  intro hn
  have hmod : isNaN (controlSteps v).gain.modulation = true := by
    rw [controlSteps_gain_modulation hr]
    exact isNaN_fadd.2 (.inr (.inl (isNaN_fmul.2 (.inl hn))))
  rw [effectiveGain_eq_none.2 (isNaN_fmul.2 (.inr (.inl hmod)))] at h
  cases h

/-- A sample step that gives a sample keeps the invariant: the one range that could break, the envelope's value at a NaN, is
refused at the gain clamp. -/
theorem sampleStep_keeps_inv {v v' : Voice} {y : Word} (hv : VoiceInv v) (h : sampleStep v = .sample v' y) :
    VoiceInv v' := by
  obtain ⟨f, g, -, hg, -, rfl⟩ := sampleStep_eq_sample.1 h
  have hvalue : inUnit (envAdvance v.sampleRate v.env).value = true :=
    (envelopeValueStaysInUnit v hv).resolve_right fun ⟨hn, _⟩ => by
      rw [envAdvance_value_not_isNaN hv.routes hg] at hn
      cases hn
  have hfreq := settled_smooth isFinite_kSmooth hv.freq
  have hgain := settled_smooth isFinite_kSmooth hv.gain
  constructor
  case sampleRate => simpa using hv.sampleRate
  case attack => simpa using hv.attack
  case decay => simpa using hv.decay
  case release => simpa using hv.release
  case sustain => simpa using hv.sustain
  case value => simpa using hvalue
  case idle => simpa using envAdvance_idle
  case freq => simpa [settled] using hfreq
  case gain => simpa [settled] using hgain
  case routes => simpa using hv.routes

theorem renderSamples_keeps_inv {n : Nat} {v v' : Voice} {ys : List Word} (hv : VoiceInv v)
    (h : renderSamples n v = some (v', ys)) : VoiceInv v' :=
  (renderSamples_induct (Q := fun _ => True) (fun hw hy => ⟨sampleStep_keeps_inv hw hy, trivial⟩) hv h).1

theorem exec_keeps_voiceInv {i : Instr} {s t : State} (hs : ∀ v, s.lc = .live v → VoiceInv v)
    (h : exec i s = .next t) : ∀ v', t.lc = .live v' → VoiceInv v' := by
  intro v' hv'
  rcases exec_live_cases h hv' with ⟨sr, -, hsr, rfl⟩ | ⟨v, hv, ⟨n, ys, -, hys⟩ | hset⟩
  · exact initialVoice_inv hsr
  · exact renderSamples_keeps_inv (hs v hv) hys
  · exact hset.keeps_inv (hs v hv)

/-! ## The history is in the order of its writes (20 R73, log 13) -/

/-- The order of the history: by render, and within a render by slot. -/
def WriteBefore (w w' : OutWrite) : Prop := w.render < w'.render ∨ (w.render = w'.render ∧ w.slot < w'.slot)

theorem render_of_mem_historyOf {k : Nat} {ys : List Word} {w : OutWrite} (h : w ∈ historyOf k ys) : w.render = k := by
  obtain ⟨i, hi, rfl⟩ := List.mem_mapIdx.1 h
  rfl

theorem historyOf_ordered (k : Nat) (ys : List Word) : (historyOf k ys).Pairwise WriteBefore := by
  rw [List.pairwise_iff_getElem]
  intro i j hi hj hij
  simp only [historyOf, List.getElem_mapIdx]
  exact .inr ⟨rfl, hij⟩

/-- A render adds one entry a sample, as `historyOf` numbers them. -/
theorem render_history (base : Nat) (ys : List Word) (s : State) :
    (writeAll base 0 ys s).history = s.history ++ historyOf s.renderIndex (writtenPatterns s.nanDraws ys) := by
  simp [writeAll_history, historyOf]

/-- The slot writes of a render and its end keep what `StateInv` says outside the Live fields. -/
theorem render_keeps_stateInv {s : State} {base : Nat} {ys : List Word} {v' : Voice} (hs : StateInv s)
    (hv' : VoiceInv v') : StateInv ((writeAll base 0 ys s).withVoice v').endRender where
  voice w hw := Lifecycle.live.inj hw ▸ hv'
  memory := writeAll_mem_wf _ _ _ _ hs.memory
  history w hw := by
    simp only [State.endRender_history, State.withVoice_history, render_history, List.mem_append] at hw
    simp only [State.endRender_renderIndex, State.withVoice_renderIndex, writeAll_renderIndex]
    rcases hw with hw | hw
    · exact Nat.lt_succ_of_lt (hs.history w hw)
    · exact Nat.lt_succ_of_le (render_of_mem_historyOf hw).le
  ordered := by
    simp only [State.endRender_history, State.withVoice_history, render_history]
    refine List.pairwise_append.2 ⟨hs.ordered, historyOf_ordered _ _, fun w hw w' hw' => .inl ?_⟩
    rw [render_of_mem_historyOf hw']
    exact hs.history w hw

theorem exec_keeps_stateInv {i : Instr} {s t : State} (hs : StateInv s) (h : exec i s = .next t) : StateInv t := by
  have hvoice := exec_keeps_voiceInv hs.voice h
  rcases exec_cases h with ⟨sr, -, -, rfl⟩ | ⟨-, rfl⟩ | ⟨n, v, v', ys, -, -, -, rfl⟩ | ⟨v, v', -, rfl, -⟩
  · exact { hs with voice := hvoice }
  · exact { hs with voice := hvoice }
  · exact render_keeps_stateInv hs (hvoice v' rfl)
  · exact { hs with voice := hvoice }

/-- Settles O54: the idle step changes nothing, and a command that completes keeps the invariant (`exec_keeps_stateInv`). -/
theorem everyStepKeepsTheInvariant : Obligations.EveryStepKeepsTheInvariant := by
  intro s t hs h
  obtain ⟨-, ⟨-, rfl⟩ | ⟨i, rest, t', -, ht', rfl⟩⟩ := step_eq_next h
  · exact hs
  · exact { exec_keeps_stateInv hs ht' with }

/-- Settles O55: nothing is Live, stored or written at power-on. -/
theorem resetHasTheInvariant : Obligations.ResetHasTheInvariant :=
  ⟨rfl, rfl, rfl, rfl, rfl,
    { voice := fun _ h => nomatch h
      memory := reset_memory_wf
      history := fun _ h => nomatch h
      ordered := List.Pairwise.nil }⟩

/-! ## The phases (10 R43, R45, 42 R177) -/

theorem inCycle_plusZero : inCycle plusZero = true := by decide

theorem phaseOk_of_inCycle {p : Word} (h : inCycle p = true) : phaseOk p = true := by simp [phaseOk, h]

theorem phaseOk_of_isNaN {p : Word} (h : isNaN p = true) : phaseOk p = true := by simp [phaseOk, h]

/-- The floor of a finite value is finite: it is less than 1.0 below a value that is far from overflow. -/
theorem isFinite_ffloor {p : Word} (h : isFinite p = true) : isFinite (ffloor p) = true := by
  obtain ⟨-, hfloor⟩ := units_ffloor h
  have hp : (units p).natAbs ≤ magUnits (infMag - 1) := by
    rw [natAbs_units, magUnits_le_iff]
    exact Nat.le_sub_one_of_lt (isFinite_iff.1 h)
  rw [magUnits_largest] at hp
  rw [isFinite_iff, ← magUnits_lt_iff, magUnits_infMag, ← natAbs_units, hfloor]
  omega

/-- A finite value less its floor is a number that is not negative: the exact difference is in [0, 1). -/
theorem fsub_ffloor_nonneg {p : Word} (h : isFinite p = true) :
    isNaN (fsub p (ffloor p)) = false ∧ 0 ≤ units (fsub p (ffloor p)) := by
  obtain ⟨-, hfloor⟩ := units_ffloor h
  have hf := isFinite_ffloor h
  have hle : units plusZero ≤ units p - units (ffloor p) := by
    rw [hfloor, units_plusZero]
    omega
  exact ⟨fsub_not_isNaN h hf, by simpa using le_fsub h hf isNaN_plusZero hle⟩

/-- A number that is not negative is in [0, 1) when it is not at or above 1.0. -/
theorem inCycle_of_lt_one {x : Word} (hn : isNaN x = false) (h0 : 0 ≤ units x) (h1 : fge x one = false) :
    inCycle x = true := by
  have hlt := fle_false_of isNaN_one hn h1
  rw [units_one] at hlt
  exact inCycle_iff.2 ⟨hn, h0, hlt⟩

/-- A finite sum is wrapped into [0, 1): outside it the difference to the floor is, or rounds up to 1.0 and becomes +0
(42 R177 (a) to (c)). -/
theorem inCycle_wrapReduce {p : Word} (h : isFinite p = true) : inCycle (wrapReduce p) = true := by
  unfold wrapReduce
  simp only
  split
  · obtain ⟨hn, h0⟩ := fsub_ffloor_nonneg h
    split
    · exact inCycle_plusZero
    · rename_i hlt
      exact inCycle_of_lt_one hn h0 (by simpa using hlt)
  · rename_i hin
    obtain ⟨h1, h0⟩ : fge p one = false ∧ flt p plusZero = false := by simpa using hin
    have hn := isFinite_not_isNaN h
    exact inCycle_of_lt_one hn (by simpa using flt_false_of hn isNaN_plusZero h0) h1

/-- An infinite sum is wrapped to a NaN, and a NaN stays one (42 R177 (d), (e)). -/
theorem isNaN_wrapReduce {p : Word} (h : isFinite p = false) : isNaN (wrapReduce p) = true := by
  have hr := fsub_ffloor_nan h
  have hge : fge (fsub p (ffloor p)) one = false := by simp [fge, fle, hr]
  unfold wrapReduce
  simp only [hge, Bool.false_eq_true, if_false]
  split
  · exact hr
  · rename_i hin
    obtain ⟨h1, h0⟩ : fge p one = false ∧ flt p plusZero = false := by simpa using hin
    rw [← Bool.not_eq_false]
    intro hn
    have hlo := flt_false_of hn isNaN_plusZero h0
    have hhi := fle_false_of isNaN_one hn h1
    rw [isFinite_of_bounds isFinite_plusZero isFinite_one hlo hhi.le] at h
    cases h

/-- With WRAP_MODE reduce a wrapped sum is in [0, 1) or a NaN (42 R177). -/
theorem phaseOk_wrapReduce (p : Word) : phaseOk (wrapReduce p) = true := by
  cases h : isFinite p
  · exact phaseOk_of_isNaN (isNaN_wrapReduce h)
  · exact phaseOk_of_inCycle (inCycle_wrapReduce h)

theorem phaseOk_advancePhase (hm : Config.wrapMode = .reduce) (phase f sr : Word) :
    phaseOk (advancePhase phase f sr) = true := by
  rw [advancePhase, wrap_eq_wrapIn, hm]
  exact phaseOk_wrapReduce _

/-- Both phases of the Live fields are as `phaseOk` says. -/
def PhasesOk (v : Voice) : Prop := phaseOk v.osc.phase = true ∧ phaseOk v.lfo.phase = true

theorem sampleStep_phasesOk (hm : Config.wrapMode = .reduce) {v v' : Voice} {y : Word}
    (h : sampleStep v = .sample v' y) : PhasesOk v' := by
  obtain ⟨f, g, -, -, -, rfl⟩ := sampleStep_eq_sample.1 h
  refine ⟨phaseOk_advancePhase hm _ _ _, ?_⟩
  simp only [controlSteps_lfo, lfoAdvance_phase]
  exact phaseOk_advancePhase hm _ _ _

theorem renderSamples_phasesOk (hm : Config.wrapMode = .reduce) {n : Nat} {v v' : Voice} {ys : List Word}
    (hv : PhasesOk v) (h : renderSamples n v = some (v', ys)) : PhasesOk v' :=
  (renderSamples_induct (Q := fun _ => True) (fun _ hy => ⟨sampleStep_phasesOk hm hy, trivial⟩) hv h).1

theorem exec_keeps_phaseInv {i : Instr} {s t : State} (hs : PhaseInv s) (h : exec i s = .next t) : PhaseInv t := by
  intro hm v' hv'
  rcases exec_live_cases h hv' with ⟨sr, -, -, rfl⟩ | ⟨v, hv, ⟨n, ys, -, hys⟩ | hset⟩
  · exact ⟨phaseOk_of_inCycle inCycle_plusZero, phaseOk_of_inCycle inCycle_plusZero⟩
  · exact renderSamples_phasesOk hm (hs hm v hv) hys
  · obtain ⟨-, -, hosc, hlfo⟩ := hset.frame
    rw [hosc, hlfo]
    exact hs hm v hv

/-- Settles O56: only a render moves a phase, and its wrap lands in [0, 1) or on a NaN (`phaseOk_wrapReduce`). -/
theorem everyStepKeepsThePhases : Obligations.EveryStepKeepsThePhases := by
  intro s t hs h
  obtain ⟨-, ⟨-, rfl⟩ | ⟨i, rest, t', -, ht', rfl⟩⟩ := step_eq_next h
  · exact hs
  · exact exec_keeps_phaseInv (t := t') hs ht'

/-! ## What a command leaves alone -/

/-- Settles O11: create, render and the setters leave a Live block, destroy none. -/
theorem onlyDestroyUnconstructs : Obligations.OnlyDestroyUnconstructs := by
  intro i s t h
  rcases exec_cases h with ⟨sr, rfl, -, rfl⟩ | ⟨rfl, rfl⟩ | ⟨n, v, v', ys, rfl, -, -, rfl⟩ | ⟨v, v', -, rfl, hset⟩
  · simp
  · simp
  · simp
  · simp [hset.ne_destroy]

/-- Settles O22: create, destroy and the setters write the lifecycle and its fields only. -/
theorem onlyRenderWritesOutside : Obligations.OnlyRenderWritesOutside := by
  intro i s t hi h
  rcases exec_cases h with ⟨sr, -, -, rfl⟩ | ⟨-, rfl⟩ | ⟨n, v, v', ys, rfl, -, -, -⟩ | ⟨v, v', -, rfl, -⟩
  · exact ⟨rfl, rfl, rfl, rfl, rfl, rfl⟩
  · exact ⟨rfl, rfl, rfl, rfl, rfl, rfl⟩
  · exact absurd rfl (hi n)
  · exact ⟨rfl, rfl, rfl, rfl, rfl, rfl⟩

/-- Settles O24: neither a render nor a setter writes them. -/
theorem sampleRateAndRoutesAreFixed : Obligations.SampleRateAndRoutesAreFixed := by
  intro i s t v v' hi h hv hv'
  rcases exec_live_cases h hv' with ⟨sr, rfl, -, -⟩ | ⟨w, hw, hcase⟩
  · exact absurd rfl (hi sr)
  · obtain rfl : w = v := Lifecycle.live.inj (hw.symm.trans hv)
    rcases hcase with ⟨n, ys, -, hys⟩ | hset
    · obtain ⟨hsr, hroutes, -⟩ := renderSamples_frame hys
      exact ⟨hsr, hroutes⟩
    · obtain ⟨hsr, hroutes, -⟩ := hset.frame
      exact ⟨hsr, hroutes⟩

/-- Settles O25: the frame of the samples (`renderSamples_frame`) and of the slot writes. -/
theorem renderKeepsWhatItOnlyReads : Obligations.RenderKeepsWhatItOnlyReads := by
  intro n s t h
  obtain ⟨v, v', ys, hv, -, hys, rfl⟩ := execRender_eq_next.1 h
  obtain ⟨hsr, hroutes, hft, hgt, hwave, hlfo, ha, hd, hsu, hr⟩ := renderSamples_frame hys
  exact ⟨v, v', hv, rfl, hft, hgt, ha, hd, hsu, hr, hwave, hlfo, hsr, hroutes, by simp, by simp, by simp⟩

end Sys2Proof.Machine
end

section
/-! PROOFS. The host's memory and the output buffer (spec 20 R72 to R76, R83). A slot is its word's four bytes, low byte
first; the slot writes of a render fill each slot once; a buffer that does not fit is refused; and no command looks at what
memory holds. -/

namespace Sys2Proof.Machine

/-! ## A slot is four bytes, low byte first (20 R72, 92 D21) -/

theorem wordByte_eq_extractLsb' (w : Word) (k : Nat) : wordByte w k = w.extractLsb' (8 * k) 8 := by
  apply BitVec.eq_of_toNat_eq
  rw [wordByte, BitVec.toNat_ofNat, BitVec.extractLsb'_toNat, Nat.shiftRight_eq_div_pow]

/-- Four bytes, low byte first, make a word exactly when they are its bytes. -/
theorem ofNat_bytes_eq_iff {b0 b1 b2 b3 : Byte} {w : Word} :
    BitVec.ofNat 32 (b0.toNat + 2 ^ 8 * b1.toNat + 2 ^ 16 * b2.toNat + 2 ^ 24 * b3.toNat) = w ↔
      b0 = wordByte w 0 ∧ b1 = wordByte w 1 ∧ b2 = wordByte w 2 ∧ b3 = wordByte w 3 := by
  simp only [BitVec.toNat_eq, wordByte, BitVec.toNat_ofNat, Nat.reducePow, Nat.reduceMul, Nat.div_one]
  omega

/-- A word is read exactly where its four bytes are. -/
theorem readWord_eq_some {m : Memory} {a : Nat} {w : Word} :
    readWord m a = some w ↔ ∀ k < 4, readByte m (a + k) = some (wordByte w k) := by
  have hbytes : (∀ k < 4, readByte m (a + k) = some (wordByte w k)) ↔
      readByte m a = some (wordByte w 0) ∧ readByte m (a + 1) = some (wordByte w 1) ∧
        readByte m (a + 2) = some (wordByte w 2) ∧ readByte m (a + 3) = some (wordByte w 3) := by
    constructor
    · intro h
      exact ⟨h 0 (by decide), h 1 (by decide), h 2 (by decide), h 3 (by decide)⟩
    · rintro ⟨h0, h1, h2, h3⟩ k hk
      interval_cases k <;> assumption
  rw [hbytes, readWord]
  split
  · rename_i b0 b1 b2 b3 h0 h1 h2 h3
    simp only [h0, h1, h2, h3, Option.some.injEq]
    exact ofNat_bytes_eq_iff
  · rename_i hnone
    simp only [reduceCtorEq, false_iff]
    rintro ⟨h0, h1, h2, h3⟩
    exact hnone _ _ _ _ h0 h1 h2 h3

/-- What a word is read as depends on its four bytes only. -/
theorem readWord_congr {m m' : Memory} {a : Nat} (h : ∀ k < 4, readByte m (a + k) = readByte m' (a + k)) :
    readWord m a = readWord m' a := by
  refine Option.ext fun w => ?_
  rw [readWord_eq_some, readWord_eq_some]
  exact forall₂_congr fun k hk => by rw [h k hk]

theorem readByte_writeWord_slot (m : Memory) (a : Nat) (w : Word) {k : Nat} (hk : k < 4) :
    readByte (writeWord m a w) (a + k) = some (wordByte w k) := by
  unfold writeWord
  interval_cases k
  · rw [readByte_writeByte_ne _ _ (by omega), readByte_writeByte_ne _ _ (by omega),
      readByte_writeByte_ne _ _ (by omega)]
    exact readByte_writeByte_same _ _ _
  · rw [readByte_writeByte_ne _ _ (by omega), readByte_writeByte_ne _ _ (by omega), readByte_writeByte_same]
  · rw [readByte_writeByte_ne _ _ (by omega), readByte_writeByte_same]
  · exact readByte_writeByte_same _ _ _

/-- A word is read back where it was written. -/
theorem readWord_writeWord_same (m : Memory) (a : Nat) (w : Word) : readWord (writeWord m a w) a = some w :=
  readWord_eq_some.2 fun _ hk => readByte_writeWord_slot m a w hk

/-- Settles O53: the bytes of `wordByte` are the word's bit fields, written and read in one order. -/
theorem slotsAreLittleEndian : Obligations.SlotsAreLittleEndian := by
  intro m base i w
  refine ⟨fun k hk => ?_, fun a ha => readByte_writeWord_outside m w ha, ?_⟩
  · rw [← wordByte_eq_extractLsb']
    exact readByte_writeWord_slot m _ w hk
  · simp only [← wordByte_eq_extractLsb']
    exact readWord_eq_some

/-! ## A render fills each slot once (20 R73, R75) -/

/-- After the slot writes each slot holds the pattern its sample was written with: the later writes go to later slots. -/
theorem readWord_writeAll (base i : Nat) (ys : List Word) (s : State) {k : Nat}
    (hk : k < (writtenPatterns s.nanDraws ys).length) :
    readWord (writeAll base i ys s).mem (slotAddress base (i + k)) = some (writtenPatterns s.nanDraws ys)[k] := by
  induction ys generalizing i s k with
  | nil => exact absurd hk (Nat.not_lt_zero k)
  | cons y ys ih =>
    cases k with
    | zero =>
      have hlater : ∀ j < 4, readByte (writeAll base i (y :: ys) s).mem (slotAddress base i + j) =
          readByte (s.outWrite base i y).mem (slotAddress base i + j) := fun j hj =>
        writeAll_readByte_outside base (i + 1) ys _ (.inl (by simp only [slotAddress]; omega))
      exact (readWord_congr hlater).trans (readWord_writeWord_same s.mem _ _)
    | succ k =>
      have hrest := ih (i + 1) (s.outWrite base i y) (k := k) (by simpa [writtenPatterns] using hk)
      rw [show i + 1 + k = i + (k + 1) by omega] at hrest
      exact hrest

/-- Settles O26: the entries of the history are the patterns the slots were written with. -/
theorem renderWritesEachSlotOnce : Obligations.RenderWritesEachSlotOnce := by
  intro n s t h
  obtain ⟨v, v', ys, -, -, hys, rfl⟩ := execRender_eq_next.1 h
  have hlen : ys.length = n.toNat := renderSamples_length hys
  refine ⟨writtenPatterns s.nanDraws ys, by rw [writtenPatterns_length, hlen], ?_, fun i hi => ?_, fun a ha => ?_⟩
  · exact render_history _ _ _
  · have hslot := readWord_writeAll s.buffer.base 0 ys s hi
    rwa [Nat.zero_add] at hslot
  · exact writeAll_readByte_outside _ _ _ _ (by simp only [slotAddress]; omega)

/-! ## Buffers that do not fit (20 R74, R76) -/

theorem bufferFits_eq_true {b : Buffer} {n : Nat} : bufferFits b n = true ↔ n ≤ b.len ∧ b.base % 4 = 0 := by
  simp [bufferFits]

/-- While Live a render whose buffer does not fit is refused before its loop begins. -/
theorem execRender_of_not_fits {n : Word} {s : State} {v : Voice} (hv : s.lc = .live v)
    (hb : ¬bufferFits s.buffer n.toNat = true) : execRender n s = s.refuse .bufferShort none none := by
  rw [execRender, whenLive_live hv]
  exact if_neg hb

/-- Settles O29: such a buffer fails the check that stands before the render loop. -/
theorem unfitBuffersAreRefused : Obligations.UnfitBuffersAreRefused := by
  intro n s v hv hunfit
  refine execRender_of_not_fits hv fun hfits => ?_
  obtain ⟨hlen, halign⟩ := bufferFits_eq_true.1 hfits
  rcases hunfit with hshort | hmisaligned
  · omega
  · exact hmisaligned halign

/-! ## Memory is never read (20 R83) -/

/-- The slot writes on another memory differ in memory only. -/
theorem writeAll_otherMem (base i : Nat) (ys : List Word) (s : State) (m : Memory) :
    ∃ m', writeAll base i ys { s with mem := m } = { writeAll base i ys s with mem := m' } := by
  induction ys generalizing i s m with
  | nil => exact ⟨m, rfl⟩
  | cons y ys ih => exact ih (i + 1) (s.outWrite base i y) _

theorem update_otherMem {s t : State} {f : Voice → Voice} (m : Memory) (h : s.update f = .next t) :
    ({ s with mem := m } : State).update f = .next { t with mem := m } := by
  obtain ⟨v, hv, rfl⟩ := update_eq_next.1 h
  exact update_eq_next.2 ⟨v, hv, rfl⟩

theorem execRender_otherMem {n : Word} {s t : State} (m : Memory) (h : execRender n s = .next t) :
    ∃ m', execRender n { s with mem := m } = .next { t with mem := m' } := by
  obtain ⟨v, v', ys, hv, hb, hys, rfl⟩ := execRender_eq_next.1 h
  obtain ⟨m', hm'⟩ := writeAll_otherMem s.buffer.base 0 ys s m
  refine ⟨m', execRender_eq_next.2 ⟨v, v', ys, hv, hb, hys, ?_⟩⟩
  exact congrArg (fun u => (u.withVoice v').endRender) hm'.symm

/-- Settles O35: each command asks for the lifecycle and its operands, a render for its buffer and the samples too, and
none of them for a byte of memory. -/
theorem buffersAreNeverRead : Obligations.BuffersAreNeverRead := by
  intro i s t m h
  cases i with
  | create sr =>
    obtain ⟨hsr, rfl⟩ := execCreate_eq_next.1 h
    exact ⟨m, execCreate_eq_next.2 ⟨hsr, rfl⟩⟩
  | render n => exact execRender_otherMem m h
  | setAdsr a d su r =>
    obtain ⟨v, e, hv, he, rfl⟩ := execSetAdsr_eq_next.1 h
    exact ⟨m, execSetAdsr_eq_next.2 ⟨v, e, hv, he, rfl⟩⟩
  | destroy =>
    obtain ⟨v, hv, rfl⟩ := execDestroy_eq_next.1 h
    exact ⟨m, execDestroy_eq_next.2 ⟨v, hv, rfl⟩⟩
  | setGain x => exact ⟨m, update_otherMem m h⟩
  | setFrequency x => exact ⟨m, update_otherMem m h⟩
  | noteOn => exact ⟨m, update_otherMem m h⟩
  | noteOff => exact ⟨m, update_otherMem m h⟩
  | setWaveform x => exact ⟨m, update_otherMem m h⟩
  | setLfoRate x => exact ⟨m, update_otherMem m h⟩

end Sys2Proof.Machine
end

section
/-! PROOFS. The encoding of the commands (spec 30 R100 to R114). The decoder answers a command exactly on that command's
words, so a stream has one parse; it accepts exactly the well-formed words; and each of its three refusals is the step's
refusal, whatever the lifecycle. -/

namespace Sys2Proof.Machine

/-! ## The words of a command and of a stream (30 R100 to R104, R111) -/

theorem decode_encode_append (i : Instr) (rest : List Word) : decode (encode i ++ rest) = .command i rest := by
  have h := decode_command (ws := operandWords i ++ rest) (i := i) (operandCount_encode i) (rsvField_commandWord i)
    (by simp) (by rw [List.take_left, instrOf_encode])
  rwa [List.drop_left] at h

theorem decode_encode (i : Instr) : decode (encode i) = .command i [] := by
  simpa using decode_encode_append i []

/-- A word without reserved bits is its opcode (30 R101). -/
theorem eq_commandWord {w : Word} {i : Instr} (hr : rsvField w = 0) (ho : opcField w = (commandWord i).toNat) :
    w = commandWord i := by
  apply BitVec.eq_of_toNat_eq
  rw [word_fields w, hr, ho, Nat.mul_zero, Nat.zero_add]

/-- The decoder answers a command exactly on that command's words (30 R111). -/
theorem decode_eq_command_iff {ws rest : List Word} {i : Instr} :
    decode ws = .command i rest ↔ ws = encode i ++ rest := by
  constructor
  · intro h
    cases ws with
    | nil => cases h
    | cons w ws =>
      obtain ⟨k, -, hr, -, hi, rfl⟩ := decode_eq_command h
      obtain ⟨ho, hops⟩ := instrOf_eq_some hi
      rw [eq_commandWord hr ho, encode, List.cons_append, ← hops, List.take_append_drop]
  · rintro rfl
    exact decode_encode_append i rest

theorem decodeAll_encodeAll (is : List Instr) : decodeAll is.length (encodeAll is) = some is := by
  induction is with
  | nil => rfl
  | cons i is ih => simp [decodeAll, encodeAll, decode_encode_append, ih]

theorem eq_encodeAll_of_decodeAll {n : Nat} {ws : List Word} {is : List Instr} (h : decodeAll n ws = some is) :
    ws = encodeAll is := by
  induction n generalizing ws is with
  | zero =>
    rw [decodeAll] at h
    split at h
    case h_1 hd => cases h; exact decode_eq_done.1 hd
    all_goals cases h
  | succ n ih =>
    rw [decodeAll] at h
    split at h
    case h_1 hd => cases h; exact decode_eq_done.1 hd
    case h_2 i rest hd =>
      obtain ⟨is', his, rfl⟩ := Option.map_eq_some_iff.1 h
      rw [encodeAll, ← ih his]
      exact decode_eq_command_iff.1 hd
    case h_3 => cases h

/-- Settles O1: the decoder answers a command exactly on its words, and a stream is such words one after another. -/
theorem commandStreamsParseUniquely : Obligations.CommandStreamsParseUniquely :=
  ⟨decode_encode_append, decodeAll_encodeAll, fun _ _ _ => eq_encodeAll_of_decodeAll⟩

/-! ## Which words are accepted (30 R105 to R108) -/

/-- `wordsWellFormed` speaks of the bits and the word count; here it stands in the terms of the decoder's own checks. -/
theorem wordsWellFormed_cons_iff {w : Word} {ws : List Word} :
    wordsWellFormed (w :: ws) = true ↔ ∃ k, operandCount (opcField w) = some k ∧ rsvField w = 0 ∧ k ≤ ws.length := by
  have ha : opcodeAssigned w = true ↔ (operandCount (opcField w)).isSome = true := by
    simp [opcodeAssigned, operandCount_isSome, opcField]
  have hr : reservedBitsZero w = true ↔ rsvField w = 0 := beq_iff_eq
  rw [wordsWellFormed, Bool.and_eq_true, Bool.and_eq_true, decide_eq_true_eq, ha, hr, List.length_cons,
    Option.isSome_iff_exists]
  constructor
  · rintro ⟨⟨⟨k, hk⟩, hr⟩, hl⟩
    rw [wordCount_eq hk] at hl
    exact ⟨k, hk, hr, Nat.le_of_succ_le_succ hl⟩
  · rintro ⟨k, hk, hr, hl⟩
    rw [wordCount_eq hk]
    exact ⟨⟨⟨k, hk⟩, hr⟩, Nat.succ_le_succ hl⟩

theorem exists_noOperand (i : Instr) {ops : List Word} (h : ops.length = 0) : ∃ j, noOperand i ops = some j := by
  match ops, h with
  | [], _ => exact ⟨i, rfl⟩

theorem exists_oneOperand (f : Word → Instr) {ops : List Word} (h : ops.length = 1) :
    ∃ j, oneOperand f ops = some j := by
  match ops, h with
  | [x], _ => exact ⟨f x, rfl⟩

theorem exists_fourOperands (f : Word → Word → Word → Word → Instr) {ops : List Word} (h : ops.length = 4) :
    ∃ j, fourOperands f ops = some j := by
  match ops, h with
  | [x, y, z, t], _ => exact ⟨f x y z t, rfl⟩

/-- Every assigned opcode with all its operand words has a row in the opcode map (30 R102). -/
theorem exists_instrOf {o k : Nat} {ops : List Word} (h : operandCount o = some k) (hl : ops.length = k) :
    ∃ i, instrOf o ops = some i := by
  subst hl
  match o, h with
  | 5, h | 6, h | 10, h => exact exists_noOperand _ (Option.some.inj h).symm
  | 7, h => exact exists_fourOperands _ (Option.some.inj h).symm
  | 1, h | 2, h | 3, h | 4, h | 8, h | 9, h => exact exists_oneOperand _ (Option.some.inj h).symm
  | 0, h => cases h
  | n + 11, h => cases h

/-- Settles O2: well-formed words give the opcode map its operand words, and the words left are those after them. -/
theorem decoderAcceptsExactlyWellFormedWords : Obligations.DecoderAcceptsExactlyWellFormedWords := by
  intro w ws
  refine ⟨wordsWellFormed_cons_iff.trans ⟨?_, ?_⟩, ?_⟩
  · rintro ⟨k, hk, hr, hl⟩
    obtain ⟨i, hi⟩ := exists_instrOf hk (List.length_take_of_le hl)
    exact ⟨i, ws.drop k, decode_command hk hr hl hi⟩
  · rintro ⟨i, rest, h⟩
    obtain ⟨k, hk, hr, hl, -, -⟩ := decode_eq_command h
    exact ⟨k, hk, hr, hl⟩
  · intro i rest h
    obtain ⟨k, hk, -, -, -, rfl⟩ := decode_eq_command h
    rw [wordCount_eq hk, List.drop_succ_cons]

/-- Settles O3: the ten commands' words are encodings (30 R114), and the two refused words have no row and a reserved
bit. -/
theorem specExampleWordsDecode : Obligations.SpecExampleWordsDecode :=
  ⟨decode_encode (.create 0x473B8000), decode_encode (.render 48000), decode_encode (.setGain 0x3F800000),
    decode_encode (.setFrequency 0x43DC0000), decode_encode .noteOn, decode_encode .noteOff,
    decode_encode (.setAdsr 0x3D800000 0x3D800000 0x3F000000 0x3D800000), decode_encode (.setWaveform 1),
    decode_encode (.setLfoRate 0), decode_encode .destroy, decode_reservedOpcode rfl,
    decode_reservedBits (k := 0) rfl (by decide)⟩

/-! ## The step refuses what the decoder refuses (30 R106 to R108) -/

/-- No lifecycle state is asked: the decoder's refusal is the step's (60 R264). -/
theorem step_of_decode_refuse {s : State} {e : DecodeError} (hs : s.refusal = none) (h : decode s.port = .refuse e) :
    step s = s.refuse (reasonOf e) none none := by
  simp only [step, hs, State.fetch, h]

theorem opcField_eq_extractLsb' (w : Word) : opcField w = (w.extractLsb' 0 8).toNat := by
  simp [opcField]

theorem rsvField_eq_extractLsb' (w : Word) : rsvField w = (w.extractLsb' 8 24).toNat := by
  rw [BitVec.extractLsb'_toNat, Nat.shiftRight_eq_div_pow, rsvField]
  omega

/-- The reserved opcodes of 30 R106, as bits 7:0 of the word. -/
theorem operandCount_eq_none_of_reserved {w : Word} (h : w.extractLsb' 0 8 = 0 ∨ 0x0B ≤ w.extractLsb' 0 8) :
    operandCount (opcField w) = none := by
  rw [operandCount_eq_none, opcField_eq_extractLsb']
  generalize w.extractLsb' 0 8 = o at h ⊢
  bv_omega

/-- The assigned opcodes of 30 R102, as bits 7:0 of the word. -/
theorem exists_operandCount_of_assigned {w : Word} (h : 0x01 ≤ w.extractLsb' 0 8 ∧ w.extractLsb' 0 8 ≤ 0x0A) :
    ∃ k, operandCount (opcField w) = some k := by
  rw [← Option.isSome_iff_exists, operandCount_isSome, opcField_eq_extractLsb']
  generalize w.extractLsb' 0 8 = o at h ⊢
  bv_omega

theorem rsvField_ne_zero_of_bits {w : Word} (h : w.extractLsb' 8 24 ≠ 0) : rsvField w ≠ 0 := by
  rw [rsvField_eq_extractLsb']
  exact fun h0 => h (BitVec.eq_of_toNat_eq h0)

/-- Settles O4: the opcode is looked at first, and a reserved one has no row. -/
theorem reservedOpcodeIsRefused : Obligations.ReservedOpcodeIsRefused := by
  intro s w ws hs hp ho
  have hd : decode s.port = .refuse .reservedOpcode :=
    hp ▸ decode_reservedOpcode (operandCount_eq_none_of_reserved ho)
  exact step_of_decode_refuse hs hd

/-- Settles O5: the reserved bits are looked at after the opcode has been found in the map. -/
theorem reservedBitsAreRefused : Obligations.ReservedBitsAreRefused := by
  intro s w ws hs hp hr
  refine ⟨fun ho => ?_, reservedOpcodeIsRefused s w ws hs hp⟩
  obtain ⟨k, hk⟩ := exists_operandCount_of_assigned ho
  exact step_of_decode_refuse (e := .reservedBits) hs (hp ▸ decode_reservedBits hk (rsvField_ne_zero_of_bits hr))

/-- A proper nonempty beginning of a command's words has its command word and too few operand words (30 R108). -/
theorem decode_take_encode {i : Instr} {k : Nat} (h0 : 0 < k) (hk : k < (encode i).length) :
    decode ((encode i).take k) = .refuse .truncated := by
  obtain ⟨j, rfl⟩ := Nat.exists_eq_add_one.2 h0
  have hj : j < (operandWords i).length := Nat.lt_of_succ_lt_succ hk
  refine decode_truncated (operandCount_encode i) (rsvField_commandWord i) ?_
  rwa [List.length_take_of_le hj.le]

/-- Settles O6: the decoder finds the words too few, and the step refuses before it asks for the lifecycle. -/
theorem truncatedCommandIsRefused : Obligations.TruncatedCommandIsRefused := by
  intro s i k hs h0 hk hp
  exact step_of_decode_refuse (e := .truncated) hs (hp ▸ decode_take_encode h0 hk)

end Sys2Proof.Machine
end

section
/-! PROOFS. The parameter smoother (spec 40 R130, R133). A step adds to the current value the rounded product of the rounded
difference with K_SMOOTH. A rounded value is at most twice the exact one and K_SMOOTH is below 1/4, so the two roundings keep
that product between zero and the exact difference. -/

namespace Sys2Proof.Machine

/-! ## The coefficient K_SMOOTH (10 R49) and the change it makes -/

@[simp] theorem signBit_kSmooth : signBit kSmooth = false := by decide

@[simp] theorem isZero_kSmooth : isZero kSmooth = false := by decide

theorem units_kSmooth : units kSmooth = 8589935 * 2 ^ 116 := by decide +kernel

/-- What a smoothing step adds to the current value: `d * c` of 40 R130. -/
def smoothChange (p : Smoothed) (c : Word) : Word := fmul (fsub p.target p.current) c

theorem smooth_current (p : Smoothed) (c : Word) : (smooth p c).current = fadd p.current (smoothChange p c) := rfl

/-! ## A parameter at its target (40 R130 (a)) -/

/-- Adding a zero keeps a value that is no zero; two zeros that are not both `-0` give `+0`. -/
theorem fadd_zero_of_sign {a b : Word} (ha : isFinite a = true) (hb : isZero b = true)
    (hs : (signBit a && signBit b) = false) : fadd a b = if isZero a then plusZero else a := by
  cases hz : isZero a
  · exact fadd_zero_right ha hz hb
  · rw [fadd_zeros hz hb, hs]; rfl

/-- What equals a finite value is finite. -/
theorem isFinite_of_feq {a b : Word} (ha : isFinite a = true) (h : feq a b = true) : isFinite b = true :=
  have hu := (feq_iff.1 h).2.2
  isFinite_of_bounds ha ha hu.le hu.ge

/-- The change at the target is a zero, and it is `-0` only where the current value is `+0`. -/
theorem smoothChange_of_settled {p : Smoothed} (hc : isFinite p.current = true) (ht : isFinite p.target = true)
    (h : units p.current = units p.target) :
    isZero (smoothChange p kSmooth) = true ∧ (signBit p.current && signBit (smoothChange p kSmooth)) = false := by
  have hd := fsub_isZero ht hc h.symm
  refine ⟨fmul_isZero_left hd isFinite_kSmooth, ?_⟩
  rw [smoothChange, signBit_fmul (isZero_isFinite hd) isFinite_kSmooth, fsub_self_sign ht hc h.symm, signBit_kSmooth]
  cases signBit p.current <;> simp

/-- Settles O36: a change of zero is added, never `-0` to `-0`. -/
theorem smoothingHoldsSettledParameters : Obligations.SmoothingHoldsSettledParameters := by
  intro p hc heq
  obtain ⟨hzero, hsign⟩ := smoothChange_of_settled hc (isFinite_of_feq hc heq) (feq_iff.1 heq).2.2
  exact congrArg (Smoothed.mk · p.target plusZero) (fadd_zero_of_sign hc hzero hsign)

/-! ## Infinities and NaNs (40 R130 (b), (c)) -/

theorem fmul_kSmooth_of_isInf {a : Word} (ha : isInf a = true) : fmul a kSmooth = a := by
  have hn : isNaN (fmul a kSmooth) = false :=
    not_isNaN_fmul.2 ⟨isInf_not_isNaN ha, by decide, fun _ => ⟨isInf_not_isZero ha, isZero_kSmooth⟩⟩
  rw [fmul_of_isInf (.inl ha) hn, signBit_kSmooth, Bool.bne_false, ← isInf_iff.1 ha, pack_parts]

/-- The difference is a NaN, or it is the negated infinity and so is the change. -/
theorem isNaN_smooth_of_isInf_current {p : Smoothed} (h : isInf p.current = true) :
    isNaN (smooth p kSmooth).current = true := by
  have hneg : isInf (fneg p.current) = true := by simpa using h
  rw [smooth_current, smoothChange, isNaN_fadd, isNaN_fmul]
  cases hd : isNaN (fsub p.target p.current)
  · have hdiff : fsub p.target p.current = fneg p.current := fadd_of_isInf_right hneg hd
    rw [hdiff, fmul_kSmooth_of_isInf hneg]
    exact .inr (.inr ⟨h, hneg, by simp⟩)
  · exact .inr (.inl (.inl rfl))

/-- Settles O38: a NaN goes through the difference and the product to the sum; an infinite target is the difference, the
product and the sum. -/
theorem smoothingOfNonFiniteParameters : Obligations.SmoothingOfNonFiniteParameters := by
  intro p
  refine ⟨fun h => ?_, isNaN_smooth_of_isInf_current, fun hc ht => ?_⟩
  · rw [smooth_current, smoothChange, isNaN_fadd, isNaN_fmul, isNaN_fsub]
    rcases h with hc | ht
    · exact .inl hc
    · exact .inr (.inl (.inl (.inl ht)))
  · have hnt := isInf_not_isNaN ht
    have hdiff : fsub p.target p.current = p.target := fadd_inf_left ht hnt (by simpa using hc)
    rw [smooth_current, smoothChange, hdiff, fmul_kSmooth_of_isInf ht, fadd_inf_right hc ht hnt]

/-! ## A step moves toward the target and not past it (40 R133) -/

/-- Zero is a binary32, so what is nearest to an exact value lies between zero and twice that value. -/
theorem NearestEven.bounds {r : Word} {num den : Int} (h : NearestEven r num den) :
    (0 ≤ num → 0 ≤ units r * den ∧ units r * den ≤ 2 * num) ∧
      (num ≤ 0 → 2 * num ≤ units r * den ∧ units r * den ≤ 0) := by
  have hzero := (h plusZero isFinite_plusZero).1
  rw [units_plusZero, zero_mul, zero_sub, abs_neg] at hzero
  refine ⟨fun h0 => ?_, fun h0 => ?_⟩
  · rw [abs_of_nonneg h0, abs_le] at hzero
    omega
  · rw [abs_of_nonpos h0, abs_le] at hzero
    omega

theorem nearestEven_fsub {a b : Word} (ha : isFinite a = true) (hb : isFinite b = true) (h : isFinite (fsub a b) = true) :
    NearestEven (fsub a b) (units a - units b) 1 := by
  have hnear := nearestEven_fadd ha (b := fneg b) (by simpa using hb) h
  rwa [units_fneg] at hnear

theorem abs_units_lt {x : Word} (h : isFinite x = true) : |units x| < 2 ^ 277 := by
  have hlt := magUnits_lt_iff.2 (isFinite_iff.1 h)
  rw [magUnits_infMag, ← natAbs_units] at hlt
  rw [Int.abs_eq_natAbs]
  exact_mod_cast hlt

theorem isFinite_fmul_kSmooth {a : Word} (ha : isFinite a = true) : isFinite (fmul a kSmooth) = true := by
  have hlt := abs_units_lt ha
  rw [fmul_finite_iff ha isFinite_kSmooth, units_kSmooth, abs_mul, abs_of_pos (a := 8589935 * 2 ^ 116) (by norm_num)]
  omega

/-- The change of a smoothing step lies between zero and the exact difference. -/
theorem smoothChange_bounds {p : Smoothed} (hc : isFinite p.current = true) (ht : isFinite p.target = true)
    (hd : isFinite (fsub p.target p.current) = true) :
    (units p.current ≤ units p.target →
      0 ≤ units (smoothChange p kSmooth) ∧ units (smoothChange p kSmooth) ≤ units p.target - units p.current) ∧
    (units p.target ≤ units p.current →
      units p.target - units p.current ≤ units (smoothChange p kSmooth) ∧ units (smoothChange p kSmooth) ≤ 0) := by
  have hdiff := (nearestEven_fsub ht hc hd).bounds
  have hprod := (nearestEven_fmul hd isFinite_kSmooth (isFinite_fmul_kSmooth hd)).bounds
  rw [← smoothChange, units_kSmooth] at hprod
  omega

/-- Settles O37: rounding is monotone, so the sum of the current value and a change toward the target is between the two. -/
theorem smoothingNeverPassesTheTarget : Obligations.SmoothingNeverPassesTheTarget := by
  intro p hc ht hd
  have hm : isFinite (smoothChange p kSmooth) = true := isFinite_fmul_kSmooth hd
  have hnc := isFinite_not_isNaN hc
  have hnt := isFinite_not_isNaN ht
  have hns := fadd_not_isNaN hc hm
  obtain ⟨hup, hdown⟩ := smoothChange_bounds hc ht hd
  simp only [smooth_current, fle_iff, hnc, hnt, hns, true_and]
  refine ⟨fun hle => ?_, fun hle => ?_⟩
  · obtain ⟨hlo, hhi⟩ := hup hle
    exact ⟨le_fadd hc hm hnc (by omega), fadd_le hc hm hnt (by omega)⟩
  · obtain ⟨hlo, hhi⟩ := hdown hle
    exact ⟨le_fadd hc hm hnt (by omega), fadd_le hc hm hnc (by omega)⟩

end Sys2Proof.Machine
end

section
/-! PROOFS. The envelope (spec 41): the transition table of its advance, and the Release that a sustain of zero never ends. -/

namespace Sys2Proof.Machine

/-! ## The transition table (41 R141 to R145) -/

section
variable {e : Envelope} (sr : Word)

theorem envAdvance_of_idle (h : e.stage = .idle) : envAdvance sr e = advanceIdle e := by rw [envAdvance, h]

theorem envAdvance_of_attack (h : e.stage = .attack) : envAdvance sr e = advanceAttack sr e := by rw [envAdvance, h]

theorem envAdvance_of_decay (h : e.stage = .decay) : envAdvance sr e = advanceDecay sr e := by rw [envAdvance, h]

theorem envAdvance_of_sustain (h : e.stage = .sustain) : envAdvance sr e = advanceSustain e := by rw [envAdvance, h]

theorem envAdvance_of_release (h : e.stage = .release) : envAdvance sr e = advanceRelease sr e := by rw [envAdvance, h]

end

/-- Settles O39: each stage runs its own rule, and the rule's comparison decides whether the stage ends. -/
theorem envelopeFollowsTheTransitionTable : Obligations.EnvelopeFollowsTheTransitionTable := by
  intro sr e
  refine ⟨envAdvance_of_idle sr, fun h => ?_, fun h => ?_, envAdvance_of_sustain sr, fun h => ?_⟩
  · rw [envAdvance_of_attack sr h]
    exact ⟨fun hend => if_pos hend, fun hgo => if_neg (ne_true_of_eq_false hgo)⟩
  · rw [envAdvance_of_decay sr h]
    exact ⟨fun hend => if_pos hend, fun hgo => if_neg (ne_true_of_eq_false hgo)⟩
  · rw [envAdvance_of_release sr h]
    exact ⟨fun hend => if_pos hend, fun hgo => if_neg (ne_true_of_eq_false hgo)⟩

/-! ## A Release with sustain 0 (41 R154) -/

/-- Subtracting a zero keeps a value that is no zero. -/
theorem fsub_zero_right {a b : Word} (ha : isFinite a = true) (hz : isZero a = false) (hb : isZero b = true) :
    fsub a b = a :=
  fadd_zero_right ha hz (by simpa using hb)

/-- A positive value is no zero, and it is not at or below zero. -/
theorem pos_facts {x : Word} (h : flt 0 x = true) : isZero x = false ∧ fle x 0 = false := by
  obtain ⟨-, -, hlt⟩ := flt_iff.1 h
  have hpos : 0 < units x := units_plusZero ▸ hlt
  rw [← Bool.not_eq_true, ← Bool.not_eq_true, isZero_iff, fle_iff]
  exact ⟨hpos.ne', fun ⟨_, _, hle⟩ => hlt.not_ge hle⟩

/-- The decrement is a zero over a number, so one advance leaves the envelope as it is. -/
theorem envAdvance_release_zero_sustain {sr : Word} {e : Envelope} (hst : e.stage = .release)
    (hsu : isZero e.sustain = true) (hn : isNaN (fmul e.release sr) = false) (hz : isZero (fmul e.release sr) = false)
    (hv : isFinite e.value = true) (hpos : flt 0 e.value = true) : envAdvance sr e = e := by
  obtain ⟨hnz, hgo⟩ := pos_facts hpos
  have hrest : fsub e.value (fdiv e.sustain (fmul e.release sr)) = e.value :=
    fsub_zero_right hv hnz (fdiv_isZero hsu hn hz)
  obtain ⟨-, -, -, -, hrel⟩ := envelopeFollowsTheTransitionTable sr e
  have hgoes := (hrel hst).2
  simp only [hrest] at hgoes
  exact hgoes hgo

/-- Settles O41: the envelope is a fixed point of the advance. -/
theorem releaseWithZeroSustainNeverEnds : Obligations.ReleaseWithZeroSustainNeverEnds := by
  intro sr e n hst hsu hn hz hv hpos
  exact Function.iterate_fixed (envAdvance_release_zero_sustain hst hsu hn hz hv hpos) n

end Sys2Proof.Machine
end

section
/-! PROOFS. The phase (spec 42 R176 to R181): which commands leave it alone, the wrap of every sum in both modes, and the advance
in the normal domain and from a NaN. -/

namespace Sys2Proof.Machine

/-! ## The phases under the other commands (42 R180, 43 R192) -/

/-- Settles O23: of the commands that leave a block Live, only create and render are no setter, and no setter writes a phase. -/
theorem phasesMoveOnlyInRender : Obligations.PhasesMoveOnlyInRender := by
  refine ⟨fun i s t v v' hrender hcreate h hv hv' => ?_, fun sr s t h => ?_⟩
  · rcases exec_live_cases h hv' with ⟨sr, rfl, -⟩ | ⟨w, hw, ⟨n, ys, rfl, -⟩ | hset⟩
    · exact absurd rfl (hcreate sr)
    · exact absurd rfl (hrender n)
    · obtain rfl : w = v := Lifecycle.live.inj (hw.symm.trans hv)
      obtain ⟨-, -, hosc, hlfo⟩ := hset.frame
      exact ⟨hosc, hlfo⟩
  · obtain ⟨-, rfl⟩ := execCreate_eq_next.1 h
    exact ⟨initialVoice sr, rfl, rfl, rfl⟩

/-! ## The wrap (42 R177, R178) -/

/-- On a sum in [0, 2) either mode is the one subtraction. -/
theorem wrapIn_of_modeFree {p : Word} (mode : WrapMode) (h : modeFree p = true) : wrapIn mode p = wrapOnce p := by
  cases mode with
  | reduce => exact wrapReduce_eq_wrapOnce h
  | subtractOnce => rfl

theorem wrapOnce_of_lt_one {p : Word} (h : flt p one = true) : wrapOnce p = p := by
  obtain ⟨-, -, hlt⟩ := flt_iff.1 h
  have hge : ¬ fge p one = true := fun hge => by
    obtain ⟨-, -, hle⟩ := fle_iff.1 hge
    exact hlt.not_ge hle
  rw [wrapOnce, if_neg hge]

/-- The one subtraction is exact on [1, 2) and lands in [0, 1). -/
theorem wrapOnce_of_one_le {p : Word} (h1 : fle one p = true) (h2 : flt p two = true) :
    units (wrapOnce p) = units p - units one ∧ inCycle (wrapOnce p) = true := by
  obtain ⟨-, -, hle⟩ := fle_iff.1 h1
  obtain ⟨-, -, hlt⟩ := flt_iff.1 h2
  have hf : isFinite p = true := isFinite_of_bounds isFinite_one isFinite_two hle hlt.le
  rw [units_one] at hle
  rw [units_two] at hlt
  obtain ⟨hnr, hr⟩ := fsub_one_range hf hle hlt
  rw [wrapOnce, if_pos (show fge p one = true from h1), units_one]
  exact ⟨hr, inCycle_iff.2 ⟨hnr, by omega⟩⟩

/-- Settles O44: both modes are the one subtraction there, which below 1.0 does nothing. -/
theorem wrapModesAgreeInTheNormalDomain : Obligations.WrapModesAgreeInTheNormalDomain := by
  intro p mode h0 h2
  obtain ⟨-, hn, hnonneg⟩ := fle_iff.1 h0
  obtain ⟨-, -, hlt⟩ := flt_iff.1 h2
  have hfree : modeFree p = true := (modeFree_iff hn).2 ⟨hnonneg, units_two ▸ hlt⟩
  rw [wrap_eq_wrapIn, wrapIn_of_modeFree _ hfree, wrapIn_of_modeFree _ hfree]
  refine ⟨rfl, ?_, wrapOnce_of_lt_one, fun h1 => (wrapOnce_of_one_le h1 h2).1⟩
  cases h1 : fle one p
  · have hone : flt p one = true := flt_iff.2 ⟨hn, isNaN_one, fle_false_of isNaN_one hn h1⟩
    rw [wrapOnce_of_lt_one hone, inCycle, hone, Bool.and_true]
    exact h0
  · exact (wrapOnce_of_one_le h1 h2).2

/-- From 1.0 on the sum less its floor is exact: the sum is a multiple of 2^-23, and so is the rest below 1.0. -/
theorem units_fsub_ffloor_of_one_le {p : Word} (hf : isFinite p = true) (h1 : fle one p = true) :
    units (fsub p (ffloor p)) = units p % 2 ^ 149 := by
  obtain ⟨-, -, hle⟩ := fle_iff.1 h1
  rw [units_one] at hle
  have hmag : (magUnits (magBits p) : Int) = units p := magUnits_of_pos (by omega)
  obtain ⟨-, hfloor⟩ := units_ffloor hf
  have hrest : units p - units (ffloor p) = units p % 2 ^ 149 := by omega
  have hdvd : (2 ^ 126 : Int) ∣ units p := by
    rw [← hmag]
    exact_mod_cast dvd_magUnits (s := 126) (by omega)
  obtain ⟨c, hc, hunits⟩ := exists_units (k := units p % 2 ^ 149 / 2 ^ 126) (s := 126) (by omega) (by norm_num)
  rw [fsub_finite hf (isFinite_ffloor hf), hrest]
  exact (units_roundInt_of_eq hc (by omega)).trans (by omega)

/-- A finite value less its floor is at most 1.0, which it reaches by rounding only. -/
theorem isFinite_fsub_ffloor {p : Word} (h : isFinite p = true) : isFinite (fsub p (ffloor p)) = true := by
  obtain ⟨-, hfloor⟩ := units_ffloor h
  obtain ⟨-, hlo⟩ := fsub_ffloor_nonneg h
  have hhi : units (fsub p (ffloor p)) ≤ units one :=
    fsub_le h (isFinite_ffloor h) isNaN_one (by rw [hfloor, units_one]; omega)
  exact isFinite_of_bounds isFinite_plusZero isFinite_one (units_plusZero ▸ hlo) hhi

/-- The difference to the floor is the binary32 nearest to the exact rest. -/
theorem nearestEven_fsub_ffloor {p : Word} (h : isFinite p = true) :
    NearestEven (fsub p (ffloor p)) (units p % 2 ^ 149) 1 := by
  obtain ⟨-, hfloor⟩ := units_ffloor h
  have hnear := nearestEven_fsub h (isFinite_ffloor h) (isFinite_fsub_ffloor h)
  rwa [hfloor, show units p - units p / 2 ^ 149 * 2 ^ 149 = units p % 2 ^ 149 by omega] at hnear

/-- Outside [0, 1) the reducing wrap is the difference to the floor, or +0 where that is 1.0. -/
theorem wrapReduce_of_outside {p : Word} (h : fle one p = true ∨ flt p plusZero = true) :
    wrapReduce p = if fle one (fsub p (ffloor p)) then plusZero else fsub p (ffloor p) :=
  if_pos (by simpa [fge] using h)

/-- Settles O43: from 1.0 on the difference to the floor is exact, so it is below 1.0 and is not replaced. -/
theorem reduceWrapsIntoTheCycle : Obligations.ReduceWrapsIntoTheCycle := by
  intro p
  refine ⟨inCycle_wrapReduce, fun hf h1 => ?_, fun hf h0 => ⟨wrapReduce_of_outside (.inr h0), fun w hw => ?_⟩,
    isNaN_wrapReduce, rfl, wrap_eq_wrapIn p⟩
  · have hrest := units_fsub_ffloor_of_one_le hf h1
    have hlt : ¬ fle one (fsub p (ffloor p)) = true := fun hle => by
      obtain ⟨-, -, hle⟩ := fle_iff.1 hle
      rw [hrest, units_one] at hle
      omega
    rw [wrapIn, wrapReduce_of_outside (.inl h1), if_neg hlt, hrest]
  · simpa only [mul_one] using (nearestEven_fsub_ffloor hf w hw).1

/-! ## The advance in the normal domain (42 R178) -/

/-- Two neighbouring magnitudes are apart by at least 2^-24 of the larger. -/
theorem magUnits_mul_le_of_lt {m n : Nat} (h : m < n) : magUnits m * 2 ^ 24 ≤ magUnits n * (2 ^ 24 - 1) := by
  have hnext : magUnits m * 2 ^ 24 ≤ magUnits (m + 1) * (2 ^ 24 - 1) := by
    rcases mag_cases m with hm | ⟨e, f, hf, rfl⟩
    · have hsucc := magUnits_scaled 0 (m + 1) (.inl rfl) (by omega)
      rw [zero_mul, zero_add, pow_zero, mul_one] at hsucc
      rw [magUnits_small hm, hsucc]
      omega
    · have hsucc := magUnits_scaled e (2 ^ 23 + f + 1) (.inr (by omega)) (by omega)
      rw [show e * 2 ^ 23 + (2 ^ 23 + f + 1) = (e + 1) * 2 ^ 23 + f + 1 by omega] at hsucc
      rw [magUnits_block e f hf, hsucc, mul_right_comm, mul_right_comm _ (2 ^ e)]
      exact Nat.mul_le_mul_right _ (by omega)
  exact hnext.trans (Nat.mul_le_mul_right _ (magUnits_le_iff.2 h))

/-- The largest phase: 1 - 2^-24. -/
def lastPhase : Word := 0x3F7FFFFF

theorem isNaN_lastPhase : isNaN lastPhase = false := by decide

theorem units_lastPhase : units lastPhase = (2 ^ 24 - 1) * 2 ^ 125 := by decide +kernel

theorem units_le_lastPhase {x : Word} (h : inCycle x = true) : units x ≤ units lastPhase := by
  obtain ⟨-, -, hlt⟩ := inCycle_iff.1 h
  rw [← units_one, units_lt_iff] at hlt
  rw [units_le_iff]
  have hone : orderKey one = orderKey lastPhase + 1 := by decide
  omega

/-- A rate from 0 below the sample rate is an increment in [0, 1): the quotient is at most 1 - 2^-24, a binary32. -/
theorem inCycle_increment {freq sr : Word} (h : normalRate freq sr = true) : inCycle (fdiv freq sr) = true := by
  obtain ⟨h0, hlt⟩ : fle plusZero freq = true ∧ flt freq sr = true := by simpa [normalRate] using h
  obtain ⟨-, -, hnonneg⟩ := fle_iff.1 h0
  obtain ⟨-, hns, hlt⟩ := flt_iff.1 hlt
  rw [units_plusZero] at hnonneg
  have hpos : 0 < units sr := hnonneg.trans_lt hlt
  have hsr : (magUnits (magBits sr) : Int) = units sr := magUnits_of_pos hpos
  have hfreq : (magUnits (magBits freq) : Int) = units freq := by
    rw [← natAbs_units, Int.natAbs_of_nonneg hnonneg]
  have hmag : magBits freq < magBits sr := magUnits_lt_iff.1 (by omega)
  have hff : isFinite freq = true := isFinite_iff.2 (hmag.trans_le (isNaN_eq_false.1 hns))
  rcases isInf_or_isFinite hns with hinf | hfs
  · rw [fdiv_of_isInf_right hff hinf]
    cases signBit freq != signBit sr <;> decide
  · have hratio := magUnits_mul_le_of_lt hmag
    have hle : units (fdiv freq sr) ≤ units lastPhase :=
      fdiv_le hff hfs hpos isNaN_lastPhase (by rw [units_lastPhase]; omega)
    have hge : units plusZero ≤ units (fdiv freq sr) :=
      le_fdiv hff hfs hpos isNaN_plusZero (by rw [units_plusZero]; omega)
    have hn := fdiv_not_isNaN hff hfs (by rw [← Bool.not_eq_true, isZero_iff]; exact hpos.ne')
    rw [units_lastPhase] at hle
    rw [units_plusZero] at hge
    exact inCycle_iff.2 ⟨hn, hge, by omega⟩

/-- The binary32 before 2.0: 2 - 2^-23. -/
def beforeTwo : Word := 0x3FFFFFFF

theorem isFinite_beforeTwo : isFinite beforeTwo = true := by decide

theorem units_beforeTwo : units beforeTwo = (2 ^ 24 - 1) * 2 ^ 126 := by decide +kernel

/-- A sum of two values in [0, 1) is in [0, 2): it does not pass 2 - 2^-23, a binary32. -/
theorem fadd_inCycle {a b : Word} (ha : inCycle a = true) (hb : inCycle b = true) :
    fle plusZero (fadd a b) = true ∧ flt (fadd a b) two = true := by
  obtain ⟨-, ha0, -⟩ := inCycle_iff.1 ha
  obtain ⟨-, hb0, -⟩ := inCycle_iff.1 hb
  have hfa := inCycle_isFinite ha
  have hfb := inCycle_isFinite hb
  have hlast := Int.add_le_add (units_le_lastPhase ha) (units_le_lastPhase hb)
  rw [units_lastPhase] at hlast
  have hn := fadd_not_isNaN hfa hfb
  have hge : units plusZero ≤ units (fadd a b) :=
    le_fadd hfa hfb isNaN_plusZero (by rw [units_plusZero]; omega)
  have hle : units (fadd a b) ≤ units beforeTwo :=
    fadd_le hfa hfb (isFinite_not_isNaN isFinite_beforeTwo) (by rw [units_beforeTwo]; omega)
  rw [units_beforeTwo] at hle
  exact ⟨fle_iff.2 ⟨isNaN_plusZero, hn, hge⟩, flt_iff.2 ⟨hn, isNaN_two, by rw [units_two]; omega⟩⟩

/-- Settles O45: the sum of the phase and its increment is in [0, 2), where either wrap comes into [0, 1). -/
theorem normalDomainKeepsThePhaseInTheCycle : Obligations.NormalDomainKeepsThePhaseInTheCycle := by
  intro phase freq sr hphase hrate
  obtain ⟨h0, h2⟩ := fadd_inCycle hphase (inCycle_increment hrate)
  obtain ⟨heq, hin, -⟩ := wrapModesAgreeInTheNormalDomain _ .reduce h0 h2
  rw [advancePhase, heq]
  exact hin

/-! ## The advance from a NaN (42 R181) -/

/-- No comparison holds of a NaN, so the wrap leaves it as it is, in either mode (42 R177 (e)). -/
theorem wrap_of_isNaN {p : Word} (h : isNaN p = true) : wrap p = p := by
  have hlt : flt p plusZero = false := by simp [flt, h]
  have hge (c : Word) : fge p c = false := by simp [fge, fle, h]
  simp [wrap, modeFree, wrapOnce, hlt, hge]

theorem isNaN_advancePhase {phase : Word} (freq sr : Word) (h : isNaN phase = true) :
    isNaN (advancePhase phase freq sr) = true := by
  have hsum : isNaN (fadd phase (fdiv freq sr)) = true := isNaN_fadd.2 (.inl h)
  rw [advancePhase, wrap_of_isNaN hsum, hsum]

end Sys2Proof.Machine
end

section
/-! PROOFS. The waveforms (spec 42 R170 to R175): the sample each gives for a NaN phase, for every other, and its bound for a phase
in [0, 1). -/

namespace Sys2Proof.Machine

/-! ## The samples, waveform by waveform (42 R170) -/

section
variable {o : Oscillator}

theorem oscSample_of_sine (h : o.waveform = .sine) : oscSample o = sineWave o.phase := by rw [oscSample, h]

theorem oscSample_of_square (h : o.waveform = .square) : oscSample o = squareWave o.phase := by rw [oscSample, h]

theorem oscSample_of_triangle (h : o.waveform = .triangle) : oscSample o = triangleWave o.phase := by rw [oscSample, h]

theorem oscSample_of_saw (h : o.waveform = .saw) : oscSample o = sawWave o.phase := by rw [oscSample, h]

end

/-! ## The samples at a NaN phase (42 R172 (c), R181) -/

theorem squareWave_of_isNaN {p : Word} (h : isNaN p = true) : squareWave p = kSqLo := by
  simp [squareWave, flt, h]

theorem isNaN_triangleWave {p : Word} (h : isNaN p = true) : isNaN (triangleWave p) = true := by
  have hdist : isNaN (fabs (fsub p half)) = true := (isNaN_fabs _).trans (isNaN_fsub.2 (.inl h))
  have hscaled : isNaN (fmul four (fabs (fsub p half))) = true := isNaN_fmul.2 (.inr (.inl hdist))
  exact isNaN_fmul.2 (.inl (isNaN_fsub.2 (.inr (.inl hscaled))))

theorem isNaN_sawWave {p : Word} (h : isNaN p = true) : isNaN (sawWave p) = true := by
  have hscaled : isNaN (fmul two p) = true := isNaN_fmul.2 (.inr (.inl h))
  exact isNaN_fmul.2 (.inl (isNaN_fsub.2 (.inl hscaled)))

/-- Settles O46: a NaN goes through every operation of the advance and of three waveforms; Square only compares it. -/
theorem nanPhaseStaysNaN : Obligations.NaNPhaseStaysNaN := by
  intro o freq sr h
  refine ⟨isNaN_advancePhase freq sr h, fun hw => ?_, fun hw => ?_⟩
  · rw [oscSample_of_square hw, squareWave_of_isNaN h]; rfl
  · cases hwave : o.waveform with
    | sine => rw [oscSample_of_sine hwave]; exact sineWave_nan (isNaN_not_isFinite h)
    | square => exact absurd hwave hw
    | triangle => rw [oscSample_of_triangle hwave]; exact isNaN_triangleWave h
    | saw => rw [oscSample_of_saw hwave]; exact isNaN_sawWave h

/-! ## What the samples are (42 R171 to R174) -/

/-- The phases below 0.5, by pattern: every negative one, and no NaN (42 R172). -/
theorem flt_half_iff (p : Word) :
    flt p half = true ↔ p ≤ 0x3EFFFFFF ∨ (0x80000000 ≤ p ∧ p ≤ 0xFF800000) := by
  have hhalf : orderKey half = 0x3F000000 ∧ isNaN half = false := by decide
  have hpat := toNat_eq p
  have hmag := magBits_lt p
  simp only [flt, hhalf, Bool.and_eq_true, Bool.not_eq_true', isNaN_eq_false, infMag, decide_eq_true_eq, and_true]
  unfold orderKey
  cases hs : signBit p <;> simp only [hs, Bool.false_eq_true, if_false, if_true] at * <;> bv_omega

theorem squareWave_of_low {p : Word} (h : p ≤ 0x3EFFFFFF ∨ (0x80000000 ≤ p ∧ p ≤ 0xFF800000)) :
    squareWave p = kSqHi := if_pos ((flt_half_iff p).2 h)

theorem squareWave_of_high {p : Word} (h : (0x3F000000 ≤ p ∧ p < 0x80000000) ∨ 0xFF800000 < p) :
    squareWave p = kSqLo := by
  refine if_neg fun hlt => ?_
  have hlow := (flt_half_iff p).1 hlt
  bv_omega

/-- 0.5 less a phase up to 2^-26 is 0.5: at 2^-26 it is midway to the value below, and the tie goes to the even 0.5. -/
theorem fsub_half_of_tiny {p : Word} (h : p ≤ 0x32800000) : fsub p half = fneg half := by
  have hle : p.toNat ≤ 0x32800000 := h
  have hsign : signBit p = false := by simp only [signBit, decide_eq_false_iff_not]; omega
  have hmag : magBits p = p.toNat := Nat.mod_eq_of_lt (by omega)
  have hf : isFinite p = true := by rw [isFinite_iff, hmag, infMag]; omega
  have htiny : magUnits 0x32800000 = 2 ^ 123 := by decide +kernel
  have hhalf : magUnits 0x3F000000 = 2 ^ 148 := by decide +kernel
  have hunits : units p = magUnits p.toNat := by simp [units, hsign, hmag]
  have hsmall : magUnits p.toNat ≤ 2 ^ 123 := htiny ▸ magUnits_le_iff.2 hle
  have hround : roundMag (2 ^ 148 - magUnits p.toNat) 1 = 0x3F000000 := by
    have htie : roundMag (2 ^ 148 - 2 ^ 123) 1 = 0x3F000000 := by decide +kernel
    refine le_antisymm (roundMag_le one_pos (by omega)) ?_
    rw [← htie]
    exact roundMag_mono one_pos one_pos (by omega)
  have habs : (units p - units half).natAbs = 2 ^ 148 - magUnits p.toNat := by rw [hunits, units_half]; omega
  have hneg : units p - units half < 0 := by rw [hunits, units_half]; omega
  rw [fsub_finite hf isFinite_half, roundInt, habs, hround, if_neg hneg.ne, decide_eq_true hneg]
  rfl

theorem triangleWave_of_tiny {p : Word} (h : p ≤ 0x32800000) : triangleWave p = 0xBF9CC2F8 := by
  rw [triangleWave, fsub_half_of_tiny h]
  decide +kernel

/-! ## The bounds of the samples (42 R175) -/

section
variable {a b c x : Word}

theorem fle_fabs_iff (hc : isNaN c = false) : fle (fabs x) c = true ↔ isNaN x = false ∧ |units x| ≤ units c := by
  rw [fle_iff, isNaN_fabs, units_fabs]
  simp [hc]

theorem isFinite_of_abs_le (hc : isFinite c = true) (h : |units x| ≤ units c) : isFinite x = true := by
  obtain ⟨hlo, hhi⟩ := abs_le.1 h
  exact isFinite_of_bounds (lo := fneg c) (by simpa using hc) hc (by simpa using hlo) hhi

/-- A difference whose exact value is within a binary32 bound stays within it. -/
theorem abs_fsub_le (ha : isFinite a = true) (hb : isFinite b = true) (hc : isNaN c = false)
    (h : |units a - units b| ≤ units c) : |units (fsub a b)| ≤ units c := by
  obtain ⟨hlo, hhi⟩ := abs_le.1 h
  have hneg : units (fneg c) ≤ units (fsub a b) := le_fsub ha hb (by simpa using hc) (by simpa using hlo)
  exact abs_le.2 ⟨by simpa using hneg, fsub_le ha hb hc hhi⟩

/-- A product whose exact value is within a binary32 bound stays within it. -/
theorem abs_fmul_le (ha : isFinite a = true) (hb : isFinite b = true) (hc : isNaN c = false)
    (h : |units a * units b| ≤ units c * 2 ^ 149) : |units (fmul a b)| ≤ units c := by
  obtain ⟨hlo, hhi⟩ := abs_le.1 h
  have hneg : units (fneg c) ≤ units (fmul a b) :=
    le_fmul ha hb (by simpa using hc) (by rw [units_fneg, neg_mul]; exact hlo)
  exact abs_le.2 ⟨by simpa using hneg, fmul_le ha hb hc hhi⟩

/-- A value in [-1, 1] times a normalization constant does not exceed the constant. -/
theorem fle_fabs_fmul (hx : |units x| ≤ units one) (hc : isFinite c = true) (h0 : 0 ≤ units c) :
    fle (fabs (fmul x c)) c = true := by
  have hf := isFinite_of_abs_le isFinite_one hx
  have hn := isFinite_not_isNaN hc
  refine (fle_fabs_iff hn).2 ⟨fmul_not_isNaN hf hc, abs_fmul_le hf hc hn ?_⟩
  rw [units_one] at hx
  rw [abs_mul, abs_of_nonneg h0, mul_comm]
  exact Int.mul_le_mul_of_nonneg_left hx h0

end

section
variable {p : Word}

/-- A phase of at most 1.0 times TAU32 is within TAU32, so its sine is within 1.0 (00 R16 P2). -/
theorem sineWave_bound (h : inCycle p = true) : fle (fabs (sineWave p)) kSine = true := by
  obtain ⟨-, h0, h1⟩ := inCycle_iff.1 h
  have htau : 0 ≤ units tau32 := by decide +kernel
  have hturn : fle (fabs (fmul p tau32)) tau32 = true :=
    fle_fabs_fmul (by rw [units_one, abs_of_nonneg h0]; exact h1.le) isFinite_tau32 htau
  have hfin : isFinite (fmul p tau32) = true :=
    isFinite_of_abs_le isFinite_tau32 ((fle_fabs_iff (by decide)).1 hturn).2
  obtain ⟨hlo, hhi⟩ := fle_of_magBits_le (c := one) (by decide) (by decide) (sin32_range hfin)
  obtain ⟨-, -, hlo⟩ := fle_iff.1 hlo
  obtain ⟨-, -, hhi⟩ := fle_iff.1 hhi
  exact fle_fabs_fmul (c := one) (abs_le.2 ⟨by simpa using hlo, hhi⟩) isFinite_one (by simp)

theorem squareWave_levels (p : Word) : squareWave p = kSqHi ∨ squareWave p = kSqLo := by
  unfold squareWave
  split
  · exact .inl rfl
  · exact .inr rfl

theorem squareWave_bound (p : Word) : fle (fabs (squareWave p)) kSqHi = true := by
  rcases squareWave_levels p with h | h <;> rw [h] <;> decide

/-- The distance of the phase to 0.5 is in [0, 0.5], four times that in [0, 2], and 1.0 less that in [-1, 1]. -/
theorem triangleWave_bound (h : inCycle p = true) : fle (fabs (triangleWave p)) kTri = true := by
  obtain ⟨-, h0, h1⟩ := inCycle_iff.1 h
  have hf := inCycle_isFinite h
  have hdist : |units (fsub p half)| ≤ units half :=
    abs_fsub_le hf isFinite_half (by decide) (by rw [units_half, abs_le]; omega)
  have hfd : isFinite (fabs (fsub p half)) = true := by simpa using isFinite_of_abs_le isFinite_half hdist
  rw [← units_fabs, units_half] at hdist
  have hdist0 : 0 ≤ units (fabs (fsub p half)) := by simp
  set dist := fabs (fsub p half)
  have hscaled : units (fmul four dist) ≤ units two :=
    fmul_le isFinite_four hfd isNaN_two (by rw [units_four, units_two]; omega)
  have hscaled0 : units plusZero ≤ units (fmul four dist) :=
    le_fmul isFinite_four hfd isNaN_plusZero (by rw [units_four, units_plusZero]; omega)
  have hfs : isFinite (fmul four dist) = true := isFinite_of_bounds isFinite_plusZero isFinite_two hscaled0 hscaled
  rw [units_plusZero] at hscaled0
  rw [units_two] at hscaled
  have hrange : |units (fsub one (fmul four dist))| ≤ units one :=
    abs_fsub_le isFinite_one hfs isNaN_one (by rw [units_one, abs_le]; omega)
  exact fle_fabs_fmul hrange isFinite_kTri (by rw [units_kTri]; norm_num)

/-- The largest value of Saw before its normalization: 1 - 2^-23. -/
def lastRamp : Word := 0x3F7FFFFE

theorem isFinite_lastRamp : isFinite lastRamp = true := by decide

theorem units_lastRamp : units lastRamp = (2 ^ 23 - 1) * 2 ^ 126 := by decide +kernel

/-- Twice the phase less 1.0 is from -1.0 to 1 - 2^-23: the phase is at most 1 - 2^-24. -/
theorem saw_ramp_bounds (h : inCycle p = true) :
    -units one ≤ units (fsub (fmul two p) one) ∧ units (fsub (fmul two p) one) ≤ units lastRamp := by
  obtain ⟨-, h0, -⟩ := inCycle_iff.1 h
  have hf := inCycle_isFinite h
  have hlast := units_le_lastPhase h
  rw [units_lastPhase] at hlast
  have hlo : units plusZero ≤ units (fmul two p) :=
    le_fmul isFinite_two hf isNaN_plusZero (by rw [units_two, units_plusZero]; omega)
  have hhi : units (fmul two p) ≤ units beforeTwo :=
    fmul_le isFinite_two hf (isFinite_not_isNaN isFinite_beforeTwo) (by rw [units_two, units_beforeTwo]; omega)
  have hfs : isFinite (fmul two p) = true := isFinite_of_bounds isFinite_plusZero isFinite_beforeTwo hlo hhi
  rw [units_plusZero] at hlo
  rw [units_beforeTwo] at hhi
  rw [← units_fneg]
  exact ⟨le_fsub hfs isFinite_one (by decide) (by rw [units_fneg, units_one]; omega),
    fsub_le hfs isFinite_one (isFinite_not_isNaN isFinite_lastRamp) (by rw [units_lastRamp, units_one]; omega)⟩

theorem sawWave_bound (h : inCycle p = true) : fle (fabs (sawWave p)) kSaw = true := by
  obtain ⟨hlo, hhi⟩ := saw_ramp_bounds h
  have hle : units lastRamp ≤ units one := by rw [units_lastRamp, units_one]; norm_num
  exact fle_fabs_fmul (abs_le.2 ⟨hlo, hhi.trans hle⟩) isFinite_kSaw (by decide +kernel)

/-- The largest ramp times K_SAW is below the binary32 before K_SAW. -/
theorem sawWave_lt (h : inCycle p = true) : flt (sawWave p) kSaw = true := by
  obtain ⟨hlo, hhi⟩ := saw_ramp_bounds h
  have hf : isFinite (fsub (fmul two p) one) = true :=
    isFinite_of_bounds (lo := fneg one) (by simp) isFinite_lastRamp (by simpa using hlo) hhi
  rw [units_lastRamp] at hhi
  have hk : units kSaw = 10273528 * 2 ^ 126 := units_kTri
  have hbefore : units 0x3F9CC2F7 = 10273527 * 2 ^ 126 := by decide +kernel
  have hle : units (sawWave p) ≤ units 0x3F9CC2F7 :=
    fmul_le hf isFinite_kSaw (by decide) (by rw [hk, hbefore]; omega)
  exact flt_iff.2 ⟨fmul_not_isNaN hf isFinite_kSaw, by decide, by rw [hk]; omega⟩

end

theorem oscSample_bound {o : Oscillator} (h : inCycle o.phase = true) :
    fle (fabs (oscSample o)) (waveformBound o.waveform) = true := by
  cases hw : o.waveform with
  | sine => rw [oscSample_of_sine hw]; exact sineWave_bound h
  | square => rw [oscSample_of_square hw]; exact squareWave_bound _
  | triangle => rw [oscSample_of_triangle hw]; exact triangleWave_bound h
  | saw => rw [oscSample_of_saw hw]; exact sawWave_bound h

/-- Settles O42: each waveform is its rounded expression, Square by the patterns below 0.5; the bounds follow each expression
from the inside out, since no rounding passes a binary32. -/
theorem waveformsStayInTheirBounds : Obligations.WaveformsStayInTheirBounds := by
  intro o
  refine ⟨oscSample_of_sine, fun hw => ?_, fun hw => ?_, oscSample_of_saw,
    fun h => ⟨oscSample_bound h, fun hw => ?_, fun hw => ?_⟩⟩
  · rw [oscSample_of_square hw]
    exact ⟨squareWave_of_low, squareWave_of_high⟩
  · rw [oscSample_of_triangle hw]
    exact ⟨rfl, triangleWave_of_tiny⟩
  · rw [oscSample_of_square hw]
    exact squareWave_levels _
  · rw [oscSample_of_saw hw]
    exact sawWave_lt h

end Sys2Proof.Machine
end

section
/-! PROOFS. The LFO (spec 43 R192) and the envelope beside it (44 R202): a render iterates their own advances, which read the
sample rate and nothing else of the Live fields. -/

namespace Sys2Proof.Machine

/-- A sample step advances the LFO and the envelope once each (45 R210). -/
theorem sampleStep_lfo_env {v v' : Voice} {y : Word} (h : sampleStep v = .sample v' y) :
    v'.lfo = (lfoAdvance v.sampleRate v.lfo).2 ∧ v'.env = envAdvance v.sampleRate v.env := by
  obtain ⟨f, g, -, -, -, rfl⟩ := sampleStep_eq_sample.1 h
  exact ⟨controlSteps_lfo v, controlSteps_env v⟩

/-- After `n` frames the LFO and the envelope have made `n` advances at the sample rate, which no sample step writes. -/
theorem renderSamples_lfo_env {n : Nat} {v v' : Voice} {ys : List Word} (h : renderSamples n v = some (v', ys)) :
    v'.lfo = (Prod.snd ∘ lfoAdvance v.sampleRate)^[n] v.lfo ∧ v'.env = (envAdvance v.sampleRate)^[n] v.env := by
  induction n generalizing v ys with
  | zero =>
    obtain ⟨rfl, -⟩ : v = v' ∧ [] = ys := by simpa [renderSamples] using h
    exact ⟨rfl, rfl⟩
  | succ n ih =>
    obtain ⟨v1, y, ys', hstep, hrest, rfl⟩ := renderSamples_succ.1 h
    obtain ⟨hrate, -⟩ := sampleStep_frame hstep
    obtain ⟨hlfo, henv⟩ := sampleStep_lfo_env hstep
    have hafter := ih hrest
    rwa [hrate, hlfo, henv] at hafter

/-- The Live fields after a completed render are those after its frames. -/
theorem execRender_live {n : Word} {s t : State} {v v' : Voice} (h : execRender n s = .next t) (hs : s.lc = .live v)
    (ht : t.lc = .live v') : ∃ ys, renderSamples n.toNat v = some (v', ys) := by
  obtain ⟨w, w', ys, hw, -, hys, rfl⟩ := execRender_eq_next.1 h
  obtain rfl : w = v := Lifecycle.live.inj (hw.symm.trans hs)
  obtain rfl : w' = v' := Lifecycle.live.inj ht
  exact ⟨ys, hys⟩

/-- Settles O60: both renders iterate the same advances (`renderSamples_lfo_env`), so equal beginnings have equal ends. -/
theorem lfoAndEnvelopeRunOnTheirOwn : Obligations.LfoAndEnvelopeRunOnTheirOwn := by
  intro n s₁ s₂ t₁ t₂ v₁ v₂ v₁' v₂' hs₁ hs₂ hrate h₁ h₂ ht₁ ht₂
  obtain ⟨ys₁, hys₁⟩ := execRender_live h₁ hs₁ ht₁
  obtain ⟨ys₂, hys₂⟩ := execRender_live h₂ hs₂ ht₂
  obtain ⟨hlfo₁, henv₁⟩ := renderSamples_lfo_env hys₁
  obtain ⟨hlfo₂, henv₂⟩ := renderSamples_lfo_env hys₂
  rw [hlfo₁, hlfo₂, henv₁, henv₂, hrate]
  exact ⟨congrArg _, congrArg _⟩

end Sys2Proof.Machine
end

section
/-! PROOFS. The router with its fixed table (spec 44 R200 (c), (d)): each accumulator takes one source at depth 1.0. -/

namespace Sys2Proof.Machine

/-- A sum with +0 on the left is the other operand, a zero turned to +0 (44 R200 (c)). -/
theorem plusZero_fadd {a : Word} (ha : isNaN a = false) : fadd plusZero a = if isZero a then plusZero else a := by
  obtain h | h | h := word_cases a
  · rw [ha] at h; cases h
  · rw [isInf_not_isZero h]
    refine fadd_of_isInf_right h (not_isNaN_fadd.2 ⟨isNaN_plusZero, ha, ?_⟩)
    intro hinf
    cases hinf
  · cases hz : isZero a
    · exact fadd_zero_left h hz (by decide)
    · exact fadd_zeros (by decide) hz

/-- A NaN source gives a NaN accumulator (44 R200 (d)). -/
theorem modulate_of_isNaN (p : Smoothed) {source : Word} (depth : Word) (h : isNaN source = true) :
    isNaN (modulate p source depth).modulation = true :=
  isNaN_fadd.2 (.inr (.inl (isNaN_fmul.2 (.inl h))))

/-- From an accumulator of +0 a source at the table's depth is taken as it is, -0 turned to +0 (44 R200 (c)). -/
theorem modulate_of_plusZero {p : Smoothed} {source : Word} (hp : p.modulation = plusZero) (h : isNaN source = false) :
    (modulate p source routeDepth).modulation = if isZero source then plusZero else source := by
  rw [modulate_modulation, hp, routeDepth, fmul_one h, plusZero_fadd h]

/-- Settles O48: the fixed table gives each parameter one `modulate` (`route_table`). -/
theorem routerMovesEachSourceToItsParameter : Obligations.RouterMovesEachSourceToItsParameter := by
  intro v l e hroutes
  exact ⟨_, _, route_table l e hroutes, modulate_of_isNaN v.freq _, modulate_of_isNaN v.gain _,
    modulate_of_plusZero, modulate_of_plusZero⟩

end Sys2Proof.Machine
end

section
/-! PROOFS. The sample step and the render loop (spec 45 R210 to R214, 46 R231): the two clamps, the six steps of one frame, the
split of a render, and the refusals at the first frame. -/

namespace Sys2Proof.Machine

/-! ## The effective values (45 R211, R212) -/

theorem clamp_of_not_isNaN {x lo hi : Word} (h : isNaN x = false) :
    clamp x lo hi = some (if flt x lo then lo else if flt hi x then hi else x) :=
  if_neg (by simp [h])

theorem not_isNaN_of_clamp {x lo hi y : Word} (h : clamp x lo hi = some y) : isNaN x = false := by
  rw [← Bool.not_eq_true, ← clamp_eq_none (lo := lo) (hi := hi), h]
  exact Option.some_ne_none y

/-- A value at or below the lower bound is clamped to one that is not above it. -/
theorem clamp_le_of_le {x lo hi y : Word} (hle : units lo ≤ units hi) (hx : units x ≤ units lo)
    (h : clamp x lo hi = some y) : units y ≤ units lo := by
  rw [clamp_of_not_isNaN (not_isNaN_of_clamp h), Option.some.injEq] at h
  cases hbelow : flt x lo
  · have habove : flt hi x = false := by
      rw [← Bool.not_eq_true, flt_iff]
      omega
    rw [hbelow, habove] at h
    exact h ▸ hx
  · rw [hbelow] at h
    exact h ▸ le_refl _

theorem effectiveFrequency_bounds {v : Voice} {f : Word} (h : effectiveFrequency v = some f) :
    isNaN f = false ∧ units fMin ≤ units f ∧ units f ≤ units fMax :=
  clamp_bounds isNaN_fMin isNaN_fMax (by rw [units_fMin, units_fMax]; norm_num) h

theorem effectiveGain_inUnit {v : Voice} {g : Word} (h : effectiveGain v = some g) : inUnit g = true := by
  obtain ⟨hn, h0, h1⟩ := clamp_bounds (lo := plusZero) (hi := one) isNaN_plusZero isNaN_one (by simp) h
  exact inUnit_iff.2 ⟨hn, by simpa using h0, by simpa using h1⟩

/-- Settles O34: both are one clamp, whose answer lies between its bounds and is absent for a NaN only. -/
theorem effectiveValuesAreClamped : Obligations.EffectiveValuesAreClamped := by
  intro v x
  refine ⟨fun h => ?_, effectiveGain_inUnit, ⟨effectiveFrequency_eq_none, clamp_of_not_isNaN⟩,
    ⟨effectiveGain_eq_none, clamp_of_not_isNaN⟩⟩
  obtain ⟨hn, hlo, hhi⟩ := effectiveFrequency_bounds h
  exact ⟨fle_iff.2 ⟨isNaN_fMin, hn, hlo⟩, fle_iff.2 ⟨hn, isNaN_fMax, hhi⟩⟩

/-! ## No frame and one frame (45 R210, R214 (a)) -/

/-- Settles O27: no frame gives no sample, and the Live fields are put back as they were. -/
theorem renderZeroOnlyTakesTheBuffer : Obligations.RenderZeroOnlyTakesTheBuffer := by
  intro s v hv hbase
  refine execRender_eq_next.2 ⟨v, v, [], hv, bufferFits_eq_true.2 ⟨Nat.zero_le _, hbase⟩, rfl, ?_⟩
  simp only [writeAll, State.withVoice, State.endRender, ← hv]

/-- Steps 1 to 3 with the fixed table: the LFO's value before its advance and the envelope's after it go into the
accumulators that smoothing zeroed. -/
theorem controlSteps_of_routeTable {v : Voice} (h : v.routes = routeTable) :
    controlSteps v = { v with
      freq := { smooth v.freq kSmooth with modulation := fadd plusZero (fmul (sineWave v.lfo.phase) routeDepth) }
      gain := { smooth v.gain kSmooth with
        modulation := fadd plusZero (fmul (envAdvance v.sampleRate v.env).value routeDepth) }
      env := envAdvance v.sampleRate v.env
      lfo := (lfoAdvance v.sampleRate v.lfo).2 } := by
  rw [controlSteps_shape, controlSteps_freq_modulation h, controlSteps_gain_modulation h]

theorem execRender_one {s : State} {v v' : Voice} {y : Word} (hv : s.lc = .live v) (hfits : bufferFits s.buffer 1 = true)
    (h : sampleStep v = .sample v' y) :
    execRender 1 s = .next ((s.outWrite s.buffer.base 0 y).withVoice v').endRender :=
  execRender_eq_next.2 ⟨v, v', [y], hv, hfits, renderSamples_succ.2 ⟨v', y, [], h, rfl, rfl⟩, rfl⟩

/-- Settles O28: the one sample step is steps 1 to 3 (`controlSteps_of_routeTable`), the two clamps that answer, and the
oscillator. -/
theorem oneFrameFollowsTheSampleStep : Obligations.OneFrameFollowsTheSampleStep := by
  intro s v f g hv hroutes hlen hbase lfoValue e fc fm gc gm hf hg y p
  have hcontrol := controlSteps_of_routeTable hroutes
  have hstep := sampleStep_eq_sample.2
    ⟨f, g, (congrArg effectiveFrequency hcontrol).trans hf, (congrArg effectiveGain hcontrol).trans hg, rfl, rfl⟩
  refine (execRender_one hv (bufferFits_eq_true.2 ⟨hlen, hbase⟩) hstep).trans ?_
  rw [hcontrol]
  rfl

/-! ## Two renders in a row (45 R214 (b)) -/

/-- What a completed render leaves, in terms of its samples. -/
theorem execRender_samples {n : Word} {s t : State} (h : execRender n s = .next t) :
    ∃ v v' ys, s.lc = .live v ∧ renderSamples n.toNat v = some (v', ys) ∧ t.lc = .live v' ∧
      t.nanDraws = drawsAfter s.nanDraws ys ∧
      t.history = s.history ++ historyOf s.renderIndex (writtenPatterns s.nanDraws ys) := by
  obtain ⟨v, v', ys, hv, -, hys, rfl⟩ := execRender_eq_next.1 h
  exact ⟨v, v', ys, hv, hys, rfl, writeAll_nanDraws _ _ _ _, render_history _ _ _⟩

theorem map_pattern_historyOf (k : Nat) (ys : List Word) : (historyOf k ys).map OutWrite.pattern = ys :=
  List.ext_getElem (by simp [historyOf]) (by simp [historyOf])

/-- Settles O30: the samples of `n + m` frames are those of `n` and then those of `m` (`renderSamples_add`), and the patterns and
draws of joined samples are joined. -/
theorem splitRendersEqualOneRender : Obligations.SplitRendersEqualOneRender := by
  intro n m s s₁ s₂ s₃ hnm h₁ h₂ h₃
  obtain ⟨v, v₁, ys, hv, hys, hlc₁, hdraws₁, hhist₁⟩ := execRender_samples h₁
  obtain ⟨w₁, v₂, zs, hw₁, hzs, hlc₂, hdraws₂, hhist₂⟩ := execRender_samples h₂
  obtain ⟨w, v₃, xs, hw, hxs, hlc₃, hdraws₃, hhist₃⟩ := execRender_samples h₃
  obtain rfl : w = v := Lifecycle.live.inj (hw.symm.trans hv)
  obtain rfl : w₁ = v₁ := Lifecycle.live.inj (hw₁.symm.trans hlc₁)
  rw [BitVec.toNat_add_of_lt hnm, renderSamples_add, hys, Option.bind_some, hzs] at hxs
  obtain ⟨rfl, rfl⟩ : v₂ = v₃ ∧ ys ++ zs = xs := by simpa using hxs
  refine ⟨hlc₂.trans hlc₃.symm, ?_, ?_⟩
  · rw [hdraws₂, hdraws₁, hdraws₃, drawsAfter_append]
  · simp only [hhist₂, hhist₁, hhist₃, hdraws₁, List.map_append, map_pattern_historyOf, writtenPatterns_append,
      List.append_assoc]

/-! ## A NaN at a clamp of the first frame (45 R211, R212, 60 R261, R264) -/

section
variable {v : Voice}

theorem isNaN_smooth_current {p : Smoothed} (h : isNaN p.current = true ∨ isNaN p.target = true) :
    isNaN (smooth p kSmooth).current = true :=
  (smoothingOfNonFiniteParameters p).1 h

theorem isNaN_freq_modulation (hr : v.routes = routeTable) (h : isNaN (sineWave v.lfo.phase) = true) :
    isNaN (controlSteps v).freq.modulation = true := by
  rw [controlSteps_freq_modulation hr]
  exact isNaN_fadd.2 (.inr (.inl (isNaN_fmul.2 (.inl h))))

theorem isNaN_gain_modulation (hr : v.routes = routeTable)
    (h : isNaN (envAdvance v.sampleRate v.env).value = true) : isNaN (controlSteps v).gain.modulation = true := by
  rw [controlSteps_gain_modulation hr]
  exact isNaN_fadd.2 (.inr (.inl (isNaN_fmul.2 (.inl h))))

theorem sampleStep_nan_frequency (h : isNaN (fadd (controlSteps v).freq.current (controlSteps v).freq.modulation) = true) :
    sampleStep v = .nanAt .freqClamp (controlSteps v) :=
  sampleStep_eq_nanAt.2 ⟨rfl, .inl ⟨rfl, effectiveFrequency_eq_none.2 h⟩⟩

theorem sampleStep_nan_gain (hf : isNaN (fadd (controlSteps v).freq.current (controlSteps v).freq.modulation) = false)
    (h : isNaN (fmul (controlSteps v).gain.current (controlSteps v).gain.modulation) = true) :
    sampleStep v = .nanAt .gainClamp (controlSteps v) :=
  sampleStep_eq_nanAt.2 ⟨rfl, .inr ⟨rfl, by rw [Ne, effectiveFrequency_eq_none, hf]; exact Bool.false_ne_true,
    effectiveGain_eq_none.2 h⟩⟩

end

theorem execRender_nan_first {n : Word} {s : State} {v v' : Voice} {p : Site} (hv : s.lc = .live v) (hn : n ≠ 0)
    (hfits : bufferFits s.buffer n.toNat = true) (h : sampleStep v = .nanAt p v') :
    execRender n s = .refused (.nanAtClamp ((s.withVoice v').marked .nanAtClamp (some 0) (some p))) :=
  execRender_eq_nanAtClamp.2
    ⟨v, 0, v, [], p, v', hv, hfits, Nat.pos_of_ne_zero fun h0 => hn (BitVec.eq_of_toNat_eq h0), rfl, h, rfl⟩

/-- Settles O32: each premise makes the operand of its clamp a NaN, and the frequency clamp stands first. -/
theorem nanParametersRefuseAtTheirClamps : Obligations.NaNParametersRefuseAtTheirClamps := by
  intro n s v hv hn hlen hbase
  have hfits := bufferFits_eq_true.2 ⟨hlen, hbase⟩
  refine ⟨fun h => execRender_nan_first hv hn hfits (sampleStep_nan_frequency ?_),
    fun hf h => execRender_nan_first hv hn hfits (sampleStep_nan_gain hf ?_)⟩
  · rw [isNaN_fadd, controlSteps_freq_current]
    rcases h with hcur | htar | ⟨hr, hphase | hvalue⟩ | hsum
    · exact .inl (isNaN_smooth_current (.inl hcur))
    · exact .inl (isNaN_smooth_current (.inr htar))
    · exact .inr (.inl (isNaN_freq_modulation hr (sineWave_nan hphase)))
    · exact .inr (.inl (isNaN_freq_modulation hr hvalue))
    · rwa [isNaN_fadd, controlSteps_freq_current] at hsum
  · rw [isNaN_fmul, controlSteps_gain_current]
    rcases h with hcur | htar | ⟨hr, hvalue⟩ | hproduct
    · exact .inl (isNaN_smooth_current (.inl hcur))
    · exact .inl (isNaN_smooth_current (.inr htar))
    · exact .inr (.inl (isNaN_gain_modulation hr hvalue))
    · rwa [isNaN_fmul, controlSteps_gain_current] at hproduct

end Sys2Proof.Machine
end

section
/-! PROOFS. Renders that complete (spec 45 R217): from a `Renderable` block both clamps meet numbers, and the frame leaves the
block `Renderable`. -/

namespace Sys2Proof.Machine

/-- Smoothing holds the value of a settled finite parameter: the change it adds is a zero (40 R130 (a)). -/
theorem units_smooth_current {p : Smoothed} (hs : settled p = true) (hc : isFinite p.current = true)
    (ht : isFinite p.target = true) : units (smooth p kSmooth).current = units p.current := by
  obtain ⟨hzero, -⟩ := smoothChange_of_settled hc ht (settled_iff.1 hs hc ht)
  exact units_fadd_zero hc hzero

theorem isFinite_smooth_current {p : Smoothed} (hs : settled p = true) (hc : isFinite p.current = true)
    (ht : isFinite p.target = true) : isFinite (smooth p kSmooth).current = true :=
  have hsame := units_smooth_current hs hc ht
  isFinite_of_bounds hc hc hsame.ge hsame.le

theorem isFinite_sineWave_of_inCycle {p : Word} (h : inCycle p = true) : isFinite (sineWave p) = true :=
  isFinite_of_abs_le isFinite_kSine ((fle_fabs_iff (by decide)).1 (sineWave_bound h)).2

/-- With the fixed table the gain's accumulator is the envelope's value, -0 turned to +0 (44 R200 (c)). -/
theorem inUnit_gain_modulation {v : Voice} (hr : v.routes = routeTable)
    (h : inUnit (envAdvance v.sampleRate v.env).value = true) : inUnit (controlSteps v).gain.modulation = true := by
  have hn := isFinite_not_isNaN (inUnit_isFinite h)
  rw [controlSteps_gain_modulation hr, routeDepth, fmul_one hn, plusZero_fadd hn]
  split
  · exact inUnit_plusZero
  · exact h

section
variable {v : Voice}

theorem Renderable.envValue (h : Renderable v) : inUnit (envAdvance v.sampleRate v.env).value = true :=
  (envelopeValueStaysInUnit v h.inv).resolve_right (by simp [h.decayProduct, h.releaseProduct])

theorem Renderable.freqCurrent_smooth (h : Renderable v) : isFinite (smooth v.freq kSmooth).current = true :=
  isFinite_smooth_current h.inv.freq h.freqCurrent h.freqTarget

theorem Renderable.gainCurrent_smooth (h : Renderable v) : isFinite (smooth v.gain kSmooth).current = true :=
  isFinite_smooth_current h.inv.gain h.gainCurrent h.gainTarget

theorem Renderable.exists_effectiveFrequency (h : Renderable v) : ∃ f, effectiveFrequency (controlSteps v) = some f :=
  effectiveFrequency_isSome h.inv.routes h.freqCurrent_smooth (isFinite_sineWave_of_inCycle h.lfoPhase)

theorem Renderable.exists_effectiveGain (h : Renderable v) : ∃ g, effectiveGain (controlSteps v) = some g := by
  have hmod := inUnit_isFinite (inUnit_gain_modulation h.inv.routes h.envValue)
  refine Option.ne_none_iff_exists'.1 fun hnone => ?_
  rw [effectiveGain_eq_none, controlSteps_gain_current, fmul_not_isNaN h.gainCurrent_smooth hmod] at hnone
  cases hnone

/-- A frame gives a sample and keeps `Renderable`: smoothing holds the parameters, and the LFO's phase stays in the cycle. -/
theorem Renderable.exists_sample (h : Renderable v) : ∃ v' y, sampleStep v = .sample v' y ∧ Renderable v' := by
  obtain ⟨f, hf⟩ := h.exists_effectiveFrequency
  obtain ⟨g, hg⟩ := h.exists_effectiveGain
  have hstep := sampleStep_eq_sample.2 ⟨f, g, hf, hg, rfl, rfl⟩
  have hlfo := normalDomainKeepsThePhaseInTheCycle _ _ _ h.lfoPhase h.lfoRate
  refine ⟨_, _, hstep, ?_⟩
  constructor
  case inv => exact sampleStep_keeps_inv h.inv hstep
  case freqCurrent => simpa using h.freqCurrent_smooth
  case freqTarget => simpa using h.freqTarget
  case gainCurrent => simpa using h.gainCurrent_smooth
  case gainTarget => simpa using h.gainTarget
  case lfoPhase => simpa using hlfo
  case lfoRate => simpa using h.lfoRate
  case decayProduct => simpa using h.decayProduct
  case releaseProduct => simpa using h.releaseProduct

theorem Renderable.exists_samples (n : Nat) (h : Renderable v) :
    ∃ v' ys, renderSamples n v = some (v', ys) ∧ Renderable v' := by
  induction n generalizing v with
  | zero => exact ⟨v, [], rfl, h⟩
  | succ n ih =>
    obtain ⟨v₁, y, hstep, h₁⟩ := h.exists_sample
    obtain ⟨v', ys, hys, h'⟩ := ih h₁
    exact ⟨v', y :: ys, renderSamples_succ.2 ⟨v₁, y, ys, hstep, hys, rfl⟩, h'⟩

end

/-- Settles O31: `Renderable` is an invariant of the frames under which each gives a sample (`Renderable.exists_sample`). -/
theorem rendersCompleteFromRenderableStates : Obligations.RendersCompleteFromRenderableStates := by
  intro n s v hv h hlen hbase
  obtain ⟨v', ys, hys, h'⟩ := h.exists_samples n.toNat
  refine ⟨_, v', execRender_eq_next.2 ⟨v, v', ys, hv, bufferFits_eq_true.2 ⟨hlen, hbase⟩, hys, rfl⟩, rfl, h', ?_⟩
  simp [render_history, historyOf, renderSamples_length hys]

end Sys2Proof.Machine
end

section
/-! PROOFS. The output in the normal phase domain (spec 45 R215, R216): no sample exceeds the normalization constant, and a gain
that cannot be positive gives zeros. -/

namespace Sys2Proof.Machine

/-! ## The normal phase domain over a render (42 R178) -/

/-- The oscillator in the normal phase domain, whatever the effective frequency: its phase is in [0, 1), and the sample rate is
above F_MAX. -/
def NormalPhase (v : Voice) : Prop := inCycle v.osc.phase = true ∧ flt fMax v.sampleRate = true

/-- The effective frequency is from 20 to 20000, so it is in [0, sample rate). -/
theorem normalRate_of_effectiveFrequency {v : Voice} {f sr : Word} (hsr : flt fMax sr = true)
    (h : effectiveFrequency v = some f) : normalRate f sr = true := by
  obtain ⟨hn, hlo, hhi⟩ := effectiveFrequency_bounds h
  obtain ⟨-, hns, hlt⟩ := flt_iff.1 hsr
  have h0 : units plusZero ≤ units f := le_trans (by rw [units_plusZero, units_fMin]; norm_num) hlo
  rw [normalRate, fle_iff.2 ⟨isNaN_plusZero, hn, h0⟩, flt_iff.2 ⟨hn, hns, hhi.trans_lt hlt⟩, Bool.and_true]

theorem NormalPhase.sample {v v' : Voice} {y : Word} (hv : NormalPhase v) (h : sampleStep v = .sample v' y) :
    NormalPhase v' := by
  obtain ⟨hphase, hsr⟩ := hv
  obtain ⟨f, g, hf, -, -, rfl⟩ := sampleStep_eq_sample.1 h
  exact ⟨normalDomainKeepsThePhaseInTheCycle _ _ _ hphase (normalRate_of_effectiveFrequency hsr hf), by simpa using hsr⟩

/-- A property of the Live fields that every sample step keeps, and under which it gives samples with the property `Q` that no
NaN has, puts exactly such samples in the history. -/
theorem execRender_history_forall {P : Voice → Prop} {Q : Word → Prop}
    (hstep : ∀ {v v' y}, P v → sampleStep v = .sample v' y → P v' ∧ Q y) (hQ : ∀ y, Q y → isNaN y = false)
    {n : Word} {s t : State} {v : Voice} (hv : s.lc = .live v) (h0 : P v) (h : execRender n s = .next t) :
    ∃ ys : List Word, ys.length = n.toNat ∧ t.history = s.history ++ historyOf s.renderIndex ys ∧ ∀ y ∈ ys, Q y := by
  obtain ⟨w, v', ys, hw, hys, -, -, hhist⟩ := execRender_samples h
  obtain rfl : w = v := Lifecycle.live.inj (hw.symm.trans hv)
  obtain ⟨-, hall⟩ := renderSamples_induct hstep h0 hys
  rw [writtenPatterns_of_no_nan fun y hy => hQ y (hall y hy)] at hhist
  exact ⟨ys, renderSamples_length hys, hhist, hall⟩

/-! ## The bound of the output (45 R215) -/

theorem isFinite_waveformBound (w : Waveform) : isFinite (waveformBound w) = true := by
  cases w <;> decide

/-- A value within a bound times a gain in [0, 1] stays within the bound. -/
theorem fle_fabs_fmul_gain {x c g : Word} (hc : isFinite c = true) (hx : fle (fabs x) c = true) (hg : inUnit g = true) :
    fle (fabs (fmul x g)) c = true := by
  have hn := isFinite_not_isNaN hc
  obtain ⟨-, habs⟩ := (fle_fabs_iff hn).1 hx
  obtain ⟨-, hg0, hg1⟩ := inUnit_iff.1 hg
  have hfx := isFinite_of_abs_le hc habs
  have hfg := inUnit_isFinite hg
  refine (fle_fabs_iff hn).2 ⟨fmul_not_isNaN hfx hfg, abs_fmul_le hfx hfg hn ?_⟩
  rw [abs_mul, abs_of_nonneg hg0]
  exact mul_le_mul habs hg1 hg0 ((abs_nonneg _).trans habs)

theorem sampleStep_bound {v v' : Voice} {y : Word} (hv : NormalPhase v) (h : sampleStep v = .sample v' y) :
    fle (fabs y) (waveformBound v.osc.waveform) = true := by
  obtain ⟨f, g, -, hg, rfl, -⟩ := sampleStep_eq_sample.1 h
  exact fle_fabs_fmul_gain (isFinite_waveformBound _) (oscSample_bound hv.1) (effectiveGain_inUnit hg)

/-- Settles O57: every frame keeps the normal phase domain and the waveform, and multiplies a sample within the constant by a
gain in [0, 1]. -/
theorem outputNeverExceedsTheNormalization : Obligations.OutputNeverExceedsTheNormalization := by
  intro n s t v hv hphase hsr h
  refine execRender_history_forall (P := fun w => NormalPhase w ∧ w.osc.waveform = v.osc.waveform)
    (fun {w w' y} ⟨hw, hwave⟩ hstep => ⟨⟨hw.sample hstep, ?_⟩, ?_⟩) (fun y hy => ?_) hv ⟨⟨hphase, hsr⟩, rfl⟩ h
  · obtain ⟨-, -, -, -, hkept, -⟩ := sampleStep_frame hstep
    exact hkept.trans hwave
  · exact hwave ▸ sampleStep_bound hw hstep
  · exact ((fle_fabs_iff (isFinite_not_isNaN (isFinite_waveformBound _))).1 hy).1

/-! ## Silence (45 R216) -/

/-- The blocks whose effective gain is a zero: the gain is a zero, the settled gain is at or below zero, or the envelope is Idle
with the fixed table. -/
inductive Silent (v : Voice) : Prop
  | zeroGain (hc : isZero v.gain.current = true) (ht : isZero v.gain.target = true)
  | negativeGain (inv : VoiceInv v) (h0 : fle v.gain.current plusZero = true)
      (heq : feq v.gain.current v.gain.target = true)
  | idle (hstage : v.env.stage = .idle) (hroutes : v.routes = routeTable)

section
variable {v : Voice} {g : Word}

/-- A gain product at or below zero is clamped to a zero. -/
theorem isZero_effectiveGain (h : effectiveGain v = some g)
    (hp : units (fmul v.gain.current v.gain.modulation) ≤ 0) : isZero g = true := by
  obtain ⟨-, hg0, -⟩ := inUnit_iff.1 (effectiveGain_inUnit h)
  have hg1 : units g ≤ units plusZero := clamp_le_of_le (hi := one) (by simp) (by simpa using hp) h
  exact isZero_iff.2 (le_antisymm (by simpa using hg1) hg0)

theorem not_isNaN_gain_product (h : effectiveGain v = some g) :
    isNaN (fmul v.gain.current v.gain.modulation) = false :=
  not_isNaN_of_clamp h

/-- A product with a zero is a zero or a NaN. -/
theorem isZero_fmul {a b : Word} (hn : isNaN (fmul a b) = false) (hz : isZero a = true ∨ isZero b = true) :
    isZero (fmul a b) = true := by
  obtain ⟨hna, hnb, hinf⟩ := not_isNaN_fmul.1 hn
  rcases hz with hz | hz
  · exact fmul_isZero_left hz ((isInf_or_isFinite hnb).resolve_left fun hb => by simp [hinf (.inr hb)] at hz)
  · exact fmul_isZero_right ((isInf_or_isFinite hna).resolve_left fun ha => by simp [hinf (.inl ha)] at hz) hz

/-- Smoothing makes an infinite or NaN gain a NaN, which the clamp does not answer (40 R130 (b), (c)). -/
theorem isFinite_gain_of_effectiveGain (h : effectiveGain (controlSteps v) = some g) :
    isFinite v.gain.current = true := by
  obtain ⟨hn, -, -⟩ := not_isNaN_fmul.1 (not_isNaN_gain_product h)
  rw [controlSteps_gain_current] at hn
  rcases word_cases v.gain.current with hc | hc | hc
  · rw [isNaN_smooth_current (.inl hc)] at hn
    cases hn
  · rw [isNaN_smooth_of_isInf_current hc] at hn
    cases hn
  · exact hc

/-- Where the gain clamp answers, the gain's accumulator of a block with the invariant is in [0, 1] (10 R38). -/
theorem inUnit_gain_modulation_of_effectiveGain (hv : VoiceInv v) (h : effectiveGain (controlSteps v) = some g) :
    inUnit (controlSteps v).gain.modulation = true :=
  inUnit_gain_modulation hv.routes <| (envelopeValueStaysInUnit v hv).resolve_right fun ⟨hn, _⟩ => by
    rw [envAdvance_value_not_isNaN hv.routes h] at hn
    cases hn

/-- A zero gain with a zero target stays a zero. -/
theorem isZero_smooth_current {p : Smoothed} (hc : isZero p.current = true) (ht : isZero p.target = true) :
    isZero (smooth p kSmooth).current = true := by
  have hs : settled p = true := settled_iff.2 fun _ _ => by rw [units_of_isZero hc, units_of_isZero ht]
  rw [isZero_iff, units_smooth_current hs (isZero_isFinite hc) (isZero_isFinite ht), units_of_isZero hc]

/-- What smoothing keeps of a settled gain at or below zero. -/
theorem smooth_negativeGain (hc : isFinite v.gain.current = true) (h0 : fle v.gain.current plusZero = true)
    (heq : feq v.gain.current v.gain.target = true) :
    isFinite (smooth v.gain kSmooth).current = true ∧ fle (smooth v.gain kSmooth).current plusZero = true ∧
      feq (smooth v.gain kSmooth).current v.gain.target = true := by
  obtain ⟨-, hnt, hu⟩ := feq_iff.1 heq
  obtain ⟨-, -, hle⟩ := fle_iff.1 h0
  have hs : settled v.gain = true := settled_iff.2 fun _ _ => hu
  have ht := isFinite_of_feq hc heq
  have hfin := isFinite_smooth_current hs hc ht
  have hn := isFinite_not_isNaN hfin
  have hsame := units_smooth_current hs hc ht
  exact ⟨hfin, fle_iff.2 ⟨hn, isNaN_plusZero, hsame ▸ hle⟩, feq_iff.2 ⟨hn, hnt, hsame.trans hu⟩⟩

/-- An Idle envelope gives the gain's accumulator a zero (41 R141, 44 R200). -/
theorem isZero_gain_modulation_of_idle (hstage : v.env.stage = .idle) (hr : v.routes = routeTable) :
    isZero (controlSteps v).gain.modulation = true := by
  rw [controlSteps_gain_modulation hr, envAdvance_of_idle _ hstage]
  show isZero (fadd plusZero (fmul plusZero routeDepth)) = true
  decide +kernel

theorem Silent.isZero_gain (h : Silent v) (hg : effectiveGain (controlSteps v) = some g) : isZero g = true := by
  have hn := not_isNaN_gain_product hg
  refine isZero_effectiveGain hg ?_
  cases h with
  | zeroGain hc ht =>
    exact (units_of_isZero (isZero_fmul hn (.inl (by simpa using isZero_smooth_current hc ht)))).le
  | negativeGain inv h0 heq =>
    obtain ⟨hfin, hle, -⟩ := smooth_negativeGain (isFinite_gain_of_effectiveGain hg) h0 heq
    have hmod := inUnit_gain_modulation_of_effectiveGain inv hg
    obtain ⟨-, -, hle⟩ := fle_iff.1 hle
    obtain ⟨-, hmod0, -⟩ := inUnit_iff.1 hmod
    rw [units_plusZero] at hle
    rw [controlSteps_gain_current, ← units_plusZero]
    exact fmul_le hfin (inUnit_isFinite hmod) isNaN_plusZero (by simpa using mul_nonpos_of_nonpos_of_nonneg hle hmod0)
  | idle hstage hroutes =>
    exact (units_of_isZero (isZero_fmul hn (.inr (isZero_gain_modulation_of_idle hstage hroutes)))).le

theorem Silent.sample {v' : Voice} {y : Word} (h : Silent v) (hstep : sampleStep v = .sample v' y) : Silent v' := by
  obtain ⟨f, g, -, hg, -, hv'⟩ := sampleStep_eq_sample.1 hstep
  cases h with
  | zeroGain hc ht =>
    subst hv'
    exact .zeroGain (by simpa using isZero_smooth_current hc ht) (by simpa using ht)
  | negativeGain inv h0 heq =>
    have hinv := sampleStep_keeps_inv inv hstep
    obtain ⟨-, hle, heq'⟩ := smooth_negativeGain (isFinite_gain_of_effectiveGain hg) h0 heq
    subst hv'
    exact .negativeGain hinv (by simpa using hle) (by simpa using heq')
  | idle hstage hroutes =>
    subst hv'
    exact .idle (by simpa [envAdvance_of_idle _ hstage, advanceIdle] using hstage) (by simpa using hroutes)

theorem sampleStep_isZero {v' : Voice} {y : Word} (hp : NormalPhase v) (hs : Silent v)
    (h : sampleStep v = .sample v' y) : isZero y = true := by
  obtain ⟨f, g, -, hg, rfl, -⟩ := sampleStep_eq_sample.1 h
  have hc := isFinite_waveformBound v.osc.waveform
  obtain ⟨-, habs⟩ := (fle_fabs_iff (isFinite_not_isNaN hc)).1 (oscSample_bound hp.1)
  exact fmul_isZero_right (isFinite_of_abs_le hc habs) (hs.isZero_gain hg)

end

/-- Settles O58: every frame keeps the normal phase domain and `Silent`, and multiplies a finite sample by a zero gain. -/
theorem silenceAtZeroGainOrIdle : Obligations.SilenceAtZeroGainOrIdle := by
  intro n s t v hv hphase hsr hcase h
  have hsilent : Silent v := by
    rcases hcase with ⟨hc, ht⟩ | ⟨inv, h0, heq⟩ | ⟨hstage, hroutes⟩
    · exact .zeroGain hc ht
    · exact .negativeGain inv h0 heq
    · exact .idle hstage hroutes
  exact execRender_history_forall (P := fun w => NormalPhase w ∧ Silent w)
    (fun ⟨hp, hs⟩ hstep => ⟨⟨hp.sample hstep, hs.sample hstep⟩, sampleStep_isZero hp hs hstep⟩)
    (fun _ hy => isFinite_not_isNaN (isZero_isFinite hy)) hv ⟨⟨hphase, hsr⟩, hsilent⟩ h

end Sys2Proof.Machine
end

section
/-! PROOFS. The host commands (spec 46 R230, R232 to R240): what a step makes of a command's outcome, when create and destroy
complete, and what each setter stores. -/

namespace Sys2Proof.Machine

/-! ## The step runs the decoded command (46 R240) -/

section
variable {s t : State} {i : Instr} {rest : List Word}

theorem step_of_exec_next (hs : s.refusal = none) (hd : decode s.port = .command i rest) (h : exec i s = .next t) :
    step s = .next (t.retire rest) := by
  simp only [step, hs, State.fetch, hd, h]

theorem step_of_exec_refused {r : Refusal} (hs : s.refusal = none) (hd : decode s.port = .command i rest)
    (h : exec i s = .refused r) : step s = .refused r := by
  simp only [step, hs, State.fetch, hd, h]

end

/-- Settles O7: a next state is retired, which consumes the words and counts the command; a refusal is passed on. -/
theorem stepRunsDecodedCommand : Obligations.StepRunsDecodedCommand :=
  fun _ _ _ hs hd => ⟨fun _ => step_of_exec_next hs hd, fun _ => step_of_exec_refused hs hd⟩

/-! ## create and destroy (46 R230, R239) -/

theorem execCreate_of_not_valid {sr : Word} {s : State} (h : validSampleRate sr ≠ true) :
    execCreate sr s = s.refuse .badSampleRate none none :=
  if_neg h

/-- The floor of the times is among the positive finite patterns (00 R8). -/
theorem adsrMinTime_range : 1 ≤ adsrMinTime ∧ adsrMinTime ≤ 0x7F7FFFFF := by
  have hlt := Config.adsrMinTimeIndex.isLt
  have hval := toNat_adsrMinTime
  constructor <;> bv_omega

/-- Settles O12: the rate is valid (`validSampleRate_iff`), `initialVoice` holds the reset values, and each OPEN one is floored
or clamped into its range. -/
theorem createGivesEveryFieldItsResetValue : Obligations.CreateGivesEveryFieldItsResetValue := by
  obtain ⟨hmin, hmax⟩ := adsrMinTime_range
  refine ⟨fun s sr h1 h2 => ?_, hmin, hmax, openTime_ge _, openTime_ge _, openTime_ge _, sustainReset_inUnit⟩
  have hvalid : validSampleRate sr = true := validSampleRate_iff.2 (by constructor <;> bv_omega)
  exact execCreate_eq_next.2 ⟨hvalid, rfl⟩

/-- Settles O13: these are exactly the rates that are not valid (`validSampleRate_iff`). -/
theorem createRefusesBadSampleRates : Obligations.CreateRefusesBadSampleRates := by
  intro s sr h
  refine execCreate_of_not_valid fun hvalid => ?_
  obtain ⟨h1, h2⟩ := validSampleRate_iff.1 hvalid
  bv_omega

/-- Settles O14: a Live block is all that destroy asks for. -/
theorem destroyUnconstructs : Obligations.DestroyUnconstructs :=
  fun _ v hv => execDestroy_eq_next.2 ⟨v, hv, rfl⟩

/-! ## The setters complete (46 R232 to R238) -/

/-- The converse of `exec_cases` for a setter: on a Live block it completes and replaces the Live fields. -/
theorem Sets.exec_eq_withVoice {i : Instr} {s : State} {v v' : Voice} (h : Sets i v v') (hv : s.lc = .live v) :
    exec i s = .next (s.withVoice v') := by
  cases h with
  | adsr he => exact execSetAdsr_eq_next.2 ⟨v, _, hv, he, rfl⟩
  | gain | frequency | noteOn | noteOff | waveform | lfoRate => exact update_eq_next.2 ⟨v, hv, rfl⟩

/-- Settles O15: both are `setAbsolute`. -/
theorem gainAndFrequencyAreSetAbsolutely : Obligations.GainAndFrequencyAreSetAbsolutely :=
  fun _ v x hv => ⟨(Sets.gain v x).exec_eq_withVoice hv, (Sets.frequency v x).exec_eq_withVoice hv⟩

/-- Settles O16: the events of 41 R148 and R149. -/
theorem noteEventsWriteOnlyTheStage : Obligations.NoteEventsWriteOnlyTheStage :=
  fun _ v hv => ⟨(Sets.noteOn v).exec_eq_withVoice hv, (Sets.noteOff v).exec_eq_withVoice hv⟩

/-- Settles O20: the operand is stored as it is. -/
theorem lfoRateIsStoredAsGiven : Obligations.LfoRateIsStoredAsGiven :=
  fun _ v f hv => (Sets.lfoRate v f).exec_eq_withVoice hv

/-- Sine has the id 0 and every id that is not recognised (46 R237). -/
theorem waveformOfId_eq_sine {n : Nat} (h : n = 0 ∨ 4 ≤ n) : waveformOfId n = .sine := by
  obtain rfl | h := h
  · rfl
  · simp only [waveformOfId, show n ≠ 0 by omega, show n ≠ 1 by omega, show n ≠ 2 by omega,
      show n ≠ 3 by omega, if_false]

/-- Settles O19: the waveform stored is that of `waveformOfId`. -/
theorem waveformIsSelectedById : Obligations.WaveformIsSelectedById := by
  intro s v id hv
  have hset := (Sets.waveform v id).exec_eq_withVoice hv
  refine ⟨?_, ?_, ?_, fun hid => ?_⟩
  · rintro rfl; exact hset
  · rintro rfl; exact hset
  · rintro rfl; exact hset
  · rwa [waveformOfId_eq_sine (by bv_omega)] at hset

/-! ## set_adsr (46 R236, 41 R150, R151) -/

section
variable {a b x : Word}

theorem flt_eq_not_fle (ha : isNaN a = false) (hb : isNaN b = false) : flt a b = !fle b a := by
  simp [flt, fle, ha, hb, ← decide_not]

/-- A time at or below the floor is raised to it (41 R150). -/
theorem floorTime_of_not_isNaN (h : isNaN x = false) :
    floorTime x = some (if fle x adsrMinTime then adsrMinTime else x) := by
  rw [floorTime, h, fgt, flt_eq_not_fle isNaN_adsrMinTime h]
  cases fle x adsrMinTime <;> rfl

/-- A sustain in [0, 1] is kept, a zero as it is (41 R151). -/
theorem clampSustain_of_not_isNaN (h : isNaN x = false) :
    clampSustain x = some (if flt x plusZero then plusZero else if fle x one then x else one) := by
  rw [clampSustain, clamp_of_not_isNaN h, flt_eq_not_fle isNaN_one h]
  cases fle x one <;> rfl

end

/-- Settles O17: every operand has a stored value, so `set_adsr` stores the shape. -/
theorem setAdsrFloorsAndClamps : Obligations.SetAdsrFloorsAndClamps := by
  intro s v a d su r hv ha hd hsu hr
  refine (Sets.adsr ?_).exec_eq_withVoice hv
  simp only [storeShape, floorTime_of_not_isNaN ha, floorTime_of_not_isNaN hd, clampSustain_of_not_isNaN hsu,
    floorTime_of_not_isNaN hr]
  rfl

/-- A NaN operand leaves no shape to store, and the first one is the site of the refusal (60 R264). -/
theorem execSetAdsr_of_firstNaN {s : State} {v : Voice} {a d su r : Word} {p : Site} (hv : s.lc = .live v)
    (h : firstNaN a d su r = some p) : execSetAdsr a d su r s = s.refuse .nanAtClamp none (some p) := by
  have hnone : storeShape v.env a d su r = none := storeShape_eq_none.2 (by simp [h])
  rw [execSetAdsr, whenLive_live hv]
  simp only [floatOperand, hnone, h]

/-- Settles O18: `firstNaN` looks at the operands in the order of the four cases. -/
theorem setAdsrRefusesNaN : Obligations.SetAdsrRefusesNaN := by
  intro s v a d su r hv
  refine ⟨fun ha => ?_, fun ha hd => ?_, fun ha hd hsu => ?_, fun ha hd hsu hr => ?_⟩
  · exact execSetAdsr_of_firstNaN hv (by simp [firstNaN, ha])
  · exact execSetAdsr_of_firstNaN hv (by simp [firstNaN, ha, hd])
  · exact execSetAdsr_of_firstNaN hv (by simp [firstNaN, ha, hd, hsu])
  · exact execSetAdsr_of_firstNaN hv (by simp [firstNaN, ha, hd, hsu, hr])

/-! ## A setter repeated (46 R242) -/

/-- What a shape stores depends on its operands only. -/
theorem storeShape_again {e e' : Envelope} {a d su r : Word} (h : storeShape e a d su r = some e') :
    storeShape e' a d su r = some e' := by
  obtain ⟨a', d', su', r', ha, hd, hsu, hr, rfl⟩ := storeShape_eq_some h
  simp only [storeShape, ha, hd, hsu, hr]

/-- A setter's Live fields are its own result again. -/
theorem Sets.again {i : Instr} {v v' : Voice} (h : Sets i v v') : Sets i v' v' := by
  cases h with
  | gain _ x => exact .gain _ x
  | frequency _ x => exact .frequency _ x
  | noteOn => exact .noteOn _
  | noteOff => exact .noteOff _
  | adsr he => exact .adsr (storeShape_again he)
  | waveform _ x => exact .waveform _ x
  | lfoRate _ x => exact .lfoRate _ x

/-- Settles O21: of the commands left only the setters complete, and each repeats its result (`Sets.again`). -/
theorem repeatedSettersAreIdempotent : Obligations.RepeatedSettersAreIdempotent := by
  intro i s t hcreate hrender hdestroy h
  rcases exec_cases h with ⟨sr, rfl, -, -⟩ | ⟨rfl, -⟩ | ⟨n, v, v', ys, rfl, -, -, -⟩ | ⟨v, v', -, rfl, hset⟩
  · exact absurd rfl (hcreate sr)
  · exact absurd rfl hdestroy
  · exact absurd rfl (hrender n)
  · exact hset.again.exec_eq_withVoice (s.withVoice_lc v')

end Sys2Proof.Machine
end

section
/-! PROOFS. Refusals and the end of a run (spec 60 R261 to R263, 70 R306): a marked state and an ended run take no step, every
refusal is recorded, an Unconstructed block refuses all commands but create, and a render refused in a sample step keeps the
slots before it. -/

namespace Sys2Proof.Machine

/-! ## The mark and its record (60 R261, R262) -/

section
variable {s t : State}

theorem step_of_marked {record : RefusalRecord} (h : s.refusal = some record) :
    step s = .refused (refusalOf record.reason s) := by
  simp only [step, h]

theorem step_of_port_nil (hs : s.refusal = none) (hp : s.port = []) : step s = .next s := by
  simp only [step, hs, State.fetch, decode_eq_done.2 hp]

/-- The refusals of a step: a marked state reports its own; otherwise the decoder or the command refuses, with its record. -/
theorem step_eq_refused {r : Refusal} (h : step s = .refused r) :
    (∃ record, s.refusal = some record ∧ r = refusalOf record.reason s) ∨
      (s.refusal = none ∧ Recorded s.commandIndex r) := by
  cases hs : s.refusal with
  | some record =>
    rw [step_of_marked hs, Host.Outcome.refused.injEq] at h
    exact .inl ⟨record, rfl, h.symm⟩
  | none =>
    refine .inr ⟨rfl, ?_⟩
    cases hd : decode s.port with
    | done =>
      rw [step_of_port_nil hs (decode_eq_done.1 hd)] at h
      cases h
    | refuse e =>
      rw [step_of_decode_refuse hs hd] at h
      exact recorded_refuse h
    | command i rest =>
      cases hx : exec i s with
      | next t =>
        rw [step_of_exec_next hs hd hx] at h
        cases h
      | fault f => exact nomatch f
      | refused r' =>
        rw [step_of_exec_refused hs hd hx, Host.Outcome.refused.injEq] at h
        exact h ▸ exec_refused_recorded hx

/-- A command that completes leaves the bookkeeping of refusals alone. -/
theorem exec_keeps_mark {i : Instr} (h : exec i s = .next t) :
    t.refusal = s.refusal ∧ t.commandIndex = s.commandIndex := by
  rcases exec_cases h with ⟨sr, -, -, rfl⟩ | ⟨-, rfl⟩ | ⟨n, v, v', ys, -, -, -, rfl⟩ | ⟨v, v', -, rfl, -⟩
  · exact ⟨rfl, rfl⟩
  · exact ⟨rfl, rfl⟩
  · simp
  · exact ⟨rfl, rfl⟩

end

/-- Settles O9: a command that completes keeps the mark (`exec_keeps_mark`), its step counts it, and each refusal has its record
(`step_eq_refused`). -/
theorem onlyRefusalsSetTheMark : Obligations.OnlyRefusalsSetTheMark := by
  refine ⟨fun i s t => exec_keeps_mark, fun s t h => ?_, fun s r h => ?_⟩
  · obtain ⟨hs, hidle | ⟨i, rest, t', -, ht', rfl⟩⟩ := step_eq_next h
    · exact ⟨hidle.2 ▸ hs, .inr hidle⟩
    · obtain ⟨hmark, hindex⟩ := exec_keeps_mark ht'
      exact ⟨hmark.trans hs, .inl (congrArg (· + 1) hindex)⟩
  · rcases step_eq_refused h with ⟨record, hs, rfl⟩ | ⟨hs, f, record, rfl, hf, hcommand⟩
    · exact ⟨s, record, rfl, hs, fun hnone => absurd (hs.symm.trans hnone) (Option.some_ne_none _), fun _ => rfl⟩
    · exact ⟨f, record, rfl, hf, fun _ => hcommand, fun hsome => absurd hs hsome⟩

/-- Settles O8: a step that answers a next state starts unmarked (`step_eq_next`). -/
theorem endedRunsTakeNoStep : Obligations.EndedRunsTakeNoStep :=
  ⟨fun _ => step_of_port_nil, fun _ _ hs h => hs (step_eq_next h).1⟩

/-! ## While Unconstructed (60 R263) -/

/-- Every command but create asks for a Live block before anything of its own. -/
theorem exec_of_unconstructed {i : Instr} {s : State} (hi : ∀ sr, i ≠ .create sr) (hs : s.lc = .unconstructed) :
    exec i s = s.refuse .notLive none none := by
  cases i with
  | create sr => exact absurd rfl (hi sr)
  | render | setGain | setFrequency | noteOn | noteOff | setAdsr | setWaveform | setLfoRate | destroy =>
    exact whenLive_unconstructed hs

/-- Settles O10: the command decoded is refused (`exec_of_unconstructed`), and the step passes the refusal on. -/
theorem notLiveCommandsAreRefused : Obligations.NotLiveCommandsAreRefused :=
  fun _ _ _ hs hlc hd hi => step_of_exec_refused hs hd (exec_of_unconstructed hi hlc)

/-! ## A render refused in a sample step (60 R261, 46 R231) -/

/-- Settles O33: the slots before the frame refused are written as in a render that completes. -/
theorem refusedRenderKeepsEarlierSlots : Obligations.RefusedRenderKeepsEarlierSlots := by
  intro n s f h
  obtain ⟨v, k, v₁, ys, site, v₂, -, -, hk, hys, hnan, rfl⟩ := execRender_eq_nanAtClamp.1 h
  have hlen : ys.length = k := renderSamples_length hys
  obtain ⟨-, hsite⟩ := sampleStep_eq_nanAt.1 hnan
  refine ⟨k, site, writtenPatterns s.nanDraws ys, hk, hsite.imp And.left And.left, by simp,
    by rw [writtenPatterns_length, hlen], render_history _ _ _, fun j hj => ?_, fun a ha => ?_⟩
  · have hslot := readWord_writeAll s.buffer.base 0 ys s hj
    rwa [Nat.zero_add] at hslot
  · exact writeAll_readByte_outside _ _ _ _ (by simp only [slotAddress]; omega)

end Sys2Proof.Machine
end

section
/-! PROOFS. When a new rate shows (spec 70 R302, 92 D9). A sample is the oscillator's before its advance times the effective
gain, so the frequency of a frame shows in the next one, and an LFO rate, which moves the LFO's next value, one later still. -/

namespace Sys2Proof.Machine

/-! ## The sample of a frame and its frequency (45 R210, R213) -/

section
variable {v v' w : Voice} {y z : Word}

theorem effectiveGain_controlSteps (hr : v.routes = routeTable) : effectiveGain (controlSteps v) =
    clamp (fmul (smooth v.gain kSmooth).current
      (fadd plusZero (fmul (envAdvance v.sampleRate v.env).value routeDepth))) gMin gMax := by
  rw [effectiveGain, controlSteps_gain_current, controlSteps_gain_modulation hr]

/-- With the fixed table neither the frequency nor the LFO has a part in the effective gain. -/
theorem effectiveGain_of_freq_lfo (hr : v.routes = routeTable) (p : Smoothed) (l : Lfo) :
    effectiveGain (controlSteps { v with freq := p, lfo := l }) = effectiveGain (controlSteps v) :=
  (effectiveGain_controlSteps (v := { v with freq := p, lfo := l }) hr).trans (effectiveGain_controlSteps hr).symm

/-- Nor have they in the sample of the frame, which is taken before the oscillator advances (42 R176). -/
theorem sampleStep_sample_of_freq_lfo (hr : v.routes = routeTable) {p : Smoothed} {l : Lfo}
    (h : sampleStep v = .sample v' y) (h' : sampleStep { v with freq := p, lfo := l } = .sample w z) : y = z := by
  obtain ⟨-, g, -, hg, rfl, -⟩ := sampleStep_eq_sample.1 h
  obtain ⟨-, g', -, hg', rfl, -⟩ := sampleStep_eq_sample.1 h'
  rw [effectiveGain_of_freq_lfo hr, hg, Option.some.injEq] at hg'
  rw [hg']

/-- The LFO gives its value before its advance (92 D9), so a frame at another LFO rate leaves another LFO and nothing else. -/
theorem sampleStep_of_lfoRate (hr : v.routes = routeTable) {x : Word} (h : sampleStep v = .sample v' y)
    (h' : sampleStep { v with lfo := { v.lfo with freq := x } } = .sample w z) : ∃ l, w = { v' with lfo := l } := by
  have hcontrol : controlSteps { v with lfo := { v.lfo with freq := x } } =
      { controlSteps v with lfo := (lfoAdvance v.sampleRate { v.lfo with freq := x }).2 } := by
    rw [controlSteps_of_routeTable (v := { v with lfo := { v.lfo with freq := x } }) hr, controlSteps_of_routeTable hr]
  obtain ⟨f, -, hf, -, -, rfl⟩ := sampleStep_eq_sample.1 h
  obtain ⟨f', -, hf', -, -, rfl⟩ := sampleStep_eq_sample.1 h'
  rw [hcontrol] at hf' ⊢
  obtain rfl : f = f' := Option.some.inj (hf.symm.trans hf')
  exact ⟨_, rfl⟩

theorem renderSamples_one {ys : List Word} :
    renderSamples 1 v = some (v', ys) ↔ ∃ y, sampleStep v = .sample v' y ∧ ys = [y] := by
  rw [renderSamples_succ]
  simp [renderSamples]

end

/-! ## Two renders that write the same (45 R214, 46 R231) -/

theorem writeAll_withVoice (base i : Nat) (ys : List Word) (s : State) (v : Voice) :
    writeAll base i ys (s.withVoice v) = (writeAll base i ys s).withVoice v := by
  induction ys generalizing i s with
  | nil => rfl
  | cons y ys ih => exact ih (i + 1) (s.outWrite base i y)

/-- Renders from two blocks that give the same samples write the same. -/
theorem execRender_withVoice_writes {n : Word} {s t t₁ : State} {v v₁ : Voice} (hv : s.lc = .live v)
    (h : execRender n s = .next t) (h₁ : execRender n (s.withVoice v₁) = .next t₁)
    (hsame : ∀ w w₁ ys ys₁, renderSamples n.toNat v = some (w, ys) → renderSamples n.toNat v₁ = some (w₁, ys₁) → ys = ys₁) :
    t.history = t₁.history ∧ t.mem = t₁.mem := by
  obtain ⟨u, w, ys, hu, -, hys, rfl⟩ := execRender_eq_next.1 h
  obtain ⟨u₁, w₁, ys₁, hu₁, -, hys₁, rfl⟩ := execRender_eq_next.1 h₁
  obtain rfl : u = v := Lifecycle.live.inj (hu.symm.trans hv)
  obtain rfl : v₁ = u₁ := Lifecycle.live.inj hu₁
  obtain rfl := hsame w w₁ ys ys₁ hys hys₁
  rw [writeAll_withVoice]
  exact ⟨rfl, rfl⟩

/-- Settles O59: slot 0 does not show the frequency (`sampleStep_sample_of_freq_lfo`); a new LFO rate leaves frame 0 another LFO
only (`sampleStep_of_lfoRate`), which slot 1 does not show either. -/
theorem ratesDoNotShowInEarlierSlots : Obligations.RatesDoNotShowInEarlierSlots := by
  intro f s s₁ t t₁ v hv hr
  refine ⟨fun hset h h₁ => ?_, fun hset h h₁ => ?_⟩
  · obtain rfl := Host.Outcome.next.inj (((Sets.frequency v f).exec_eq_withVoice hv).symm.trans hset)
    refine execRender_withVoice_writes hv h h₁ fun w w₁ ys ys₁ hys hys₁ => ?_
    obtain ⟨y, hy, rfl⟩ := renderSamples_one.1 hys
    obtain ⟨z, hz, rfl⟩ := renderSamples_one.1 hys₁
    rw [sampleStep_sample_of_freq_lfo hr hy hz]
  · obtain rfl := Host.Outcome.next.inj (((Sets.lfoRate v f).exec_eq_withVoice hv).symm.trans hset)
    refine execRender_withVoice_writes hv h h₁ fun w w₁ ys ys₁ hys hys₁ => ?_
    obtain ⟨v', y, ys, hy, hrest, rfl⟩ := renderSamples_succ.1 hys
    obtain ⟨v₁', z, ys₁, hz, hrest₁, rfl⟩ := renderSamples_succ.1 hys₁
    obtain ⟨y', hy', rfl⟩ := renderSamples_one.1 hrest
    obtain ⟨z', hz', rfl⟩ := renderSamples_one.1 hrest₁
    obtain ⟨l, rfl⟩ := sampleStep_of_lfoRate hr hy hz
    obtain ⟨-, hroutes, -⟩ := sampleStep_frame hy
    rw [sampleStep_sample_of_freq_lfo hr hy hz, sampleStep_sample_of_freq_lfo (hroutes.trans hr) hy' hz']

end Sys2Proof.Machine
end
